-- ==== Sys2Proof/Word.lean ====
section
/-! DEFINITION. Word.lean: the words the display transport moves, its line levels and its five lines. -/

namespace Sys2Proof

/-- An 8-bit value: a byte on the wire, a character code, a glyph row (00_scope.md R7). -/
abbrev Byte := BitVec 8

/-- A 16-bit value: a coordinate, a length or a color (00_scope.md R4, R7; 10_state.md R16). -/
abbrev Word := BitVec 16

/-- A line level: `true` is high (1), `false` is low (0) (10_state.md R10). -/
abbrev Level := Bool

/-- The five signal lines, by role (10_state.md R10). -/
inductive Line where
  | sck | sda | dc | rst | bl
  deriving DecidableEq, Repr

end Sys2Proof
end

