-- ==== Sys2Proof/Config.lean ====
section
/-! DEFINITION. Config.lean: the fixed numbers of the block, its parameters with the spec's defaults, and the free
values of what the source leaves open. -/

namespace Sys2Proof

/-- `TIMING_POLICY` (00_scope.md R6, 40_transport.md R101). -/
inductive TimingPolicy where
  | fast | conservative
  deriving DecidableEq, Repr

/-- The parameters of the step relation (10_state.md R25, 00_scope.md section 4) that some rule reads. They are fixed
before reset; `State.params` carries them and no step changes them (log 10). -/
structure Params where
  /-- `TIMING_POLICY`, D6. -/
  policy : TimingPolicy
  /-- `LVL_CMD`: the level of DC that means command, D1. -/
  lvlCmd : Level
  /-- `LVL_RST_ACTIVE`: the active level of RST, D2. -/
  lvlRstActive : Level
  /-- `LVL_BL_ON`: the level of BL that turns the backlight on, D3. -/
  lvlBlOn : Level
  /-- `T_SHORT`, D14. -/
  tShort : Nat
  /-- `T_LONG`, D14. -/
  tLong : Nat
  /-- `INIT_CLEAR`: whether `init` clears the panel and with which color, D15. -/
  initClear : Option Word
  /-- `YIELD_EVERY`: which of the places where a yield may fall (42_window_fill.md R129), numbered from reset, hold
  one. Any placement in a finite run is such a list, D20 (log 17). -/
  yieldAt : List Nat
  deriving DecidableEq, Repr

/-- `LVL_DATA = 1 - LVL_CMD` (41_framing.md R110). -/
def Params.lvlData (p : Params) : Level := !p.lvlCmd

/-- The inactive level of RST, `1 - LVL_RST_ACTIVE` (44_init.md R152). -/
def Params.lvlRstIdle (p : Params) : Level := !p.lvlRstActive

/-- The range the spec gives its open wait parameters: `0 < T_SHORT < T_LONG < 255` (44_init.md R154). -/
def Params.waitsOk (p : Params) : Bool :=
  decide (0 < p.tShort ∧ p.tShort < p.tLong ∧ p.tLong < 255)

/-- The defaults of 00_scope.md section 4 and of the conventions of 95_test_vectors.md (log 10). -/
def Params.default : Params :=
  { policy := .fast, lvlCmd := false, lvlRstActive := false, lvlBlOn := true,
    tShort := 10, tLong := 100, initClear := some 0x0000, yieldAt := [] }

namespace Config

/-- `PANEL_W` (00_scope.md R4). -/
def panelW : Nat := 240
/-- `PANEL_H` (00_scope.md R4). -/
def panelH : Nat := 240
/-- `GLYPH_W`, `GLYPH_H` (00_scope.md R4). -/
def glyphSize : Nat := 8
/-- `CH_MIN` (00_scope.md R4). -/
def chMin : Nat := 32
/-- `CH_MAX` (00_scope.md R4). -/
def chMax : Nat := 126
/-- `CHAR_ADVANCE`: glyph width + 1 (43_text.md R140). -/
def charAdvance : Nat := 9
/-- `LINE_ADVANCE`: glyph height + 2 (43_text.md R140). -/
def lineAdvance : Nat := 10
/-- `T_RST_HOLD` (44_init.md R154). -/
def tRstHold : Nat := 10
/-- `T_RST_BOOT` (44_init.md R154). -/
def tRstBoot : Nat := 120
/-- `T_SWRESET` (44_init.md R154). -/
def tSwreset : Nat := 150
/-- `T_SLPOUT` (44_init.md R154). -/
def tSlpout : Nat := 255

/-- FREE VALUE `GLYPH(ch, row)`: the source does not give the glyph table (20_memory.md R40, D13; log 11). -/
opaque glyph : Nat → Nat → Byte

/-- FREE VALUE `cfg_ok`: the environment's answer to the n-th line configuration for which no answer is waiting in the
state (44_init.md R151, U13; log 12). -/
opaque cfgOk : Nat → Bool

/-- FREE VALUE behind `PIN`: some one-to-one renumbering of the pins, of which nothing else is known (log 19). -/
opaque pinNumbering : Equiv.Perm Nat

/-- PARAMETER `PIN`: the physical pin of a line. The five are distinct (00_scope.md R5, D32: `PIN` is injective), and
every distinct choice of five pins is the value of some numbering; no other rule depends on it (log 19). -/
def pin (L : Line) : Nat :=
  pinNumbering (match L with
    | .sck => 0
    | .sda => 1
    | .dc => 2
    | .rst => 3
    | .bl => 4)

/-- PARAMETER `T_SETTLE`: the duration of one `Settle`, which no rule reads (40_transport.md R101; log 19). -/
opaque tSettle : Nat

/-- PARAMETER `TIME_UNIT`: the length of a time-unit, which no rule reads (44_init.md R153; log 19). -/
opaque timeUnit : Nat

end Config

end Sys2Proof
end

