-- ==== Sys2Proof/Syntax.lean ====
section
/-! DEFINITION. Syntax.lean: the instructions (one constructor per row of the opcode table), the frames of the wire,
and the packets in which instructions stand at the machine's ports. -/

namespace Sys2Proof

/-- The instructions: the six host requests (30_encoding.md R84, R86), the six internal operations (R85, R89) and the
ten wire commands (R75, R76). -/
inductive Instr where
  /-- `init()` (44_init.md R150). -/
  | init
  /-- `clear(color)` (42_window_fill.md R128). -/
  | clear (color : Word)
  /-- `draw_pixel(x, y, color)` (42_window_fill.md R126). -/
  | drawPixel (x y color : Word)
  /-- `fill_rect(x, y, w, h, color)` (42_window_fill.md R122). -/
  | fillRect (x y w h color : Word)
  /-- `draw_char(x, y, ch, fg, bg)` (43_text.md R136). -/
  | drawChar (x y : Word) (ch : Byte) (fg bg : Word)
  /-- `draw_string(x, y, text, fg, bg)` (43_text.md R139); `tlen` is the length of the text. -/
  | drawString (x y : Word) (text : List Byte) (fg bg : Word)
  /-- `send_byte(value)` (40_transport.md R100). -/
  | sendByte (value : Byte)
  /-- `send_word(value)` (40_transport.md R102). -/
  | sendWord (value : Word)
  /-- `send_command(opcode)` (41_framing.md R111). -/
  | sendCommand (opcode : Byte)
  /-- `send_data_byte(value)` (41_framing.md R112). -/
  | sendDataByte (value : Byte)
  /-- `send_data_word(value)` (41_framing.md R113). -/
  | sendDataWord (value : Word)
  /-- `set_window(x, y, w, h)` (42_window_fill.md R120). -/
  | setWindow (x y w h : Word)
  /-- SWRESET, 0x01 (45_wire_commands.md R172). -/
  | swreset
  /-- SLPOUT, 0x11 (45_wire_commands.md R173). -/
  | slpout
  /-- NORON, 0x13 (45_wire_commands.md R174). -/
  | noron
  /-- INVON, 0x21 (45_wire_commands.md R175). -/
  | invon
  /-- DISPON, 0x29 (45_wire_commands.md R176). -/
  | dispon
  /-- CASET, 0x2A, start and inclusive end column (45_wire_commands.md R177). -/
  | caset (xs xe : Word)
  /-- RASET, 0x2B, start and inclusive end row (45_wire_commands.md R178). -/
  | raset (ys ye : Word)
  /-- RAMWR, 0x2C, with the color words that follow it (45_wire_commands.md R179, R180; 30_encoding.md R74, R76). -/
  | ramwr (stream : List Word)
  /-- MADCTL, 0x36, one operand byte (45_wire_commands.md R182). -/
  | madctl (m : Byte)
  /-- COLMOD, 0x3A, one operand byte (45_wire_commands.md R183). -/
  | colmod (m : Byte)
  deriving DecidableEq, Repr

/-- The ten assigned wire opcodes (30_encoding.md R75). -/
inductive WireOp where
  | swreset | slpout | noron | invon | dispon | caset | raset | ramwr | madctl | colmod
  deriving DecidableEq, Repr

/-- The kind of a frame: command `C` or data `D` (30_encoding.md R72). -/
inductive FrameKind where
  | command | data
  deriving DecidableEq, Repr

/-- A frame: one byte with the command/data level that governs it (30_encoding.md R72). -/
structure Frame where
  kind : FrameKind
  byte : Byte
  deriving DecidableEq, Repr

/-- An element of the frame trace (30_encoding.md R73). -/
inductive Elem where
  | frame (f : Frame)
  | hwReset
  | hwRelease
  | wait (n : Nat)
  /-- A rising clock edge while SDA has never been driven: there is no level to take. No run of the block has one; the
  receiver faults on it (log 16). -/
  | noLevel
  deriving DecidableEq, Repr

/-- An instruction as it stands at a port, in the spec's own encodings (log 1). -/
inductive Packet where
  /-- A host request: OPSEL, then the operands in order, each high byte first (30_encoding.md R86). -/
  | request (bytes : List Byte)
  /-- A transport operation: bare bytes in time order (30_encoding.md R89). -/
  | bare (bytes : List Byte)
  /-- A framing operation or `set_window`: 9-bit frame codes in time order (30_encoding.md R89). -/
  | framed (codes : List (BitVec 9))
  /-- A wire command: the 9-bit frame codes of its command frame and of the data frames that follow
  (30_encoding.md R72, R76). -/
  | wire (codes : List (BitVec 9))
  deriving DecidableEq, Repr

/-- An input at the machine's ports: an instruction, or a bare element of the frame trace at the receiver (log 2). -/
inductive Input where
  | packet (p : Packet)
  | element (e : Elem)
  deriving DecidableEq, Repr

/-- Why a packet is no instruction. -/
inductive DecodeError where
  /-- The packet is empty. -/
  | emptyPacket
  /-- OPSEL is not one of 0x01 to 0x06 (30_encoding.md R87). -/
  | unknownOpsel (opsel : Byte)
  /-- The operands have not the length the selector, opcode or pattern takes (30_encoding.md R76, R86, R89). -/
  | wrongLength
  /-- The frame codes are none of the patterns of 30_encoding.md R89. -/
  | badPattern
  /-- A wire packet does not begin with a command frame (30_encoding.md R74). -/
  | notACommand
  /-- The opcode is none of the ten (30_encoding.md R82). -/
  | unknownOpcode (opcode : Byte)
  /-- A frame after the command frame is no data frame (30_encoding.md R74). -/
  | operandNotData
  /-- A pixel stream with half a color word (20_memory.md R49). -/
  | tornStream
  deriving DecidableEq, Repr

/-- What a packet decodes to. -/
inductive Decoded where
  | instr (i : Instr)
  | rejected (why : DecodeError)
  deriving DecidableEq, Repr

end Sys2Proof
end

