-- ==== Sys2Proof/WellFormed.lean ====
section
/-! DEFINITION. WellFormed.lean: which instruction terms are instructions. Operand widths are in the types; what is left
is the 16-bit length of the text operand. -/

namespace Sys2Proof

/-- The text operand has TLEN bytes, TLEN in 0..65535 (20_memory.md R43, section 1). Every other operand takes every
value of its type. -/
def Instr.wellFormed : Instr → Bool
  | .init => true
  | .clear _ => true
  | .drawPixel _ _ _ => true
  | .fillRect _ _ _ _ _ => true
  | .drawChar _ _ _ _ _ => true
  | .drawString _ _ text _ _ => decide (text.length < 65536)
  | .sendByte _ => true
  | .sendWord _ => true
  | .sendCommand _ => true
  | .sendDataByte _ => true
  | .sendDataWord _ => true
  | .setWindow _ _ _ _ => true
  | .swreset => true
  | .slpout => true
  | .noron => true
  | .invon => true
  | .dispon => true
  | .caset _ _ => true
  | .raset _ _ => true
  | .ramwr _ => true
  | .madctl _ => true
  | .colmod _ => true

end Sys2Proof
end

