-- ==== Sys2Proof/Decode.lean ====
section
/-! DEFINITION. Decode.lean: bit fields and byte order, the opcode maps, the decoder of each port (total, rejecting by
name), the encoder, and the decoder of opcode-table words. -/

namespace Sys2Proof

/-! ### Bit fields and byte order -/

/-- The high byte `v[15:8]` (00_scope.md R7, 30_encoding.md R79). -/
def hiByte (v : Word) : Byte := v.extractLsb' 8 8

/-- The low byte `v[7:0]` (00_scope.md R7, 30_encoding.md R79). -/
def loByte (v : Word) : Byte := v.extractLsb' 0 8

/-- `hi ++ lo` (30_encoding.md R79). -/
def joinBytes (hi lo : Byte) : Word := hi ++ lo

/-! ### Wire opcodes and frame codes -/

/-- The opcode of a wire command (30_encoding.md R75). -/
def wireOpcode : WireOp → Byte
  | .swreset => 0x01
  | .slpout => 0x11
  | .noron => 0x13
  | .invon => 0x21
  | .dispon => 0x29
  | .caset => 0x2A
  | .raset => 0x2B
  | .ramwr => 0x2C
  | .madctl => 0x36
  | .colmod => 0x3A

/-- The ten wire commands in opcode order (30_encoding.md R75). -/
def wireOps : List WireOp :=
  [.swreset, .slpout, .noron, .invon, .dispon, .caset, .raset, .ramwr, .madctl, .colmod]

/-- The wire command an opcode names, if it is one of the ten (30_encoding.md R75, R82). -/
def wireOpOf (b : Byte) : Option WireOp := wireOps.find? fun op => wireOpcode op == b

/-- `nops(op)`, the operand count in data frames (30_encoding.md R76). -/
def nops : WireOp → Nat
  | .swreset => 0
  | .slpout => 0
  | .noron => 0
  | .invon => 0
  | .dispon => 0
  | .caset => 4
  | .raset => 4
  | .ramwr => 0
  | .madctl => 1
  | .colmod => 1

/-- The command frame `C:b`. -/
def cmdFrame (b : Byte) : Frame := ⟨.command, b⟩

/-- The data frame `D:b`. -/
def dataFrame (b : Byte) : Frame := ⟨.data, b⟩

/-- The two data frames of a word, high byte first (30_encoding.md R72, R79). -/
def wordFrames (v : Word) : List Frame := [dataFrame (hiByte v), dataFrame (loByte v)]

/-- The 9-bit frame code `k ++ byte`, `k = 0` for a command frame and 1 for a data frame (30_encoding.md R72). -/
def frameCode (f : Frame) : BitVec 9 :=
  match f.kind with
  | .command => (0#1 ++ f.byte : BitVec (1 + 8)).cast (by decide)
  | .data => (1#1 ++ f.byte : BitVec (1 + 8)).cast (by decide)

/-- The frame a frame code stands for (30_encoding.md R72). -/
def frameOfCode (c : BitVec 9) : Frame :=
  ⟨if c.getLsbD 8 then .data else .command, c.extractLsb' 0 8⟩

/-! ### The decoders, one per port -/

/-- A host request: OPSEL and its operands in order (30_encoding.md R86, R87; serialisation: log 1). -/
def decodeRequest : List Byte → Decoded
  | [] => .rejected .emptyPacket
  | opsel :: rest =>
    if opsel = 0x01 then
      match rest with
      | [] => .instr .init
      | _ => .rejected .wrongLength
    else if opsel = 0x02 then
      match rest with
      | [c1, c0] => .instr (.clear (joinBytes c1 c0))
      | _ => .rejected .wrongLength
    else if opsel = 0x03 then
      match rest with
      | [x1, x0, y1, y0, c1, c0] => .instr (.drawPixel (joinBytes x1 x0) (joinBytes y1 y0) (joinBytes c1 c0))
      | _ => .rejected .wrongLength
    else if opsel = 0x04 then
      match rest with
      | [x1, x0, y1, y0, w1, w0, h1, h0, c1, c0] =>
        .instr (.fillRect (joinBytes x1 x0) (joinBytes y1 y0) (joinBytes w1 w0) (joinBytes h1 h0) (joinBytes c1 c0))
      | _ => .rejected .wrongLength
    else if opsel = 0x05 then
      match rest with
      | [x1, x0, y1, y0, ch, f1, f0, b1, b0] =>
        .instr (.drawChar (joinBytes x1 x0) (joinBytes y1 y0) ch (joinBytes f1 f0) (joinBytes b1 b0))
      | _ => .rejected .wrongLength
    else if opsel = 0x06 then
      match rest with
      | x1 :: x0 :: y1 :: y0 :: n1 :: n0 :: tail =>
        let tlen := (joinBytes n1 n0).toNat
        match tail.drop tlen with
        | [f1, f0, b1, b0] =>
          .instr (.drawString (joinBytes x1 x0) (joinBytes y1 y0) (tail.take tlen) (joinBytes f1 f0) (joinBytes b1 b0))
        | _ => .rejected .wrongLength
      | _ => .rejected .wrongLength
    else .rejected (.unknownOpsel opsel)

/-- A transport operation: one bare byte is `send_byte`, two are `send_word` (30_encoding.md R89). -/
def decodeBare : List Byte → Decoded
  | [] => .rejected .emptyPacket
  | [v] => .instr (.sendByte v)
  | [h, l] => .instr (.sendWord (joinBytes h l))
  | _ => .rejected .wrongLength

/-- A framing operation or `set_window`, by the patterns of 30_encoding.md R89. The width and height of a window are
recovered from its end coordinates, `xe = x + w - 1` modulo 2^16 (R77). -/
def decodeFramed (codes : List (BitVec 9)) : Decoded :=
  match codes.map frameOfCode with
  | [] => .rejected .emptyPacket
  | [⟨.command, o⟩] => .instr (.sendCommand o)
  | [⟨.data, v⟩] => .instr (.sendDataByte v)
  | [⟨.data, h⟩, ⟨.data, l⟩] => .instr (.sendDataWord (joinBytes h l))
  | [⟨.command, c1⟩, ⟨.data, a⟩, ⟨.data, b⟩, ⟨.data, c⟩, ⟨.data, d⟩,
     ⟨.command, c2⟩, ⟨.data, e⟩, ⟨.data, f⟩, ⟨.data, g⟩, ⟨.data, i⟩, ⟨.command, c3⟩] =>
    if c1 = wireOpcode .caset ∧ c2 = wireOpcode .raset ∧ c3 = wireOpcode .ramwr then
      .instr (.setWindow (joinBytes a b) (joinBytes e f)
        (joinBytes c d - joinBytes a b + 1) (joinBytes g i - joinBytes e f + 1))
    else .rejected .badPattern
  | _ => .rejected .badPattern

/-- The bytes of a list of data frames, none if one of them is a command frame. -/
def dataBytes : List Frame → Option (List Byte)
  | [] => some []
  | f :: fs =>
    match f.kind with
    | .command => none
    | .data => (dataBytes fs).map (f.byte :: ·)

/-- The color words of a pixel stream, high byte first, none if half a word is left over (30_encoding.md R79). -/
def streamWords : List Byte → Option (List Word)
  | [] => some []
  | [_] => none
  | h :: l :: rest => (streamWords rest).map (joinBytes h l :: ·)

/-- The instruction of a wire opcode with its operand bytes (30_encoding.md R76, R77). -/
def wireInstr (op : WireOp) (operands : List Byte) : Decoded :=
  match op, operands with
  | .swreset, [] => .instr .swreset
  | .slpout, [] => .instr .slpout
  | .noron, [] => .instr .noron
  | .invon, [] => .instr .invon
  | .dispon, [] => .instr .dispon
  | .caset, [b1, b2, b3, b4] => .instr (.caset (joinBytes b1 b2) (joinBytes b3 b4))
  | .raset, [b1, b2, b3, b4] => .instr (.raset (joinBytes b1 b2) (joinBytes b3 b4))
  | .ramwr, stream =>
    match streamWords stream with
    | some ws => .instr (.ramwr ws)
    | none => .rejected .tornStream
  | .madctl, [m] => .instr (.madctl m)
  | .colmod, [m] => .instr (.colmod m)
  | _, _ => .rejected .wrongLength

/-- A wire command: one command frame, then data frames only (30_encoding.md R74, R76, R82). -/
def decodeWire (codes : List (BitVec 9)) : Decoded :=
  match codes.map frameOfCode with
  | [] => .rejected .emptyPacket
  | ⟨.data, _⟩ :: _ => .rejected .notACommand
  | ⟨.command, o⟩ :: rest =>
    match wireOpOf o with
    | none => .rejected (.unknownOpcode o)
    | some op =>
      match dataBytes rest with
      | none => .rejected .operandNotData
      | some bs => wireInstr op bs

/-- The decoder. -/
def decode : Packet → Decoded
  | .request bytes => decodeRequest bytes
  | .bare bytes => decodeBare bytes
  | .framed codes => decodeFramed codes
  | .wire codes => decodeWire codes

/-! ### The encoder -/

/-- A word as two operand bytes, high byte first. -/
def wordBytes (v : Word) : List Byte := [hiByte v, loByte v]

/-- The inclusive end coordinate `trunc_16(start + size - 1)` (30_encoding.md R77). -/
def endCoord (start size : Word) : Word := start + size - 1

/-- The eleven frames of an addressing window (30_encoding.md R89, 42_window_fill.md R120). -/
def windowFrames (x y w h : Word) : List Frame :=
  [cmdFrame (wireOpcode .caset)] ++ wordFrames x ++ wordFrames (endCoord x w) ++
  [cmdFrame (wireOpcode .raset)] ++ wordFrames y ++ wordFrames (endCoord y h) ++
  [cmdFrame (wireOpcode .ramwr)]

/-- The frames of a wire command with its operand bytes (30_encoding.md R76). -/
def commandFrames (op : WireOp) (operands : List Byte) : List Frame :=
  cmdFrame (wireOpcode op) :: operands.map dataFrame

/-- A packet at the wire port. -/
def wirePacket (op : WireOp) (operands : List Byte) : Packet :=
  .wire ((commandFrames op operands).map frameCode)

/-- The bytes of a pixel stream (30_encoding.md R79). -/
def streamBytes (ws : List Word) : List Byte := ws.flatMap wordBytes

/-- The words of an instruction, from the encoding tables of 30_encoding.md (R76, R86, R89). -/
def encode : Instr → Packet
  | .init => .request [0x01]
  | .clear c => .request (0x02 :: wordBytes c)
  | .drawPixel x y c => .request (0x03 :: (wordBytes x ++ wordBytes y ++ wordBytes c))
  | .fillRect x y w h c =>
    .request (0x04 :: (wordBytes x ++ wordBytes y ++ wordBytes w ++ wordBytes h ++ wordBytes c))
  | .drawChar x y ch fg bg =>
    .request (0x05 :: (wordBytes x ++ wordBytes y ++ [ch] ++ wordBytes fg ++ wordBytes bg))
  | .drawString x y text fg bg =>
    .request (0x06 :: (wordBytes x ++ wordBytes y ++ wordBytes (BitVec.ofNat 16 text.length) ++ text ++
      wordBytes fg ++ wordBytes bg))
  | .sendByte v => .bare [v]
  | .sendWord v => .bare (wordBytes v)
  | .sendCommand o => .framed [frameCode (cmdFrame o)]
  | .sendDataByte v => .framed [frameCode (dataFrame v)]
  | .sendDataWord v => .framed ((wordFrames v).map frameCode)
  | .setWindow x y w h => .framed ((windowFrames x y w h).map frameCode)
  | .swreset => wirePacket .swreset []
  | .slpout => wirePacket .slpout []
  | .noron => wirePacket .noron []
  | .invon => wirePacket .invon []
  | .dispon => wirePacket .dispon []
  | .caset xs xe => wirePacket .caset (wordBytes xs ++ wordBytes xe)
  | .raset ys ye => wirePacket .raset (wordBytes ys ++ wordBytes ye)
  | .ramwr ws => wirePacket .ramwr (streamBytes ws)
  | .madctl m => wirePacket .madctl [m]
  | .colmod m => wirePacket .colmod [m]

/-! ### Opcode-table words (the host's numbering) -/

/-- How many operand bytes a host request takes after its selector when every operand is 0, so that the text is empty
(30_encoding.md R86). -/
def requestOperandBytes (opsel : Byte) : Nat :=
  if opsel = 0x02 then 2
  else if opsel = 0x03 then 6
  else if opsel = 0x04 then 10
  else if opsel = 0x05 then 9
  else if opsel = 0x06 then 10
  else 0

/-- The 9-bit code in bits `lo+8 .. lo` of a table word. -/
def codeAt (w lo : Nat) : BitVec 9 := BitVec.ofNat 9 (w / 2 ^ lo)

/-- The packet an opcode-table word of `nbits` bits stands for, operands the table gives no bits being zero, the first
bit in time of a pattern its highest (log 18). Up to 8 bits: one of the six selectors, else the bare byte of
`send_byte`. Up to 16: a frame code if the word is below 2^9, of a wire command if its opcode is one of the ten, else of
a framing operation; a larger word is the two bare bytes of `send_word`. Up to 24 (a pattern of 18): the two codes of
`send_data_word`. More (a pattern of 99): the eleven codes of `set_window`. -/
def tableWordPacket (nbits w : Nat) : Packet :=
  if nbits ≤ 8 then
    let v := BitVec.ofNat 8 w
    if 0 < v.toNat ∧ v.toNat ≤ 6 then .request (v :: List.replicate (requestOperandBytes v) 0) else .bare [v]
  else if nbits ≤ 16 then
    if 512 ≤ w then .bare (wordBytes (BitVec.ofNat 16 w))
    else
      let f := frameOfCode (codeAt w 0)
      match f.kind with
      | .data => .framed [codeAt w 0]
      | .command =>
        match wireOpOf f.byte with
        | some op => .wire (codeAt w 0 :: List.replicate (nops op) (frameCode (dataFrame 0)))
        | none => .framed [codeAt w 0]
  else if nbits ≤ 24 then .framed [codeAt w 9, codeAt w 0]
  else .framed ((List.range 11).map fun k => codeAt w (9 * (10 - k)))

/-- The instruction the decoder reads from an opcode-table word. -/
def decodeTableWord (nbits w : Nat) : Option Instr :=
  match decode (tableWordPacket nbits w) with
  | .instr i => some i
  | .rejected _ => none

end Sys2Proof
end

