-- ==== Sys2Proof/Machine/State.lean ====
section
/-! DEFINITION. Machine/State.lean: the state of the block, of the wire and of the panel receiver, the reasons a step
can stop, and the state after reset. -/

namespace Sys2Proof.Machine

/-- Why a step stops with a fault. All but the last are the receiver's (45_wire_commands.md). SAFE: the model stops
where the source leaves the panel's behaviour undefined. -/
inductive Fault where
  /-- Raised by the receiver on a command frame while operands of the previous command are missing (R171, U5). Safe. -/
  | panelTruncatedCommand
  /-- Raised by the receiver on a command frame after half a color word (R171, U5). Safe. -/
  | panelTornWord
  /-- Raised by the receiver on a data frame that no command expects (R171, U5). Safe. -/
  | panelStrayData
  /-- Raised by the receiver when a color word is about to be written through a window that is not inside the panel or
  has no value (R181, U1, U14). Safe. -/
  | panelWindow
  /-- Raised by the receiver on a data frame after the window has been filled (R185, U2). Safe. -/
  | panelOverrun
  /-- Raised by the receiver on a frame or a release that comes before the mandatory wait is over, and on a frame while
  the panel is held in reset (R184, R186, U3). Safe. -/
  | panelTiming
  /-- Raised by the receiver where it would read a level or a cursor that holds no value (10_state.md R19, R26). No run
  from reset reaches it (log 16, log 20). Safe. -/
  | noValue
  deriving DecidableEq, Repr

/-- Why a step gives an instruction no meaning. -/
inductive Refusal where
  /-- Raised by `exec` for an instruction that has no meaning yet. Safe. -/
  | notModelled (mnemonic : String)
  /-- Raised by admission for a host request that is not admitted: the block is not idle, `init` while READY = 1, any
  other request while READY = 0 (60_exceptions.md R196, U7). The spec's own refusal. Safe. -/
  | notAdmitted
  /-- Raised by the step for a packet that is no instruction, the spec's refusal for an unknown OPSEL among them
  (30_encoding.md R87). Safe. -/
  | undecodable (why : DecodeError)
  /-- Raised by the receiver on a frame before the first HwReset and on pixel data while COLMOD is not 0x55 or MADCTL
  not 0x00 (45_wire_commands.md R170, R180, U7). Safe. -/
  | panelNotInitialised
  /-- Raised by the receiver on a command frame with an unassigned opcode (45_wire_commands.md R171, U4). Safe. -/
  | unknownOpcode (opcode : Byte)
  deriving DecidableEq, Repr

/-- What has stopped the panel receiver. -/
inductive Stop where
  | fault (f : Fault)
  | refused (r : Refusal)
  deriving DecidableEq, Repr

/-- An event of the pin trace (10_state.md R12). -/
inductive Event where
  | cfg (L : Line)
  | set (L : Line) (v : Level)
  | settle
  | wait (n : Nat)
  | yield
  deriving DecidableEq, Repr

/-- One signal line: `CFG` and `LVL`, `none` being "no value" (10_state.md R10). -/
structure LineState where
  cfg : Bool
  lvl : Option Level
  deriving DecidableEq, Repr

/-- The five signal lines (10_state.md R10). -/
structure Lines where
  sck : LineState
  sda : LineState
  dc : LineState
  rst : LineState
  bl : LineState
  deriving DecidableEq, Repr

/-- The working registers (10_state.md R15, R16, R17); `none` is "no value" (R19; log 4). -/
structure Regs where
  sr : Option (BitVec 8)
  bc : Option (BitVec 4)
  wr : Option (BitVec 16)
  x : Option (BitVec 16)
  y : Option (BitVec 16)
  w : Option (BitVec 16)
  h : Option (BitVec 16)
  xe : Option (BitVec 16)
  ye : Option (BitVec 16)
  color : Option (BitVec 16)
  pixcnt : Option (BitVec 16)
  ch : Option (BitVec 8)
  fg : Option (BitVec 16)
  bg : Option (BitVec 16)
  row : Option (BitVec 3)
  col : Option (BitVec 3)
  grow : Option (BitVec 8)
  x0 : Option (BitVec 16)
  cx : Option (BitVec 32)
  cy : Option (BitVec 32)
  ti : Option (BitVec 16)
  tlen : Option (BitVec 16)
  deriving DecidableEq, Repr

/-- Every working register without value (10_state.md R19). -/
def Regs.noValue : Regs :=
  { sr := none, bc := none, wr := none, x := none, y := none, w := none, h := none, xe := none, ye := none,
    color := none, pixcnt := none, ch := none, fg := none, bg := none, row := none, col := none, grow := none,
    x0 := none, cx := none, cy := none, ti := none, tlen := none }

/-- The operations the sequencer can be in (10_state.md R20): the twelve block operations and the reset pulse. -/
inductive OpName where
  | init | clear | drawPixel | fillRect | drawChar | drawString
  | sendByte | sendWord | sendCommand | sendDataByte | sendDataWord | setWindow | hwResetPulse
  deriving DecidableEq, Repr

/-- A sequencer position `(OP, PHASE)`: the operation and the number of the statement of its body (10_state.md R20). -/
structure Position where
  op : OpName
  phase : Nat
  deriving DecidableEq, Repr

/-- `STATUS` (10_state.md R21). -/
inductive Status where
  | ok | configFail
  deriving DecidableEq, Repr

/-- What the frame abstraction keeps beside the line levels: `ACC` and `N` (30_encoding.md R73). -/
structure Wire where
  acc : Byte
  n : Nat
  deriving DecidableEq, Repr

/-- `P.MODE` (45_wire_commands.md R170). -/
inductive RxMode where
  | idle
  | operands (op : WireOp) (got : List Byte)
  | pixel (hi : Option Byte)
  | exhausted
  deriving DecidableEq, Repr

/-- `P.SLEEP` (10_state.md R22). -/
inductive SleepState where
  | asleep | awake
  deriving DecidableEq, Repr

/-- `P.INV`, `P.NORM`, `P.DISP` (10_state.md R22: "one state"). -/
inductive Switch where
  | off | on
  deriving DecidableEq, Repr

/-- Memory: (address, byte) cells, addresses strictly rising; an address that is not listed holds no value (log 14). -/
abbrev Memory := List Host.Cell

/-- The panel receiver (45_wire_commands.md R170, 10_state.md R22, R23); `none` is "no value". -/
structure Panel where
  mode : Option RxMode
  xs : Option (BitVec 16)
  xe : Option (BitVec 16)
  ys : Option (BitVec 16)
  ye : Option (BitVec 16)
  px : Option (BitVec 16)
  py : Option (BitVec 16)
  sleep : Option SleepState
  colmod : Option (BitVec 8)
  madctl : Option (BitVec 8)
  inv : Option Switch
  norm : Option Switch
  disp : Option Switch
  /-- The frame memory `FB` (20_memory.md R44), two bytes an element (log 14). -/
  fb : Memory
  /-- The reset line is held active: HwReset seen, HwRelease not yet (R184, R186). -/
  held : Bool
  /-- Time-units of `Wait` still to come before HwRelease (R186; log 15). -/
  holdOwed : Nat
  /-- Time-units of `Wait` still to come before the next frame (R186; log 15). -/
  owed : Nat
  /-- The fault or refusal that has stopped the receiver (log 8). -/
  stop : Option Stop
  deriving DecidableEq, Repr

/-- The panel at power-on: every field without value (45_wire_commands.md R170). -/
def Panel.powerOn : Panel :=
  { mode := none, xs := none, xe := none, ys := none, ye := none, px := none, py := none, sleep := none,
    colmod := none, madctl := none, inv := none, norm := none, disp := none, fb := [], held := false,
    holdOwed := 0, owed := 0, stop := none }

/-- The whole machine. -/
structure State where
  /-- The parameters (10_state.md R25); no step changes them (log 10). -/
  params : Params
  /-- `CFG` and `LVL` of the five lines (R10). -/
  lines : Lines
  /-- The working registers (R15 to R17). -/
  regs : Regs
  /-- `SEQ`, innermost call first; empty is `(idle, -)` (R20; log 3). -/
  seq : List Position
  /-- `READY` (R21). -/
  ready : Bool
  /-- `STATUS` (R21). -/
  status : Option Status
  /-- The pin trace (R12), newest event first. -/
  pinLog : List Event
  /-- `ACC` and `N` of the frame abstraction (30_encoding.md R73). -/
  wire : Wire
  /-- The frame trace of the pin trace (30_encoding.md R73), newest element first (log 13). -/
  frameLog : List Elem
  /-- The panel receiver (45_wire_commands.md R170). -/
  panel : Panel
  /-- The glyph ROM (20_memory.md R40): offset and row pattern; an offset that is not listed holds the parameter
  `Config.glyph` (log 11). -/
  glyphRom : Memory
  /-- Inputs not yet taken, next first (log 2). -/
  inbox : List Input
  /-- The environment's answers to line configuration that are waiting, next first (44_init.md R151; log 12). -/
  cfgAnswers : List Bool
  /-- How many line configurations have been answered (the model's own counter, log 12). -/
  cfgAsked : Nat
  /-- How many places where a yield may fall have gone by (the model's own counter, log 17). -/
  yieldPoints : Nat
  deriving DecidableEq, Repr

/-- The reset value of a line: not configured, no level (10_state.md R26). -/
def LineState.reset : LineState := { cfg := false, lvl := none }

/-- The machine after reset (10_state.md R26, 70_reset_and_hazards.md R215), the panel at power-on. -/
def State.reset : State :=
  { params := Params.default
    lines := { sck := LineState.reset, sda := LineState.reset, dc := LineState.reset, rst := LineState.reset,
               bl := LineState.reset }
    regs := Regs.noValue
    seq := []
    ready := false
    status := none
    pinLog := []
    wire := { acc := 0, n := 0 }
    frameLog := []
    panel := Panel.powerOn
    glyphRom := []
    inbox := []
    cfgAnswers := []
    cfgAsked := 0
    yieldPoints := 0 }

end Sys2Proof.Machine
end

