-- ==== Sys2Proof/Machine/Operands.lean ====
section
/-! DEFINITION. Machine/Operands.lean: the operand checks and the values computed from operands. -/

namespace Sys2Proof.Machine

/-- `valid_rect(x, y, w, h)`, exact over the naturals (42_window_fill.md R123, R130). -/
def validRect (x y w h : Word) : Bool :=
  decide (1 ≤ w.toNat ∧ 1 ≤ h.toNat ∧ x.toNat + w.toNat ≤ Config.panelW ∧ y.toNat + h.toNat ≤ Config.panelH)

/-- The test of `draw_pixel`: `x < 240 and y < 240` (42_window_fill.md R126). -/
def onPanel (x y : Word) : Bool :=
  decide (x.toNat < Config.panelW ∧ y.toNat < Config.panelH)

/-- A character code is printable when `32 <= ch <= 126` (43_text.md R135). -/
def printable (ch : Byte) : Bool :=
  decide (Config.chMin ≤ ch.toNat ∧ ch.toNat ≤ Config.chMax)

/-- The number of color words of a rectangle, `W * H` (42_window_fill.md R122, R130). -/
def pixelCount (w h : Word) : Nat := w.toNat * h.toNat

/-- `zext_32` (43_text.md R141). -/
def zext32 (v : Word) : BitVec 32 := v.setWidth 32

/-- `trunc_16` of the text cursor (43_text.md R141). -/
def trunc16 (v : BitVec 32) : Word := v.setWidth 16

/-- The glyph box at a cursor coordinate does not fit: `C + 8 > 240`, exact (43_text.md R141, R147). -/
def pastEdge (c : BitVec 32) : Bool :=
  decide (Config.panelW < c.toNat + Config.glyphSize)

/-- The cursor after an other character: advance by 9, then the wrap check (43_text.md R141, R143, R144). -/
def advanceCursor (x0 : Word) (cx cy : BitVec 32) : BitVec 32 × BitVec 32 :=
  let cx' := cx + BitVec.ofNat 32 Config.charAdvance
  if pastEdge cx' then (zext32 x0, cy + BitVec.ofNat 32 Config.lineAdvance) else (cx', cy)

/-- The color of one glyph pixel: FG where bit COL of the row pattern is 1, BG where it is 0 (30_encoding.md R80,
20_memory.md R42). -/
def pixelColor (grow : Byte) (col : Nat) (fg bg : Word) : Word :=
  if grow.getLsbD col then fg else bg

/-- The flat offset of a glyph row (20_memory.md R41). -/
def glyphOffset (ch : Byte) (row : Nat) : Nat := (ch.toNat - Config.chMin) * Config.glyphSize + row

/-- The address of an element of FB: two bytes an element, row by row (log 14). -/
def fbAddr (px py : Nat) : Nat := 2 * (Config.panelW * py + px)

/-- The number of bytes of FB. -/
def fbBytes : Nat := 2 * (Config.panelW * Config.panelH)

end Sys2Proof.Machine
end

