-- ==== Sys2Proof/Machine/Panel.lean ====
section
/-! DEFINITION. Machine/Panel.lean: memory by bytes, the frame memory FB, and the panel receiver
(45_wire_commands.md). -/

namespace Sys2Proof.Machine

/-! ### Memory -/

/-- Every address of the list is above `a`, and the list is strictly rising. -/
def Memory.above (a : Nat) : Memory → Bool
  | [] => true
  | (b, _) :: m => decide (a < b) && Memory.above b m

/-- The canonical form of a memory of `size` bytes: addresses strictly rising, each inside the memory. An address that
is not listed holds no value, so no entry can equal what an unlisted address reads as. -/
def Memory.wf (size : Nat) : Memory → Bool
  | [] => true
  | (a, v) :: m => Memory.above a m && ((a, v) :: m).all fun c => decide (c.1 < size)

/-- Read one byte; `none` is "no value". -/
def Memory.read (a : Nat) : Memory → Option Byte
  | [] => none
  | (b, v) :: m => if a = b then some v else Memory.read a m

/-- Write one byte, keeping the addresses strictly rising. -/
def Memory.write (a : Nat) (v : Byte) : Memory → Memory
  | [] => [(a, v)]
  | (b, u) :: m =>
    if a < b then (a, v) :: (b, u) :: m
    else if a = b then (a, v) :: m
    else (b, u) :: Memory.write a v m

/-- `FB[px][py]`, `none` being "no value" (20_memory.md R44). -/
def fbRead (px py : Nat) (fb : Memory) : Option Word :=
  match Memory.read (fbAddr px py) fb, Memory.read (fbAddr px py + 1) fb with
  | some hi, some lo => some (joinBytes hi lo)
  | _, _ => none

/-- `FB[px][py] <- c` (45_wire_commands.md R180). -/
def fbWrite (px py : Nat) (c : Word) (fb : Memory) : Memory :=
  Memory.write (fbAddr px py + 1) (loByte c) (Memory.write (fbAddr px py) (hiByte c) fb)

/-! ### The receiver -/

/-- The receiver after a fault or a refusal: no register and no element of FB has a value (45_wire_commands.md R181;
log 8). -/
def Panel.halted (r : Stop) : Panel := { Panel.powerOn with stop := some r }

/-- SWRESET: the registers lose their values, FB stays; a wait of 150 is owed (R172, R186). -/
def Panel.swreset (p : Panel) : Panel :=
  { p with sleep := none, colmod := none, madctl := none, inv := none, norm := none, disp := none, xs := none,
           xe := none, ys := none, ye := none, px := none, py := none, mode := some .idle, owed := Config.tSwreset }

/-- SLPOUT: awake; a wait of 255 is owed (R173, R186). -/
def Panel.slpout (p : Panel) : Panel :=
  { p with sleep := some .awake, mode := some .idle, owed := Config.tSlpout }

/-- NORON (R174). -/
def Panel.noron (p : Panel) : Panel := { p with norm := some .on, mode := some .idle }

/-- INVON (R175). -/
def Panel.invon (p : Panel) : Panel := { p with inv := some .on, mode := some .idle }

/-- DISPON (R176). -/
def Panel.dispon (p : Panel) : Panel := { p with disp := some .on, mode := some .idle }

/-- CASET (R177). -/
def Panel.caset (xs xe : Word) (p : Panel) : Panel := { p with xs := some xs, xe := some xe, mode := some .idle }

/-- RASET (R178). -/
def Panel.raset (ys ye : Word) (p : Panel) : Panel := { p with ys := some ys, ye := some ye, mode := some .idle }

/-- RAMWR: the cursor goes to the window's origin (R179). -/
def Panel.ramwr (p : Panel) : Panel := { p with px := p.xs, py := p.ys, mode := some (.pixel none) }

/-- MADCTL: the operand is recorded (R182). -/
def Panel.madctlSet (m : Byte) (p : Panel) : Panel := { p with madctl := some m, mode := some .idle }

/-- COLMOD: the operand is recorded (R183). -/
def Panel.colmodSet (m : Byte) (p : Panel) : Panel := { p with colmod := some m, mode := some .idle }

/-- The rule of a command that takes no operand, performed on its command frame; a command with operands waits for
them (R171). -/
def Panel.begin (op : WireOp) (p : Panel) : Panel :=
  match op with
  | .swreset => p.swreset
  | .slpout => p.slpout
  | .noron => p.noron
  | .invon => p.invon
  | .dispon => p.dispon
  | .ramwr => p.ramwr
  | .caset => { p with mode := some (.operands .caset []) }
  | .raset => { p with mode := some (.operands .raset []) }
  | .madctl => { p with mode := some (.operands .madctl []) }
  | .colmod => { p with mode := some (.operands .colmod []) }

/-- The rule of a command whose operands are complete (R171). -/
def Panel.complete (op : WireOp) (operands : List Byte) (p : Panel) : Panel :=
  match op, operands with
  | .caset, [b1, b2, b3, b4] => p.caset (joinBytes b1 b2) (joinBytes b3 b4)
  | .raset, [b1, b2, b3, b4] => p.raset (joinBytes b1 b2) (joinBytes b3 b4)
  | .madctl, [m] => p.madctlSet m
  | .colmod, [m] => p.colmodSet m
  | _, _ => Panel.halted (.fault .panelStrayData)

/-- A command frame `C:o` in mode `m` (R171). -/
def Panel.command (m : RxMode) (o : Byte) (p : Panel) : Panel :=
  match m with
  | .operands _ _ => Panel.halted (.fault .panelTruncatedCommand)
  | .pixel (some _) => Panel.halted (.fault .panelTornWord)
  | _ =>
    match wireOpOf o with
    | some op => p.begin op
    | none => Panel.halted (.refused (.unknownOpcode o))

/-- `window_ok` (R181). -/
def Panel.windowOk (p : Panel) : Bool :=
  match p.xs, p.xe, p.ys, p.ye with
  | some xs, some xe, some ys, some ye =>
    decide (xs.toNat ≤ xe.toNat ∧ xe.toNat < Config.panelW ∧ ys.toNat ≤ ye.toNat ∧ ye.toNat < Config.panelH)
  | _, _, _, _ => false

/-- The write of one color word at the cursor and the cursor's walk, columns first (R180). A cursor outside the array
or without value is reached in no run (log 20). -/
def Panel.writePixel (c : Word) (p : Panel) : Panel :=
  match p.px, p.py, p.xs, p.xe, p.ye with
  | some px, some py, some xs, some xe, some ye =>
    if px.toNat < Config.panelW ∧ py.toNat < Config.panelH then
      let fb := fbWrite px.toNat py.toNat c p.fb
      if px.toNat < xe.toNat then { p with fb := fb, px := some (px + 1), mode := some (.pixel none) }
      else if py.toNat < ye.toNat then
        { p with fb := fb, px := some xs, py := some (py + 1), mode := some (.pixel none) }
      else { p with fb := fb, mode := some .exhausted }
    else Panel.halted (.fault .panelWindow)
  | _, _, _, _, _ => Panel.halted (.fault .noValue)

/-- The panel's format is the one pixel data have a meaning in: COLMOD 0x55, MADCTL 0x00 (R180, R187). -/
def Panel.formatOk (p : Panel) : Bool :=
  decide (p.colmod = some 0x55 ∧ p.madctl = some 0x00)

/-- Pixel data, a data frame `D:v` while `P.MODE = Pixel(hi)` (R180). -/
def Panel.pixelData (hi : Option Byte) (v : Byte) (p : Panel) : Panel :=
  if p.formatOk then
    match hi with
    | none => { p with mode := some (.pixel (some v)) }
    | some b => if p.windowOk then p.writePixel (joinBytes b v) else Panel.halted (.fault .panelWindow)
  else Panel.halted (.refused .panelNotInitialised)

/-- A data frame `D:v` in mode `m` (R171, R180, R185). -/
def Panel.data (m : RxMode) (v : Byte) (p : Panel) : Panel :=
  match m with
  | .operands op got =>
    if (got ++ [v]).length = nops op then p.complete op (got ++ [v])
    else { p with mode := some (.operands op (got ++ [v])) }
  | .pixel hi => p.pixelData hi v
  | .exhausted => Panel.halted (.fault .panelOverrun)
  | .idle => Panel.halted (.fault .panelStrayData)

/-- A frame: refused before the first HwReset (R170), a timing fault in reset or before the owed wait is over (R184,
R186), else by its kind (R171). DESIGN CHOICE: a frame that both comes too early and would stop the receiver by R171 is a
timing fault; the spec gives no order of the two (log 25). -/
def Panel.frame (f : Frame) (p : Panel) : Panel :=
  match p.mode with
  | none => Panel.halted (.refused .panelNotInitialised)
  | some m =>
    if p.held ∨ 0 < p.owed then Panel.halted (.fault .panelTiming)
    else
      match f.kind with
      | .command => p.command m f.byte
      | .data => p.data m f.byte

/-- HwReset: `P.MODE <- Idle`, no register and no element of FB holds a value; a hold of 10 is owed before HwRelease
(R184, R186). DESIGN CHOICE: a HwReset that comes while a wait is still owed is taken without a fault, as R186 names
HwRelease and frames only where 93_implementation_defined.md U3 says "a frame or marker"; what is still owed before the
next frame stays owed (log 26). -/
def Panel.resetPulse (p : Panel) : Panel :=
  { Panel.powerOn with mode := some .idle, held := true, holdOwed := Config.tRstHold, owed := p.owed }

/-- HwRelease: the hold must be over, and at least a boot wait of 120 is owed before the next frame (R186). DESIGN
CHOICE: of the waits owed HwRelease is held to the hold alone (log 26). -/
def Panel.release (p : Panel) : Panel :=
  if 0 < p.holdOwed then Panel.halted (.fault .panelTiming)
  else { p with held := false, owed := max p.owed Config.tRstBoot }

/-- One element of the frame trace at a receiver that has not stopped (R170). -/
def Panel.receive (e : Elem) (p : Panel) : Panel :=
  match e with
  | .frame f => p.frame f
  | .hwReset => p.resetPulse
  | .hwRelease => p.release
  | .wait n => { p with holdOwed := p.holdOwed - n, owed := p.owed - n }
  | .noLevel => Panel.halted (.fault .noValue)

/-- One element of the frame trace: a receiver that has stopped takes nothing more (U1 "and stops"; log 8). -/
def Panel.take (e : Elem) (p : Panel) : Panel :=
  match p.stop with
  | some _ => p
  | none => p.receive e

/-- Elements in order (R170). -/
def Panel.takeAll (es : List Elem) (p : Panel) : Panel := es.foldl (fun q e => q.take e) p

end Sys2Proof.Machine
end

