-- ==== Sys2Proof/Machine/Ops.lean ====
section
/-! DEFINITION. Machine/Ops.lean: the shared operations of the block: the line primitives with what the wire makes of
them, the sequencer, the glyph ROM, the places where a yield may fall, and what stands at the receiver's port.

The block takes no exception and returns from none (60_exceptions.md R190, R199, R200), so no such operation exists. -/

namespace Sys2Proof.Machine

/-! ### Lines and the wire -/

/-- The state of a line, by role. -/
def Lines.get (l : Lines) : Line → LineState
  | .sck => l.sck
  | .sda => l.sda
  | .dc => l.dc
  | .rst => l.rst
  | .bl => l.bl

/-- `LVL[L] <- v` (00_scope.md R7). -/
def Lines.drive (L : Line) (v : Level) (l : Lines) : Lines :=
  match L with
  | .sck => { l with sck := { l.sck with lvl := some v } }
  | .sda => { l with sda := { l.sda with lvl := some v } }
  | .dc => { l with dc := { l.dc with lvl := some v } }
  | .rst => { l with rst := { l.rst with lvl := some v } }
  | .bl => { l with bl := { l.bl with lvl := some v } }

/-- `CFG[L] <- 1` (00_scope.md R7). -/
def Lines.configure (L : Line) (l : Lines) : Lines :=
  match L with
  | .sck => { l with sck := { l.sck with cfg := true } }
  | .sda => { l with sda := { l.sda with cfg := true } }
  | .dc => { l with dc := { l.dc with cfg := true } }
  | .rst => { l with rst := { l.rst with cfg := true } }
  | .bl => { l with bl := { l.bl with cfg := true } }

/-- The kind of a frame, from the level of DC (30_encoding.md R73). -/
def kindOf (p : Params) (dc : Option Level) : FrameKind :=
  if dc = some p.lvlCmd then .command else .data

/-- `(ACC << 1 | bit)[7:0]` (30_encoding.md R73). -/
def shiftIn (acc : Byte) (b : Level) : Byte := (acc <<< 1) ||| (if b then 1 else 0)

/-- `ACC` and `N` after one more bit (30_encoding.md R73). -/
def wireShift (b : Level) (w : Wire) : Wire :=
  { acc := shiftIn w.acc b, n := if w.n + 1 = 8 then 0 else w.n + 1 }

/-- What `Set(L, v)` gives the frame trace, the lines being as before it (30_encoding.md R73). -/
def sensed (p : Params) (l : Lines) (w : Wire) (L : Line) (v : Level) : List Elem :=
  match L with
  | .sck =>
    if v = true ∧ l.sck.lvl = some false then
      match l.sda.lvl with
      | none => [.noLevel]
      | some b => if w.n + 1 = 8 then [.frame ⟨kindOf p l.dc.lvl, shiftIn w.acc b⟩] else []
    else []
  | .rst =>
    if v = p.lvlRstActive then (if l.rst.lvl = some p.lvlRstActive then [] else [.hwReset])
    else (if l.rst.lvl = some p.lvlRstActive then [.hwRelease] else [])
  | .sda => []
  | .dc => []
  | .bl => []

/-- What `Set(L, v)` makes of `ACC` and `N`, the lines being as before it (30_encoding.md R73). -/
def sensedWire (p : Params) (l : Lines) (w : Wire) (L : Line) (v : Level) : Wire :=
  match L with
  | .sck =>
    if v = true ∧ l.sck.lvl = some false then
      match l.sda.lvl with
      | none => w
      | some b => wireShift b w
    else w
  | .rst => if v = p.lvlRstActive ∧ l.rst.lvl ≠ some p.lvlRstActive then { w with n := 0 } else w
  | .sda => w
  | .dc => w
  | .bl => w

/-- `line(L) <- v`: drive the line, append `Set(L, v)`, whatever the old level (10_state.md R12); the wire and the
panel take what it means to them. -/
def State.line (L : Line) (v : Level) (s : State) : State :=
  { s with
    lines := s.lines.drive L v
    pinLog := .set L v :: s.pinLog
    wire := sensedWire s.params s.lines s.wire L v
    frameLog := sensed s.params s.lines s.wire L v ++ s.frameLog
    panel := s.panel.takeAll (sensed s.params s.lines s.wire L v) }

/-- `configure(L)` (00_scope.md R7, 10_state.md R13). -/
def State.configure (L : Line) (s : State) : State :=
  { s with lines := s.lines.configure L, pinLog := .cfg L :: s.pinLog }

/-- The events of `settle()`: one `Settle` under the conservative policy, none under the fast one (40_transport.md
R101). -/
def settleEvents : TimingPolicy → List Event
  | .fast => []
  | .conservative => [.settle]

/-- `settle()` (40_transport.md R101). -/
def State.settle (s : State) : State := { s with pinLog := settleEvents s.params.policy ++ s.pinLog }

/-- `delay(n)` (44_init.md R153): the event `Wait(n)`, which the frame trace passes through (30_encoding.md R73). -/
def State.delay (n : Nat) (s : State) : State :=
  { s with pinLog := .wait n :: s.pinLog, frameLog := .wait n :: s.frameLog, panel := s.panel.take (.wait n) }

/-- The events at a place where a yield may fall (42_window_fill.md R129; log 17). -/
def yieldEvents (p : Params) (k : Nat) : List Event := if p.yieldAt.contains k then [.yield] else []

/-- A place where a yield may fall (42_window_fill.md R129, 60_exceptions.md R205). -/
def State.yieldPoint (s : State) : State :=
  { s with pinLog := yieldEvents s.params s.yieldPoints ++ s.pinLog, yieldPoints := s.yieldPoints + 1 }

/-- The pin trace in time order (10_state.md R12). -/
def State.pinTrace (s : State) : List Event := s.pinLog.reverse

/-- The frame trace in time order (30_encoding.md R73). -/
def State.frameTrace (s : State) : List Elem := s.frameLog.reverse

/-! ### Registers and the sequencer -/

/-- Write working registers. -/
def State.setRegs (f : Regs → Regs) (s : State) : State := { s with regs := f s.regs }

/-- `PHASE <- k` of the operation in progress (10_state.md R20). -/
def atPhase (k : Nat) : List Position → List Position
  | [] => []
  | q :: rest => { q with phase := k } :: rest

/-- An operation issued from outside the block: at its return the block is idle, and no working register holds a value
(10_state.md R19; log 5). -/
def State.issue (run : State → State) (s : State) : State := (run s).setRegs fun _ => Regs.noValue

/-- Write `SEQ`. -/
def State.setSeq (q : List Position) (s : State) : State := { s with seq := q }

/-- The statements of a body in order, PHASE being the number of each (10_state.md R20). -/
def runStatements (k : Nat) (body : List (State → State)) (s : State) : State :=
  match body with
  | [] => s
  | f :: rest => runStatements (k + 1) rest (f (s.setSeq (atPhase k s.seq)))

/-- `call op(args)` with the body of `op`: SEQ enters the operation, runs its statements, and comes back to where it
was (10_state.md R20, R27). -/
def State.operation (op : OpName) (body : List (State → State)) (s : State) : State :=
  (runStatements 0 body (s.setSeq (⟨op, 0⟩ :: s.seq))).setSeq s.seq

/-! ### The glyph ROM and the text operand -/

/-- `GlyphRead(ch, row)` (20_memory.md R41); an offset the ROM image does not list holds the parameter GLYPH
(log 11). -/
def State.glyphRead (ch : Byte) (row : Nat) (s : State) : Byte :=
  (Memory.read (glyphOffset ch row) s.glyphRom).getD (Config.glyph ch.toNat row)

/-- `TextRead(i)`, for `i < TLEN` (20_memory.md R43). -/
def textRead (text : List Byte) (i : Nat) : Option Byte := text[i]?

/-! ### The receiver's port -/

/-- Elements of the frame trace at the receiver, the block taking no part (log 7): the next state if the receiver does
not stop, and its fault or refusal if it does or has (log 9). -/
def State.atReceiver (es : List Elem) (s : State) : Host.Outcome State Fault Refusal :=
  let p := s.panel.takeAll es
  match p.stop with
  | none => .next { s with panel := p }
  | some (.fault f) => .fault f
  | some (.refused r) => .refused r

/-- The frames of a wire command at the receiver. -/
def State.wireCommand (op : WireOp) (operands : List Byte) (s : State) : Host.Outcome State Fault Refusal :=
  s.atReceiver ((commandFrames op operands).map Elem.frame)

end Sys2Proof.Machine
end

