-- ==== Sys2Proof/Machine/Flags.lean ====
section
/-! DEFINITION. Machine/Flags.lean: the two status fields READY and STATUS, the environment's answer cfg_ok, and the
admission of host requests. The block has no condition codes (10_state.md R21). -/

namespace Sys2Proof.Machine

/-- The code of STATUS: OK = 0, CONFIG_FAIL = 1 (30_encoding.md R86). -/
def statusCode : Status → Byte
  | .ok => 0
  | .configFail => 1

/-- `READY <- b` (10_state.md R21). -/
def State.setReady (b : Bool) (s : State) : State := { s with ready := b }

/-- `STATUS <- v` (10_state.md R21). -/
def State.setStatus (v : Status) (s : State) : State := { s with status := some v }

/-- `cfg_ok`, the environment's answer: the one that waits, else the free value (44_init.md R151; log 12). -/
def State.cfgOk (s : State) : Bool :=
  match s.cfgAnswers with
  | b :: _ => b
  | [] => Config.cfgOk s.cfgAsked

/-- The answer has been read: once per `init` (44_init.md R151). -/
def State.cfgRead (s : State) : State := { s with cfgAnswers := s.cfgAnswers.tail, cfgAsked := s.cfgAsked + 1 }

/-- The block is idle and READY is as the request needs it: 0 for `init`, 1 for a drawing request (60_exceptions.md
R196). -/
def State.admits (readyWanted : Bool) (s : State) : Bool := s.seq.isEmpty && (s.ready == readyWanted)

/-- A host request: admitted, it is issued and runs to its return; else it is refused (60_exceptions.md R196). -/
def State.hostRequest (readyWanted : Bool) (run : State → State) (s : State) : Host.Outcome State Fault Refusal :=
  if s.admits readyWanted then .next (s.issue run) else .refused .notAdmitted

end Sys2Proof.Machine
end

