-- ==== Sys2Proof/Machine/Transport.lean ====
section
/-! DEFINITION. Machine/Transport.lean: the bit-serial transport (40_transport.md): send_byte, send_word. -/

namespace Sys2Proof.Machine

/-- One bit cell (30_encoding.md R70): data, clock low, clock high, with a settling place after each clock write. -/
def State.bitCell (b : Level) (s : State) : State :=
  ((((s.line .sda b).line .sck false).settle).line .sck true).settle

/-- The bits `v[i-1] .. v[0]` of SR in this order, BC counting what is left (40_transport.md R100). -/
def State.sendBits (v : Byte) : Nat → State → State
  | 0, s => s
  | i + 1, s => State.sendBits v i ((s.bitCell (v.getLsbD i)).setRegs fun r => { r with bc := some (BitVec.ofNat 4 i) })

/-- `send_byte(value)` (40_transport.md R100). -/
def State.sendByte (v : Byte) (s : State) : State :=
  s.operation .sendByte [
    fun t => t.setRegs fun r => { r with sr := some v, bc := some 8 },
    fun t => t.sendBits v 8]

/-- `send_word(value)` (40_transport.md R102). -/
def State.sendWord (v : Word) (s : State) : State :=
  s.operation .sendWord [
    fun t => t.setRegs fun r => { r with wr := some v },
    fun t => t.sendByte (hiByte v),
    fun t => t.sendByte (loByte v)]

/-- The meaning of `send_byte`. -/
def execSendByte (v : Byte) (s : State) : Host.Outcome State Fault Refusal := .next (s.issue (State.sendByte v))

/-- The meaning of `send_word`. -/
def execSendWord (v : Word) (s : State) : Host.Outcome State Fault Refusal := .next (s.issue (State.sendWord v))

end Sys2Proof.Machine
end

