-- ==== Sys2Proof/Machine/Framing.lean ====
section
/-! DEFINITION. Machine/Framing.lean: the command/data framing (41_framing.md): send_command, send_data_byte,
send_data_word. -/

namespace Sys2Proof.Machine

/-- `send_command(opcode)` (41_framing.md R111). -/
def State.sendCommand (o : Byte) (s : State) : State :=
  s.operation .sendCommand [
    fun t => t.line .dc t.params.lvlCmd,
    fun t => t.sendByte o,
    fun t => t.line .dc t.params.lvlData]

/-- `send_data_byte(value)` (41_framing.md R112). -/
def State.sendDataByte (v : Byte) (s : State) : State :=
  s.operation .sendDataByte [
    fun t => t.line .dc t.params.lvlData,
    fun t => t.sendByte v]

/-- `send_data_word(value)` (41_framing.md R113). -/
def State.sendDataWord (v : Word) (s : State) : State :=
  s.operation .sendDataWord [
    fun t => t.line .dc t.params.lvlData,
    fun t => t.sendWord v]

/-- The meaning of `send_command`. -/
def execSendCommand (o : Byte) (s : State) : Host.Outcome State Fault Refusal :=
  .next (s.issue (State.sendCommand o))

/-- The meaning of `send_data_byte`. -/
def execSendDataByte (v : Byte) (s : State) : Host.Outcome State Fault Refusal :=
  .next (s.issue (State.sendDataByte v))

/-- The meaning of `send_data_word`. -/
def execSendDataWord (v : Word) (s : State) : Host.Outcome State Fault Refusal :=
  .next (s.issue (State.sendDataWord v))

end Sys2Proof.Machine
end

