-- ==== Sys2Proof/Machine/Window.lean ====
section
/-! DEFINITION. Machine/Window.lean: the addressing window and the raw fill (42_window_fill.md): set_window,
fill_rect, draw_pixel, clear. -/

namespace Sys2Proof.Machine

/-- `set_window(x, y, w, h)` (42_window_fill.md R120). -/
def State.setWindow (x y w h : Word) (s : State) : State :=
  s.operation .setWindow [
    fun t => t.setRegs fun r => { r with x := some x, y := some y, w := some w, h := some h },
    fun t => t.setRegs fun r => { r with xe := some (endCoord x w), ye := some (endCoord y h) },
    fun t => t.sendCommand (wireOpcode .caset),
    fun t => t.sendDataWord x,
    fun t => t.sendDataWord (endCoord x w),
    fun t => t.sendCommand (wireOpcode .raset),
    fun t => t.sendDataWord y,
    fun t => t.sendDataWord (endCoord y h),
    fun t => t.sendCommand (wireOpcode .ramwr)]

/-- The constant color stream: `n` words, PIXCNT counting what is left, a yield place between two words
(42_window_fill.md R122, R129). -/
def State.fillWords (c : Word) : Nat → State → State
  | 0, s => s
  | n + 1, s =>
    let t := (s.sendDataWord c).setRegs fun r => { r with pixcnt := some (BitVec.ofNat 16 n) }
    State.fillWords c n (if n = 0 then t else t.yieldPoint)

/-- `fill_rect(x, y, w, h, color)` (42_window_fill.md R122): a rectangle that fails the check sends nothing and writes
no register. -/
def State.fillRect (x y w h c : Word) (s : State) : State :=
  if validRect x y w h then
    s.operation .fillRect [
      fun t => t.setWindow x y w h,
      fun t => t.setRegs fun r => { r with color := some c },
      fun t => t.setRegs fun r => { r with pixcnt := some (BitVec.ofNat 16 (pixelCount w h)) },
      fun t => t.fillWords c (pixelCount w h)]
  else s

/-- `draw_pixel(x, y, color)` (42_window_fill.md R126). -/
def State.drawPixel (x y c : Word) (s : State) : State :=
  if onPanel x y then s.operation .drawPixel [fun t => t.fillRect x y 1 1 c] else s

/-- `clear(color)` (42_window_fill.md R128). -/
def State.clear (c : Word) (s : State) : State :=
  s.operation .clear [fun t => t.fillRect 0 0 240 240 c]

/-- The meaning of `set_window`. -/
def execSetWindow (x y w h : Word) (s : State) : Host.Outcome State Fault Refusal :=
  .next (s.issue (State.setWindow x y w h))

/-- The meaning of `fill_rect`. -/
def execFillRect (x y w h c : Word) (s : State) : Host.Outcome State Fault Refusal :=
  s.hostRequest true (State.fillRect x y w h c)

/-- The meaning of `draw_pixel`. -/
def execDrawPixel (x y c : Word) (s : State) : Host.Outcome State Fault Refusal :=
  s.hostRequest true (State.drawPixel x y c)

/-- The meaning of `clear`. -/
def execClear (c : Word) (s : State) : Host.Outcome State Fault Refusal :=
  s.hostRequest true (State.clear c)

end Sys2Proof.Machine
end

