-- ==== Sys2Proof/Machine/Text.lean ====
section
/-! DEFINITION. Machine/Text.lean: the glyph stream and the text layout (43_text.md): draw_char, draw_string. -/

namespace Sys2Proof.Machine

/-- One pixel of a glyph row: the color word that bit COL of GROW selects, and a yield place unless it is the last word
of the stream (43_text.md R136, 42_window_fill.md R129). -/
def State.drawColumn (grow : Byte) (row : Nat) (fg bg : Word) (s : State) (col : Nat) : State :=
  let t := (s.setRegs fun r => { r with col := some (BitVec.ofNat 3 col) }).sendDataWord (pixelColor grow col fg bg)
  if row = 7 ∧ col = 7 then t else t.yieldPoint

/-- One row of a glyph, leftmost column first (43_text.md R136). -/
def State.drawRow (ch : Byte) (fg bg : Word) (s : State) (row : Nat) : State :=
  let grow := s.glyphRead ch row
  [0, 1, 2, 3, 4, 5, 6, 7].foldl (State.drawColumn grow row fg bg)
    (s.setRegs fun r => { r with row := some (BitVec.ofNat 3 row), grow := some grow })

/-- The eight rows of a glyph, top row first (43_text.md R136). -/
def State.drawRows (ch : Byte) (fg bg : Word) (s : State) : State :=
  [0, 1, 2, 3, 4, 5, 6, 7].foldl (State.drawRow ch fg bg) s

/-- `draw_char(x, y, ch, fg, bg)` (43_text.md R136): a code that is not printable returns after the operands are
latched (R135). There is no bounds check (R137). -/
def State.drawChar (x y : Word) (ch : Byte) (fg bg : Word) (s : State) : State :=
  s.operation .drawChar ((fun t => t.setRegs fun r => { r with ch := some ch, fg := some fg, bg := some bg }) ::
    if printable ch then [fun t => t.setWindow x y 8 8, fun t => t.drawRows ch fg bg] else [])

/-- Write the text cursor (43_text.md R141). -/
def State.setCursor (c : BitVec 32 × BitVec 32) (s : State) : State :=
  s.setRegs fun r => { r with cx := some c.1, cy := some c.2 }

/-- After one character of the text: the cursor is written, and a yield may fall here if another character follows
(43_text.md R141, 42_window_fill.md R129; log 17). -/
def State.afterChar (rest : List Byte) (cur : BitVec 32 × BitVec 32) (s : State) : State :=
  if rest.isEmpty then s.setCursor cur else (s.setCursor cur).yieldPoint

/-- The loop of `draw_string` from byte `ti` on, the list being the bytes `TextRead(ti)`, `TextRead(ti+1)`, … that are
left and `(cx, cy)` the cursor (43_text.md R141). -/
def State.drawText (x0 fg bg : Word) : List Byte → Nat → BitVec 32 × BitVec 32 → State → State
  | [], _, _, s => s
  | c :: rest, ti, (cx, cy), s =>
    let s := s.setRegs fun r => { r with ti := some (BitVec.ofNat 16 (ti + 1)) }
    if c = 10 then
      let cur := (zext32 x0, cy + BitVec.ofNat 32 Config.lineAdvance)
      State.drawText x0 fg bg rest (ti + 1) cur (s.afterChar rest cur)
    else if c = 13 then
      let cur := (zext32 x0, cy)
      State.drawText x0 fg bg rest (ti + 1) cur (s.afterChar rest cur)
    else if pastEdge cy then s
    else
      let t := if pastEdge cx then s else s.drawChar (trunc16 cx) (trunc16 cy) c fg bg
      let cur := advanceCursor x0 cx cy
      State.drawText x0 fg bg rest (ti + 1) cur (t.afterChar rest cur)

/-- `draw_string(x, y, text, fg, bg)` (43_text.md R139, R141). -/
def State.drawString (x y : Word) (text : List Byte) (fg bg : Word) (s : State) : State :=
  s.operation .drawString [
    fun t => t.setRegs fun r => { r with x0 := some x },
    fun t => t.setCursor (zext32 x, zext32 y),
    fun t => t.setRegs fun r => { r with tlen := some (BitVec.ofNat 16 text.length), ti := some 0 },
    fun t => t.drawText x fg bg text 0 (zext32 x, zext32 y)]

/-- The meaning of `draw_char`. -/
def execDrawChar (x y : Word) (ch : Byte) (fg bg : Word) (s : State) : Host.Outcome State Fault Refusal :=
  s.hostRequest true (State.drawChar x y ch fg bg)

/-- The meaning of `draw_string`. -/
def execDrawString (x y : Word) (text : List Byte) (fg bg : Word) (s : State) : Host.Outcome State Fault Refusal :=
  s.hostRequest true (State.drawString x y text fg bg)

end Sys2Proof.Machine
end

