-- ==== Sys2Proof/Machine/Init.lean ====
section
/-! DEFINITION. Machine/Init.lean: the initialisation sequencer (44_init.md): init and the reset pulse. -/

namespace Sys2Proof.Machine

/-- `hw_reset_pulse()` (44_init.md R152). -/
def State.hwResetPulse (s : State) : State :=
  s.operation .hwResetPulse [
    fun t => t.line .rst t.params.lvlRstIdle,
    fun t => t.line .rst t.params.lvlRstActive,
    fun t => t.delay Config.tRstHold,
    fun t => t.line .rst t.params.lvlRstIdle,
    fun t => t.delay Config.tRstBoot]

/-- Step 1: configure the five lines, then the rest levels (44_init.md R151). -/
def State.configureLines (s : State) : State :=
  (((((((((s.configure .sck).configure .sda).configure .dc).configure .rst).configure .bl).line .sck true).line .sda
    false).line .dc s.params.lvlData).line .bl s.params.lvlBlOn)

/-- Steps 2 to 9: the reset pulse and the seven commands with their operands and waits (44_init.md R152, R156 to
R162). -/
def initSequence : List (State → State) := [
  fun t => t.hwResetPulse,
  fun t => (t.sendCommand (wireOpcode .swreset)).delay Config.tSwreset,
  fun t => (t.sendCommand (wireOpcode .slpout)).delay Config.tSlpout,
  fun t => ((t.sendCommand (wireOpcode .colmod)).sendDataByte 0x55).delay t.params.tShort,
  fun t => (t.sendCommand (wireOpcode .madctl)).sendDataByte 0x00,
  fun t => (t.sendCommand (wireOpcode .invon)).delay t.params.tShort,
  fun t => (t.sendCommand (wireOpcode .noron)).delay t.params.tShort,
  fun t => (t.sendCommand (wireOpcode .dispon)).delay t.params.tLong]

/-- Step 10: the optional clear (44_init.md R163). -/
def State.initClear (s : State) : State :=
  match s.params.initClear with
  | none => s
  | some c => s.fillRect 0 0 240 240 c

/-- `init()` (44_init.md R150): with `cfg_ok` the ten steps, without it the configuration failure (R151). -/
def State.initialise (s : State) : State :=
  s.operation .init ((fun t => t.cfgRead.setReady false) ::
    if s.cfgOk then
      (fun t => t.configureLines) :: (initSequence ++
        [fun t => t.initClear, fun t => t.setReady true, fun t => t.setStatus .ok])
    else [fun t => t.setStatus .configFail])

/-- The meaning of `init`. -/
def execInit (s : State) : Host.Outcome State Fault Refusal :=
  s.hostRequest false State.initialise

end Sys2Proof.Machine
end

