-- ==== Sys2Proof/Machine/WireCommands.lean ====
section
/-! DEFINITION. Machine/WireCommands.lean: the ten wire commands at the panel receiver (45_wire_commands.md R172 to
R183). The rule of each stands in Machine/Panel.lean; here its frames are received (log 7). -/

namespace Sys2Proof.Machine

/-- The meaning of SWRESET (R172). -/
def execSwreset (s : State) : Host.Outcome State Fault Refusal := s.wireCommand .swreset []

/-- The meaning of SLPOUT (R173). -/
def execSlpout (s : State) : Host.Outcome State Fault Refusal := s.wireCommand .slpout []

/-- The meaning of NORON (R174). -/
def execNoron (s : State) : Host.Outcome State Fault Refusal := s.wireCommand .noron []

/-- The meaning of INVON (R175). -/
def execInvon (s : State) : Host.Outcome State Fault Refusal := s.wireCommand .invon []

/-- The meaning of DISPON (R176). -/
def execDispon (s : State) : Host.Outcome State Fault Refusal := s.wireCommand .dispon []

/-- The meaning of CASET (R177). -/
def execCaset (xs xe : Word) (s : State) : Host.Outcome State Fault Refusal :=
  s.wireCommand .caset (wordBytes xs ++ wordBytes xe)

/-- The meaning of RASET (R178). -/
def execRaset (ys ye : Word) (s : State) : Host.Outcome State Fault Refusal :=
  s.wireCommand .raset (wordBytes ys ++ wordBytes ye)

/-- The meaning of RAMWR with the color words that follow it (R179, R180). -/
def execRamwr (stream : List Word) (s : State) : Host.Outcome State Fault Refusal :=
  s.wireCommand .ramwr (streamBytes stream)

/-- The meaning of MADCTL (R182). -/
def execMadctl (m : Byte) (s : State) : Host.Outcome State Fault Refusal := s.wireCommand .madctl [m]

/-- The meaning of COLMOD (R183). -/
def execColmod (m : Byte) (s : State) : Host.Outcome State Fault Refusal := s.wireCommand .colmod [m]

end Sys2Proof.Machine
end

