-- ==== Sys2Proof/Machine/Dispatch.lean ====
section
/-! DEFINITION. Machine/Dispatch.lean: one arm per instruction. -/

namespace Sys2Proof.Machine

def exec (i : Instr) (s : State) : Host.Outcome State Fault Refusal :=
  match i with
  | .init => Sys2Proof.Machine.execInit s
  | .clear c => Sys2Proof.Machine.execClear c s
  | .drawPixel x y c => Sys2Proof.Machine.execDrawPixel x y c s
  | .fillRect x y w h c => Sys2Proof.Machine.execFillRect x y w h c s
  | .drawChar x y ch fg bg => Sys2Proof.Machine.execDrawChar x y ch fg bg s
  | .drawString x y text fg bg => Sys2Proof.Machine.execDrawString x y text fg bg s
  | .sendByte v => Sys2Proof.Machine.execSendByte v s
  | .sendWord v => Sys2Proof.Machine.execSendWord v s
  | .sendCommand o => Sys2Proof.Machine.execSendCommand o s
  | .sendDataByte v => Sys2Proof.Machine.execSendDataByte v s
  | .sendDataWord v => Sys2Proof.Machine.execSendDataWord v s
  | .setWindow x y w h => Sys2Proof.Machine.execSetWindow x y w h s
  | .swreset => Sys2Proof.Machine.execSwreset s
  | .slpout => Sys2Proof.Machine.execSlpout s
  | .noron => Sys2Proof.Machine.execNoron s
  | .invon => Sys2Proof.Machine.execInvon s
  | .dispon => Sys2Proof.Machine.execDispon s
  | .caset xs xe => Sys2Proof.Machine.execCaset xs xe s
  | .raset ys ye => Sys2Proof.Machine.execRaset ys ye s
  | .ramwr stream => Sys2Proof.Machine.execRamwr stream s
  | .madctl m => Sys2Proof.Machine.execMadctl m s
  | .colmod m => Sys2Proof.Machine.execColmod m s

end Sys2Proof.Machine
end

