-- ==== Sys2Proof/Machine/Step.lean ====
section
/-! DEFINITION. Machine/Step.lean: one step of the machine, and how an instruction comes before it. -/

namespace Sys2Proof.Machine

/-- One step: the next input is taken. A packet that decodes is executed; one that does not is refused by name
(30_encoding.md R87). A bare element goes to the receiver. With no input the block does nothing (70_reset_and_hazards.md
R215; log 2). -/
def step (s : State) : Host.Outcome State Fault Refusal :=
  match s.inbox with
  | [] => .next s
  | .packet p :: rest =>
    match decode p with
    | .instr i => exec i { s with inbox := rest }
    | .rejected why => .refused (.undecodable why)
  | .element e :: rest => State.atReceiver [e] { s with inbox := rest }

/-- An instruction given as an opcode-table word, put before the next step (log 2, log 18). -/
def State.withFetchWord (s : State) (nbits w : Nat) : State :=
  { s with inbox := .packet (tableWordPacket nbits w) :: s.inbox }

end Sys2Proof.Machine
end

