-- ==== Sys2Proof/Safety.lean ====
section
/-! DEFINITION. Safety.lean: the terms claims are made in: the events and frames the spec writes for each operation,
rest states, what a safe run keeps, and the frame abstraction as the spec defines it, by one pass over a pin trace. -/

namespace Sys2Proof.Machine

/-! ### Events and frames, as the spec writes them -/

/-- The events of one bit cell (30_encoding.md R70). -/
def cellEvents : TimingPolicy → Level → List Event
  | .fast, b => [.set .sda b, .set .sck false, .set .sck true]
  | .conservative, b => [.set .sda b, .set .sck false, .settle, .set .sck true, .settle]

/-- The events of one byte, most significant bit first (30_encoding.md R71, 40_transport.md R100). -/
def byteEvents (p : TimingPolicy) (v : Byte) : List Event :=
  [7, 6, 5, 4, 3, 2, 1, 0].flatMap fun i => cellEvents p (v.getLsbD i)

/-- The events of one word, high byte first (40_transport.md R102). -/
def wordEvents (p : TimingPolicy) (v : Word) : List Event := byteEvents p (hiByte v) ++ byteEvents p (loByte v)

/-- The events of `send_command` (41_framing.md R111). -/
def commandEvents (p : Params) (o : Byte) : List Event :=
  [.set .dc p.lvlCmd] ++ byteEvents p.policy o ++ [.set .dc p.lvlData]

/-- The events of `send_data_byte` (41_framing.md R112). -/
def dataByteEvents (p : Params) (v : Byte) : List Event := .set .dc p.lvlData :: byteEvents p.policy v

/-- The events of `send_data_word` (41_framing.md R113). -/
def dataWordEvents (p : Params) (v : Word) : List Event := .set .dc p.lvlData :: wordEvents p.policy v

/-- The events of `set_window` (42_window_fill.md R120). -/
def windowEvents (p : Params) (x y w h : Word) : List Event :=
  commandEvents p 0x2A ++ dataWordEvents p x ++ dataWordEvents p (endCoord x w) ++
  commandEvents p 0x2B ++ dataWordEvents p y ++ dataWordEvents p (endCoord y h) ++ commandEvents p 0x2C

/-- The events of a stream of color words, a yield being allowed between two words and nowhere else; `k` numbers the
first such place (42_window_fill.md R129; log 17). -/
def streamEvents (p : Params) : Nat → List Word → List Event
  | _, [] => []
  | _, [c] => dataWordEvents p c
  | k, c :: d :: cs => dataWordEvents p c ++ yieldEvents p k ++ streamEvents p (k + 1) (d :: cs)

/-- An event that sets a line. -/
def Event.isSet : Event → Bool
  | .set _ _ => true
  | _ => false

/-- A command frame of the frame trace. -/
def Elem.isCommand : Elem → Bool
  | .frame ⟨.command, _⟩ => true
  | _ => false

/-- Frames as elements of the frame trace. -/
def elems (fs : List Frame) : List Elem := fs.map Elem.frame

/-- The frames of a stream of color words (30_encoding.md R72, R79). -/
def streamFrames (ws : List Word) : List Frame := ws.flatMap wordFrames

/-- The frame trace of a valid `fill_rect` (42_window_fill.md R124). -/
def fillElems (x y w h c : Word) : List Elem :=
  elems (windowFrames x y w h ++ streamFrames (List.replicate (w.toNat * h.toNat) c))

/-- The 64 color words of a glyph, rows outermost from the top, leftmost column first (43_text.md R136). -/
def glyphWords (glyph : Nat → Byte) (fg bg : Word) : List Word :=
  [0, 1, 2, 3, 4, 5, 6, 7].flatMap fun r =>
    [0, 1, 2, 3, 4, 5, 6, 7].map fun c => if (glyph r).getLsbD c then fg else bg

/-- The frame trace of `draw_char` of a printable character (43_text.md R136). -/
def charElems (glyph : Nat → Byte) (x y fg bg : Word) : List Elem :=
  elems (windowFrames x y 8 8 ++ streamFrames (glyphWords glyph fg bg))

/-- A cell `draw_string` paints: where, and which character. -/
structure TextCell where
  x : Nat
  y : Nat
  ch : Byte
  deriving DecidableEq, Repr

/-- The cells `draw_string` paints, the cursor being a pair of unbounded naturals (43_text.md R141 to R147: "a model may
use unbounded naturals with the same result"). -/
def textCells (x0 : Nat) : List Byte → Nat → Nat → List TextCell
  | [], _, _ => []
  | c :: rest, cx, cy =>
    if c = 10 then textCells x0 rest x0 (cy + 10)
    else if c = 13 then textCells x0 rest x0 cy
    else if 240 < cy + 8 then []
    else
      (if cx + 8 ≤ 240 ∧ 32 ≤ c.toNat ∧ c.toNat ≤ 126 then [⟨cx, cy, c⟩] else []) ++
      (if 240 < cx + 9 + 8 then textCells x0 rest x0 (cy + 10) else textCells x0 rest (cx + 9) cy)

/-- The cell covers the pixel. -/
def TextCell.covers (k : TextCell) (px py : Nat) : Prop :=
  k.x ≤ px ∧ px < k.x + 8 ∧ k.y ≤ py ∧ py < k.y + 8

/-- The frame trace of the cells of a text (43_text.md R149). -/
def textElems (s : State) (fg bg : Word) (cells : List TextCell) : List Elem :=
  cells.flatMap fun k => charElems (s.glyphRead k.ch) (BitVec.ofNat 16 k.x) (BitVec.ofNat 16 k.y) fg bg

/-- The events at the place between two characters of a text; no place follows the last one (42_window_fill.md R129;
log 17). -/
def gapEvents (p : Params) (k : Nat) (rest : List Byte) : List Event :=
  if rest.isEmpty then [] else yieldEvents p k

/-- The events of `draw_char` of a printable character (43_text.md R136); 63 places where a yield may fall lie between its
64 words. -/
def charEvents (p : Params) (k : Nat) (glyph : Nat → Byte) (x y fg bg : Word) : List Event :=
  windowEvents p x y 8 8 ++ streamEvents p k (glyphWords glyph fg bg)

/-- The events of `draw_string`, the cursor being a pair of unbounded naturals; `k` numbers the next place where a yield
may fall (43_text.md R141 to R147; log 17). -/
def textEvents (s : State) (fg bg : Word) (x0 : Nat) : List Byte → Nat → Nat → Nat → List Event
  | [], _, _, _ => []
  | c :: rest, k, cx, cy =>
    if c = 10 then gapEvents s.params k rest ++ textEvents s fg bg x0 rest (k + 1) x0 (cy + 10)
    else if c = 13 then gapEvents s.params k rest ++ textEvents s fg bg x0 rest (k + 1) x0 cy
    else if 240 < cy + 8 then []
    else
      let drawn := decide (cx + 8 ≤ 240 ∧ 32 ≤ c.toNat ∧ c.toNat ≤ 126)
      let next := if drawn then k + 63 else k
      (if drawn then charEvents s.params k (s.glyphRead c) (BitVec.ofNat 16 cx) (BitVec.ofNat 16 cy) fg bg else []) ++
        gapEvents s.params next rest ++
        (if 240 < cx + 9 + 8 then textEvents s fg bg x0 rest (next + 1) x0 (cy + 10)
          else textEvents s fg bg x0 rest (next + 1) (cx + 9) cy)

/-- The frame trace of a successful `init` before step 10 (44_init.md R165). -/
def initElems (p : Params) : List Elem :=
  [.hwReset, .wait 10, .hwRelease, .wait 120,
   .frame (cmdFrame 0x01), .wait 150, .frame (cmdFrame 0x11), .wait 255,
   .frame (cmdFrame 0x3A), .frame (dataFrame 0x55), .wait p.tShort, .frame (cmdFrame 0x36), .frame (dataFrame 0x00),
   .frame (cmdFrame 0x21), .wait p.tShort, .frame (cmdFrame 0x13), .wait p.tShort, .frame (cmdFrame 0x29),
   .wait p.tLong]

/-- The events of a successful `init` before step 10 (44_init.md R151, R152, R156 to R162). -/
def initEvents (p : Params) : List Event :=
  [.cfg .sck, .cfg .sda, .cfg .dc, .cfg .rst, .cfg .bl,
   .set .sck true, .set .sda false, .set .dc p.lvlData, .set .bl p.lvlBlOn,
   .set .rst p.lvlRstIdle, .set .rst p.lvlRstActive, .wait 10, .set .rst p.lvlRstIdle, .wait 120] ++
  commandEvents p 0x01 ++ [.wait 150] ++ commandEvents p 0x11 ++ [.wait 255] ++
  commandEvents p 0x3A ++ dataByteEvents p 0x55 ++ [.wait p.tShort] ++ commandEvents p 0x36 ++ dataByteEvents p 0x00 ++
  commandEvents p 0x21 ++ [.wait p.tShort] ++ commandEvents p 0x13 ++ [.wait p.tShort] ++
  commandEvents p 0x29 ++ [.wait p.tLong]

/-- The events of step 10 (44_init.md R163); `k` numbers the first place where a yield may fall. -/
def initClearEvents (p : Params) (k : Nat) : List Event :=
  match p.initClear with
  | none => []
  | some c => windowEvents p 0 0 240 240 ++ streamEvents p k (List.replicate (240 * 240) c)

/-- The frame trace of step 10 (44_init.md R163). -/
def initClearElems (p : Params) : List Elem :=
  match p.initClear with
  | none => []
  | some c => fillElems 0 0 240 240 c

/-! ### Rest states -/

/-- A drawing request is admitted: the block is idle and READY is 1 (60_exceptions.md R196). -/
def State.Drawable (s : State) : Prop := s.seq = [] ∧ s.ready = true

/-- `init` is admitted: the block is idle and READY is 0 (60_exceptions.md R196). -/
def State.Startable (s : State) : Prop := s.seq = [] ∧ s.ready = false

/-- The address is neither byte of the element `FB[px][py]`. -/
def outsideElement (a px py : Nat) : Prop := a ≠ fbAddr px py ∧ a ≠ fbAddr px py + 1

/-- The clock rests high and DC in data mode (10_state.md R11). -/
def State.LinesRest (s : State) : Prop :=
  s.lines.sck.lvl = some true ∧ s.lines.dc.lvl = some s.params.lvlData

/-- The lines after a successful `init` (10_state.md R11, 70_reset_and_hazards.md R216): configured, SCK high, DC data,
RST inactive, BL on, SDA at some level. -/
def State.Initialised (s : State) : Prop :=
  s.lines.sck = ⟨true, some true⟩ ∧ s.lines.dc = ⟨true, some s.params.lvlData⟩ ∧
  s.lines.rst = ⟨true, some s.params.lvlRstIdle⟩ ∧ s.lines.bl = ⟨true, some s.params.lvlBlOn⟩ ∧
  s.lines.sda.cfg = true ∧ s.lines.sda.lvl ≠ none

/-- The receiver takes a command: it has not stopped, is out of reset, no wait is owed, and no operand and no half word
is outstanding (45_wire_commands.md R171, R184, R186). -/
def Panel.hears (p : Panel) : Bool :=
  p.stop.isNone && !p.held && p.owed == 0 &&
    match p.mode with
    | some .idle => true
    | some (.pixel none) => true
    | some .exhausted => true
    | _ => false

/-- The receiver takes drawing operations: it takes commands and its format is the initialised one (R180, R187). -/
def Panel.ready (p : Panel) : Bool := p.hears && p.formatOk

/-! ### What every step keeps -/

/-- The safe states: the block is idle between steps, no byte is half sent, the clock does not rest low, the panel is
not left in reset, FB is in its canonical form; and once READY, the lines are those of an initialised block and STATUS
is OK. -/
def State.Safe (s : State) : Prop :=
  s.seq = [] ∧ s.wire.n = 0 ∧ s.lines.sck.lvl ≠ some false ∧ s.lines.rst.lvl ≠ some s.params.lvlRstActive ∧
  s.panel.fb.wf fbBytes = true ∧
  (s.ready = true → s.Initialised ∧ s.status = some .ok)

/-- The ten opcodes of 30_encoding.md R75. -/
def tenOpcodes : List Byte := [0x01, 0x11, 0x13, 0x21, 0x29, 0x2A, 0x2B, 0x2C, 0x36, 0x3A]

/-- A frame element whose command opcode is one of the ten (30_encoding.md R82); any other element. -/
def Elem.assigned : Elem → Bool
  | .frame ⟨.command, o⟩ => tenOpcodes.contains o
  | _ => true

/-- A host request (30_encoding.md R84). -/
def hostIssued : Instr → Bool
  | .init => true
  | .clear _ => true
  | .drawPixel _ _ _ => true
  | .fillRect _ _ _ _ _ => true
  | .drawChar _ _ _ _ _ => true
  | .drawString _ _ _ _ _ => true
  | _ => false

/-- The precondition the host owes a `draw_char` of its own: the box fits if the character is printable (43_text.md
R137). Every other request owes nothing. -/
def hostKeeps : Instr → Bool
  | .drawChar x y ch _ _ => !printable ch || decide (x.toNat + 8 ≤ 240 ∧ y.toNat + 8 ≤ 240)
  | _ => true

/-! ### The frame abstraction, by one pass over a pin trace (30_encoding.md R73) -/

/-- What the pass keeps: the current level of the four lines it looks at, ACC, N, and the elements put out so far,
newest first. -/
structure Pass where
  sck : Option Level
  sda : Option Level
  dc : Option Level
  rst : Option Level
  acc : Byte
  n : Nat
  out : List Elem
  deriving DecidableEq, Repr

/-- The pass before the first event: no line has a level (R73). -/
def Pass.start : Pass := { sck := none, sda := none, dc := none, rst := none, acc := 0, n := 0, out := [] }

/-- A bit taken at a rising edge (R73 a). -/
def Pass.bit (p : Params) (b : Level) (q : Pass) : Pass :=
  let acc : Byte := (q.acc <<< 1) ||| (if b then 1 else 0)
  if q.n = 7 then
    { q with acc := acc, n := 0,
             out := .frame ⟨if q.dc = some p.lvlCmd then .command else .data, acc⟩ :: q.out }
  else { q with acc := acc, n := q.n + 1 }

/-- One event of the pass: (a) rising edges, (b) reset markers, (c) waits, (d) the levels (R73). -/
def Pass.event (p : Params) (q : Pass) : Event → Pass
  | .set .sck v =>
    let r :=
      if v = true ∧ q.sck = some false then
        match q.sda with
        | some b => q.bit p b
        | none => { q with out := .noLevel :: q.out }
      else q
    { r with sck := some v }
  | .set .rst v =>
    let r :=
      if v = p.lvlRstActive ∧ q.rst ≠ some p.lvlRstActive then { q with n := 0, out := .hwReset :: q.out }
      else if v ≠ p.lvlRstActive ∧ q.rst = some p.lvlRstActive then { q with out := .hwRelease :: q.out }
      else q
    { r with rst := some v }
  | .set .sda v => { q with sda := some v }
  | .set .dc v => { q with dc := some v }
  | .set .bl _ => q
  | .wait n => { q with out := .wait n :: q.out }
  | .cfg _ => q
  | .settle => q
  | .yield => q

/-- The pass over a pin trace (R73). -/
def passOver (p : Params) (trace : List Event) : Pass := trace.foldl (Pass.event p) Pass.start

/-- The state's lines, wire and frame trace are those its pin trace gives (30_encoding.md R73, 10_state.md R12). -/
def State.TraceAgrees (s : State) : Prop :=
  passOver s.params s.pinTrace =
    { sck := s.lines.sck.lvl, sda := s.lines.sda.lvl, dc := s.lines.dc.lvl, rst := s.lines.rst.lvl,
      acc := s.wire.acc, n := s.wire.n, out := s.frameLog }

/-- DC is written only between two bytes (20_memory.md R56): at every `Set(DC, -)` of the trace the pass has no bit of
a byte. -/
def dcBetweenBytes (p : Params) (trace : List Event) : Prop :=
  ∀ before after v, trace = before ++ .set .dc v :: after → (passOver p before).n = 0

end Sys2Proof.Machine
end

