-- ==== Sys2Proof/Certificates/Slice0/Obligations.lean ====
section
/-! DEFINITION. Certificates/Slice0/Obligations.lean: the statements for the provers. "Every state" means every value of
`State`, parameters included, so a statement about every state is about every parameter value. -/

open Sys2Proof Sys2Proof.Machine

/-! ### Reset, decoding, the step -/

/-- O1. The reset table of 10_state.md R26 (the values are the spec's decision D22), and the panel at power-on. -/
def Obligations.ResetIsTheResetTable : Prop :=
  (∀ L : Line, (State.reset.lines.get L).cfg = false ∧ (State.reset.lines.get L).lvl = none) ∧
  State.reset.regs = Regs.noValue ∧ State.reset.seq = [] ∧ State.reset.ready = false ∧ State.reset.status = none ∧
  State.reset.pinTrace = [] ∧ State.reset.panel = Panel.powerOn ∧
  (∀ (ch : Byte) (row : Nat), State.reset.glyphRead ch row = Config.glyph ch.toNat row)

/-- O2. Words written out from 30_encoding.md R76, R86, R89 decode to what they stand for. The serialisation of a host
request is the model's choice (log 1), and so is which row a table word is read as where the rows overlap: 0x01 of 8 bits
as `init` and not send_byte(1), 0x011 as SLPOUT and not send_command(0x11) (log 18). -/
def Obligations.DecodesTheSpecsWords : Prop :=
  decode (.request [0x03, 0x00, 0xEF, 0x00, 0x10, 0x12, 0x34]) = .instr (.drawPixel 0x00EF 0x0010 0x1234) ∧
  decode (.request [0x06, 0x00, 0x05, 0x00, 0x07, 0x00, 0x03, 0x41, 0x0A, 0x42, 0xFF, 0xFF, 0x00, 0x00]) =
    .instr (.drawString 5 7 [0x41, 0x0A, 0x42] 0xFFFF 0x0000) ∧
  decode (.bare [0x12, 0x34]) = .instr (.sendWord 0x1234) ∧
  decode (.framed [0b000101100]) = .instr (.sendCommand 0x2C) ∧
  decode (.framed [0b111111000, 0b100000000]) = .instr (.sendDataWord 0xF800) ∧
  decode (.framed [0b000101010, 0b100000000, 0b100001010, 0b100000000, 0b100100111, 0b000101011, 0b100000000,
    0b100010100, 0b100000000, 0b100111011, 0b000101100]) = .instr (.setWindow 10 20 30 40) ∧
  decode (.wire [0b000101010, 0b100000000, 0b100001010, 0b100000000, 0b100100111]) = .instr (.caset 10 39) ∧
  decode (.wire [0b000101100, 0b100010010, 0b100110100]) = .instr (.ramwr [0x1234]) ∧
  decode (.wire [0b000111010, 0b101010101]) = .instr (.colmod 0x55) ∧
  decodeTableWord 8 0x01 = some .init ∧ decodeTableWord 16 0x011 = some .slpout

/-- O3. Decoding gives back every well-formed instruction from its encoding (30_encoding.md R76, R86, R89). -/
def Obligations.DecodeGivesBackWhatWasEncoded : Prop :=
  ∀ i : Instr, i.wellFormed = true → decode (encode i) = .instr i

/-- O4. Every packet that decodes is the encoding of the well-formed instruction it decodes to: no packet of a port has
a second reading, and no instruction a second encoding. -/
def Obligations.OnlyEncodingsDecode : Prop :=
  ∀ (p : Packet) (i : Instr), decode p = .instr i → i.wellFormed = true ∧ encode i = p

/-- O5. A request whose OPSEL is not one of 0x01 to 0x06 is refused (30_encoding.md R87, decision D18). -/
def Obligations.UnknownOpselIsRefused : Prop :=
  ∀ (s : State) (opsel : Byte) (operands : List Byte) (rest : List Input),
    (opsel.toNat = 0 ∨ 6 < opsel.toNat) → s.inbox = .packet (.request (opsel :: operands)) :: rest →
    step s = .refused (.undecodable (.unknownOpsel opsel))

/-- O6. A step takes the next input: it executes the instruction a packet decodes to, refuses by name a packet the
decoder rejects, gives a bare element to the receiver, and without input does nothing. The inbox and the packets are the
model's own (log 1, log 2). -/
def Obligations.StepRunsTheDecodedInstruction : Prop :=
  (∀ (s : State) (p : Packet) (rest : List Input) (i : Instr), s.inbox = .packet p :: rest → decode p = .instr i →
    step s = exec i { s with inbox := rest }) ∧
  (∀ (s : State) (p : Packet) (rest : List Input) (why : DecodeError), s.inbox = .packet p :: rest →
    decode p = .rejected why → step s = .refused (.undecodable why)) ∧
  (∀ (s : State) (e : Elem) (rest : List Input), s.inbox = .element e :: rest → (s.panel.take e).stop = none →
    step s = .next { s with inbox := rest, panel := s.panel.take e }) ∧
  (∀ s : State, s.inbox = [] → step s = .next s)

/-! ### Transport and framing -/

/-- O7. `send_byte` (40_transport.md R100), for every value, policy and state: eight bit cells, most significant bit
first; SR and BC written, SCK and SDA; nothing else of the block. If no byte is half sent the wire carries one frame of
the kind DC says, and the panel takes it. An internal operation issued alone stands at the model's own port (log 6); that
the registers hold SR = v and BC = 0 as it returns and no value once the block is idle is read from 95_test_vectors.md V1
and 10_state.md R19 together (log 5). -/
def Obligations.SendByteShiftsOutEightBits : Prop :=
  ∀ (s : State) (v : Byte), ∃ t : State, exec (.sendByte v) s = .next t ∧
    (s.sendByte v).regs = { s.regs with sr := some v, bc := some 0 } ∧
    t.pinTrace = s.pinTrace ++ byteEvents s.params.policy v ∧
    t = { s with
      regs := Regs.noValue
      lines := { s.lines with sck := ⟨s.lines.sck.cfg, some true⟩, sda := ⟨s.lines.sda.cfg, some (v.getLsbD 0)⟩ }
      pinLog := t.pinLog, wire := t.wire, frameLog := t.frameLog, panel := t.panel } ∧
    (s.wire.n = 0 →
      t.wire.n = 0 ∧ t.frameTrace = s.frameTrace ++ [.frame ⟨kindOf s.params s.lines.dc.lvl, v⟩] ∧
      t.panel = s.panel.take (.frame ⟨kindOf s.params s.lines.dc.lvl, v⟩))

/-- O8. `send_word` (40_transport.md R102): the events of `send_byte` of the high byte followed directly by those of the
low byte; WR, SR and BC written, SCK and SDA; nothing else of the block. The port is the model's (log 6), and so is the
reading by which the registers are as written when it returns and hold no value once the block is idle (log 5). -/
def Obligations.SendWordSendsHighByteFirst : Prop :=
  ∀ (s : State) (v : Word), ∃ t : State, exec (.sendWord v) s = .next t ∧
    (s.sendWord v).regs = { s.regs with wr := some v, sr := some (v.extractLsb' 0 8), bc := some 0 } ∧
    t.pinTrace = s.pinTrace ++ (byteEvents s.params.policy (v.extractLsb' 8 8) ++
      byteEvents s.params.policy (v.extractLsb' 0 8)) ∧
    t = { s with
      regs := Regs.noValue
      lines := { s.lines with sck := ⟨s.lines.sck.cfg, some true⟩, sda := ⟨s.lines.sda.cfg, some (v.getLsbD 0)⟩ }
      pinLog := t.pinLog, wire := t.wire, frameLog := t.frameLog, panel := t.panel } ∧
    (s.wire.n = 0 →
      t.wire.n = 0 ∧
      t.frameTrace = s.frameTrace ++ [.frame ⟨kindOf s.params s.lines.dc.lvl, v.extractLsb' 8 8⟩,
        .frame ⟨kindOf s.params s.lines.dc.lvl, v.extractLsb' 0 8⟩] ∧
      t.panel = s.panel.takeAll [.frame ⟨kindOf s.params s.lines.dc.lvl, v.extractLsb' 8 8⟩,
        .frame ⟨kindOf s.params s.lines.dc.lvl, v.extractLsb' 0 8⟩])

/-- O9. `send_command` (41_framing.md R111): DC to the command level, the byte, DC back to the data level. The port is
the model's (log 6), and so is the reading by which the registers are as written when it returns and hold no value once
the block is idle (log 5). -/
def Obligations.SendCommandFramesOneByte : Prop :=
  ∀ (s : State) (o : Byte), ∃ t : State, exec (.sendCommand o) s = .next t ∧
    (s.sendCommand o).regs = { s.regs with sr := some o, bc := some 0 } ∧
    t.pinTrace = s.pinTrace ++ ([.set .dc s.params.lvlCmd] ++ byteEvents s.params.policy o ++
      [.set .dc s.params.lvlData]) ∧
    t = { s with
      regs := Regs.noValue
      lines := { s.lines with sck := ⟨s.lines.sck.cfg, some true⟩, sda := ⟨s.lines.sda.cfg, some (o.getLsbD 0)⟩,
                              dc := ⟨s.lines.dc.cfg, some s.params.lvlData⟩ }
      pinLog := t.pinLog, wire := t.wire, frameLog := t.frameLog, panel := t.panel } ∧
    (s.wire.n = 0 →
      t.wire.n = 0 ∧ t.frameTrace = s.frameTrace ++ [.frame ⟨.command, o⟩] ∧ t.panel = s.panel.take (.frame ⟨.command, o⟩))

/-- O10. `send_data_byte` (41_framing.md R112): DC to the data level, then the byte; DC stays. The port is the model's
(log 6), and so is the reading by which the registers are as written when it returns and hold no value once the block is
idle (log 5). -/
def Obligations.SendDataByteFramesOneByte : Prop :=
  ∀ (s : State) (v : Byte), ∃ t : State, exec (.sendDataByte v) s = .next t ∧
    (s.sendDataByte v).regs = { s.regs with sr := some v, bc := some 0 } ∧
    t.pinTrace = s.pinTrace ++ ([.set .dc s.params.lvlData] ++ byteEvents s.params.policy v) ∧
    t = { s with
      regs := Regs.noValue
      lines := { s.lines with sck := ⟨s.lines.sck.cfg, some true⟩, sda := ⟨s.lines.sda.cfg, some (v.getLsbD 0)⟩,
                              dc := ⟨s.lines.dc.cfg, some s.params.lvlData⟩ }
      pinLog := t.pinLog, wire := t.wire, frameLog := t.frameLog, panel := t.panel } ∧
    (s.wire.n = 0 →
      t.wire.n = 0 ∧ t.frameTrace = s.frameTrace ++ [.frame ⟨.data, v⟩] ∧ t.panel = s.panel.take (.frame ⟨.data, v⟩))

/-- O11. `send_data_word` (41_framing.md R113): DC to the data level once, then the word, high byte first. The port is
the model's (log 6), and so is the reading by which the registers are as written when it returns and hold no value once
the block is idle (log 5). -/
def Obligations.SendDataWordFramesOneWord : Prop :=
  ∀ (s : State) (v : Word), ∃ t : State, exec (.sendDataWord v) s = .next t ∧
    (s.sendDataWord v).regs = { s.regs with wr := some v, sr := some (v.extractLsb' 0 8), bc := some 0 } ∧
    t.pinTrace = s.pinTrace ++ ([.set .dc s.params.lvlData] ++ byteEvents s.params.policy (v.extractLsb' 8 8) ++
      byteEvents s.params.policy (v.extractLsb' 0 8)) ∧
    t = { s with
      regs := Regs.noValue
      lines := { s.lines with sck := ⟨s.lines.sck.cfg, some true⟩, sda := ⟨s.lines.sda.cfg, some (v.getLsbD 0)⟩,
                              dc := ⟨s.lines.dc.cfg, some s.params.lvlData⟩ }
      pinLog := t.pinLog, wire := t.wire, frameLog := t.frameLog, panel := t.panel } ∧
    (s.wire.n = 0 →
      t.wire.n = 0 ∧
      t.frameTrace = s.frameTrace ++ [.frame ⟨.data, v.extractLsb' 8 8⟩, .frame ⟨.data, v.extractLsb' 0 8⟩] ∧
      t.panel = s.panel.takeAll [.frame ⟨.data, v.extractLsb' 8 8⟩, .frame ⟨.data, v.extractLsb' 0 8⟩])

/-- O12. At the frame level `send_data_word(v)` is `send_data_byte` of the two bytes; at the pin level the second form
has one more `Set(DC, LVL_DATA)`, between the bytes (41_framing.md R114). -/
def Obligations.DataWordIsTwoDataBytesOnTheWire : Prop :=
  ∀ (s : State) (v : Word), s.wire.n = 0 → ∃ t u r : State,
    exec (.sendDataWord v) s = .next t ∧ exec (.sendDataByte (v.extractLsb' 8 8)) s = .next u ∧
    exec (.sendDataByte (v.extractLsb' 0 8)) u = .next r ∧
    r.frameTrace = t.frameTrace ∧ r.panel = t.panel ∧ r.lines = t.lines ∧
    ∃ before after : List Event, t.pinTrace = before ++ after ∧
      r.pinTrace = before ++ .set .dc s.params.lvlData :: after ∧
      before = s.pinTrace ++ dataByteEvents s.params (v.extractLsb' 8 8)

/-- O13. How many events the internal operations append (40_transport.md R105, 41_framing.md R115,
42_window_fill.md R131): the `Set` events under either policy, and the `Settle` events, sixteen a byte under the
conservative policy and none under the fast one. -/
def Obligations.InternalOperationsAppendTheStatedEvents : Prop :=
  ∀ (i : Instr) (s : State) (sets bytes : Nat),
    (∃ v, i = .sendByte v ∧ sets = 24 ∧ bytes = 1) ∨ (∃ v, i = .sendWord v ∧ sets = 48 ∧ bytes = 2) ∨
    (∃ o, i = .sendCommand o ∧ sets = 26 ∧ bytes = 1) ∨ (∃ v, i = .sendDataByte v ∧ sets = 25 ∧ bytes = 1) ∨
    (∃ v, i = .sendDataWord v ∧ sets = 49 ∧ bytes = 2) ∨
    (∃ x y w h, i = .setWindow x y w h ∧ sets = 274 ∧ bytes = 11) →
    ∃ (t : State) (es : List Event), exec i s = .next t ∧ t.pinTrace = s.pinTrace ++ es ∧
      es.countP Event.isSet = sets ∧ es.count (.set .sck true) = 8 * bytes ∧ es.count (.set .sck false) = 8 * bytes ∧
      (s.params.policy = .fast → es.count .settle = 0 ∧ es.length = sets) ∧
      (s.params.policy = .conservative → es.count .settle = 16 * bytes ∧ es.length = sets + 16 * bytes)

/-! ### Window and fill -/

/-- O14. `set_window` (42_window_fill.md R120): the eleven frames with inclusive end coordinates modulo 2^16, and the
panel in pixel mode at the window's origin if it takes commands. The port is the model's (log 6), and so is the reading by
which the registers are as written when it returns and hold no value once the block is idle (log 5). -/
def Obligations.SetWindowSendsElevenFrames : Prop :=
  ∀ (s : State) (x y w h : Word), ∃ t : State, exec (.setWindow x y w h) s = .next t ∧
    (s.setWindow x y w h).regs = { s.regs with
      x := some x, y := some y, w := some w, h := some h, xe := some (x + w - 1),
      ye := some (y + h - 1), wr := some (y + h - 1), sr := some 0x2C, bc := some 0 } ∧
    t.pinTrace = s.pinTrace ++ windowEvents s.params x y w h ∧
    t = { s with
      regs := Regs.noValue
      lines := { s.lines with sck := ⟨s.lines.sck.cfg, some true⟩, sda := ⟨s.lines.sda.cfg, some false⟩,
                              dc := ⟨s.lines.dc.cfg, some s.params.lvlData⟩ }
      pinLog := t.pinLog, wire := t.wire, frameLog := t.frameLog, panel := t.panel } ∧
    (s.wire.n = 0 →
      t.wire.n = 0 ∧ t.frameTrace = s.frameTrace ++ elems (windowFrames x y w h) ∧
      t.panel = s.panel.takeAll (elems (windowFrames x y w h)) ∧
      (s.panel.hears = true →
        t.panel = { s.panel with xs := some x, xe := some (x + w - 1), ys := some y, ye := some (y + h - 1),
                                 px := some x, py := some y, mode := some (.pixel none) }))

/-- O15. A valid `fill_rect` (42_window_fill.md R124) runs to its end and emits exactly one CASET, one RASET, one RAMWR
and then `w * h` copies of the color: at the pins, with yields at most between two words (R129), and at the wire. -/
def Obligations.FillRectStreamsTheColor : Prop :=
  ∀ (s : State) (x y w h c : Word), s.Safe → s.ready = true →
    1 ≤ w.toNat → 1 ≤ h.toNat → x.toNat + w.toNat ≤ 240 → y.toNat + h.toNat ≤ 240 →
    ∃ t : State, exec (.fillRect x y w h c) s = .next t ∧
      t.pinTrace = s.pinTrace ++ (windowEvents s.params x y w h ++
        streamEvents s.params s.yieldPoints (List.replicate (w.toNat * h.toNat) c)) ∧
      t.frameTrace = s.frameTrace ++ fillElems x y w h c ∧
      t.panel = s.panel.takeAll (fillElems x y w h c) ∧
      (fillElems x y w h c).length = 11 + 2 * (w.toNat * h.toNat) ∧
      (fillElems x y w h c).filter Elem.isCommand =
        [.frame ⟨.command, 0x2A⟩, .frame ⟨.command, 0x2B⟩, .frame ⟨.command, 0x2C⟩] ∧
      t.LinesRest ∧ t.lines.sda.lvl = some (c.getLsbD 0)

/-- O16. Out-of-range coordinates are dropped without an event (60_exceptions.md R192): a pixel off the panel, a
rectangle that fails the check, a character of `draw_string` whose box does not fit. Only the working registers, which
hold no value between requests, are written. -/
def Obligations.OutOfRangeCoordinatesAreDropped : Prop :=
  ∀ s : State, s.Drawable →
    (∀ x y c : Word, 240 ≤ x.toNat ∨ 240 ≤ y.toNat →
      exec (.drawPixel x y c) s = .next { s with regs := Regs.noValue }) ∧
    (∀ x y w h c : Word, w.toNat = 0 ∨ h.toNat = 0 ∨ 240 < x.toNat + w.toNat ∨ 240 < y.toNat + h.toNat →
      exec (.fillRect x y w h c) s = .next { s with regs := Regs.noValue }) ∧
    (∀ (x y : Word) (ch : Byte) (fg bg : Word), 240 < x.toNat + 8 ∨ 240 < y.toNat + 8 →
      exec (.drawString x y [ch] fg bg) s = .next { s with regs := Regs.noValue })

/-- O17. The effect of `fill_rect` on FB (42_window_fill.md R125): every element of a valid rectangle holds the color,
every byte of FB outside it is as before, the window is the rectangle and is exhausted; of the panel's other registers
only the cursor changes. -/
def Obligations.FillRectPaintsItsRectangle : Prop :=
  ∀ (s : State) (x y w h c : Word), s.Safe → s.ready = true → s.panel.ready = true →
    1 ≤ w.toNat → 1 ≤ h.toNat → x.toNat + w.toNat ≤ 240 → y.toNat + h.toNat ≤ 240 →
    ∃ t : State, exec (.fillRect x y w h c) s = .next t ∧
      (∀ px py : Nat, x.toNat ≤ px → px < x.toNat + w.toNat → y.toNat ≤ py → py < y.toNat + h.toNat →
        fbRead px py t.panel.fb = some c) ∧
      (∀ a : Nat, (∀ px py : Nat, x.toNat ≤ px → px < x.toNat + w.toNat → y.toNat ≤ py → py < y.toNat + h.toNat →
        outsideElement a px py) → Memory.read a t.panel.fb = Memory.read a s.panel.fb) ∧
      t.panel = { s.panel with fb := t.panel.fb, xs := some x, xe := some (x + w - 1), ys := some y,
                               ye := some (y + h - 1), px := t.panel.px, py := t.panel.py, mode := some .exhausted }

/-- O18. `draw_pixel` inside the panel is `fill_rect(x, y, 1, 1, color)` (42_window_fill.md R126, R127): the same state
results, with the thirteen frames of the rule. -/
def Obligations.DrawPixelIsAOnePixelFill : Prop :=
  ∀ (s : State) (x y c : Word), s.Safe → s.ready = true → x.toNat < 240 → y.toNat < 240 →
    ∃ t : State, exec (.drawPixel x y c) s = .next t ∧ exec (.fillRect x y 1 1 c) s = .next t ∧
      t.frameTrace = s.frameTrace ++ elems ([cmdFrame 0x2A] ++ wordFrames x ++ wordFrames x ++
        [cmdFrame 0x2B] ++ wordFrames y ++ wordFrames y ++ [cmdFrame 0x2C] ++ wordFrames c)

/-- O19. `clear` is `fill_rect(0, 0, 240, 240, color)` (42_window_fill.md R128, decision D28): the same state results;
an initialised panel then holds the color everywhere. -/
def Obligations.ClearFillsThePanel : Prop :=
  ∀ (s : State) (c : Word), s.Safe → s.ready = true →
    ∃ t : State, exec (.clear c) s = .next t ∧ exec (.fillRect 0 0 240 240 c) s = .next t ∧
      t.frameTrace = s.frameTrace ++ fillElems 0 0 240 240 c ∧
      (s.panel.ready = true → ∀ px py : Nat, px < 240 → py < 240 → fbRead px py t.panel.fb = some c)

/-! ### Glyphs and text -/

/-- O20. `draw_char` of a printable character (43_text.md R136): one 8 by 8 window, then 64 color words, row by row from
the top, bit 0 of a row first, `fg` where the bit is set. Coordinates are not tested. -/
def Obligations.DrawCharStreamsItsGlyph : Prop :=
  ∀ (s : State) (x y : Word) (ch : Byte) (fg bg : Word), s.Safe → s.ready = true → 32 ≤ ch.toNat → ch.toNat ≤ 126 →
    ∃ t : State, exec (.drawChar x y ch fg bg) s = .next t ∧
      t.pinTrace = s.pinTrace ++ (windowEvents s.params x y 8 8 ++
        streamEvents s.params s.yieldPoints (glyphWords (s.glyphRead ch) fg bg)) ∧
      t.frameTrace = s.frameTrace ++ charElems (s.glyphRead ch) x y fg bg ∧
      t.panel = s.panel.takeAll (charElems (s.glyphRead ch) x y fg bg) ∧
      (glyphWords (s.glyphRead ch) fg bg).length = 64 ∧ (charElems (s.glyphRead ch) x y fg bg).length = 139 ∧
      (∀ r c : Nat, r < 8 → c < 8 → (glyphWords (s.glyphRead ch) fg bg)[8 * r + c]? =
        some (if (s.glyphRead ch r).getLsbD c then fg else bg)) ∧
      t.LinesRest

/-- O21. A character that is not printable is dropped without an event (43_text.md R135, 60_exceptions.md R193). In
`draw_string` it sends nothing and the text goes on nine columns further right, or on the next line where the next box
would pass the right edge (R143, R144): so a printable character after it is painted nine columns from it. -/
def Obligations.UnprintableCharactersAreDropped : Prop :=
  (∀ (s : State) (x y : Word) (ch : Byte) (fg bg : Word), s.Drawable → ch.toNat < 32 ∨ 126 < ch.toNat →
    exec (.drawChar x y ch fg bg) s = .next { s with regs := Regs.noValue }) ∧
  (∀ (s : State) (x y : Word) (c : Byte) (rest : List Byte) (fg bg : Word), s.Safe → s.ready = true →
    rest.length < 65535 → c.toNat < 32 ∨ 126 < c.toNat → c ≠ 10 → c ≠ 13 → y.toNat + 8 ≤ 240 →
    ∃ t : State, exec (.drawString x y (c :: rest) fg bg) s = .next t ∧
      t.frameTrace = s.frameTrace ++ textElems s fg bg (if 240 < x.toNat + 17
        then textCells x.toNat rest x.toNat (y.toNat + 10) else textCells x.toNat rest (x.toNat + 9) y.toNat)) ∧
  (∀ (s : State) (x y : Word) (c d : Byte) (fg bg : Word), s.Safe → s.ready = true →
    c.toNat < 32 ∨ 126 < c.toNat → c ≠ 10 → c ≠ 13 → 32 ≤ d.toNat → d.toNat ≤ 126 →
    x.toNat + 17 ≤ 240 → y.toNat + 8 ≤ 240 →
    ∃ t : State, exec (.drawString x y [c, d] fg bg) s = .next t ∧
      t.frameTrace = s.frameTrace ++ charElems (s.glyphRead d) (x + 9) y fg bg)

/-- O22. The effect of `draw_char` on FB (43_text.md R138) and on the panel's other registers. -/
def Obligations.DrawCharPaintsItsCell : Prop :=
  ∀ (s : State) (x y : Word) (ch : Byte) (fg bg : Word), s.Safe → s.ready = true → s.panel.ready = true →
    32 ≤ ch.toNat → ch.toNat ≤ 126 → x.toNat + 8 ≤ 240 → y.toNat + 8 ≤ 240 →
    ∃ t : State, exec (.drawChar x y ch fg bg) s = .next t ∧
      (∀ r c : Nat, r < 8 → c < 8 → fbRead (x.toNat + c) (y.toNat + r) t.panel.fb =
        some (if (s.glyphRead ch r).getLsbD c then fg else bg)) ∧
      (∀ a : Nat, (∀ r c : Nat, r < 8 → c < 8 → outsideElement a (x.toNat + c) (y.toNat + r)) →
        Memory.read a t.panel.fb = Memory.read a s.panel.fb) ∧
      t.panel = { s.panel with fb := t.panel.fb, xs := some x, xe := some (x + 7), ys := some y,
                               ye := some (y + 7), px := t.panel.px, py := t.panel.py, mode := some .exhausted }

/-- O23. A `draw_char` whose box does not fit sends its 139 frames all the same and returns; the panel stops with
PanelWindow and nothing of it has a value (43_text.md R137, 45_wire_commands.md R181, R189; log 8). -/
def Obligations.DrawCharOutsideThePanelStopsThePanel : Prop :=
  ∀ (s : State) (x y : Word) (ch : Byte) (fg bg : Word), s.Safe → s.ready = true → s.panel.ready = true →
    32 ≤ ch.toNat → ch.toNat ≤ 126 → 240 < x.toNat + 8 ∨ 240 < y.toNat + 8 →
    ∃ t : State, exec (.drawChar x y ch fg bg) s = .next t ∧
      t.frameTrace = s.frameTrace ++ charElems (s.glyphRead ch) x y fg bg ∧
      t.panel = { Panel.powerOn with stop := some (.fault .panelWindow) } ∧ t.LinesRest ∧ t.ready = true

/-- O24. `draw_string` (43_text.md R141, R149) sends, in text order, the traces of the cells its layout gives; each of
them is a printable character whose box fits (R146). At the pins these are the events of its characters, and a yield falls
only between two characters or between two color words of one (42_window_fill.md R129; log 17). -/
def Obligations.DrawStringSendsItsCells : Prop :=
  ∀ (s : State) (x y : Word) (text : List Byte) (fg bg : Word), s.Safe → s.ready = true → text.length < 65536 →
    ∃ t : State, exec (.drawString x y text fg bg) s = .next t ∧
      t.pinTrace = s.pinTrace ++ textEvents s fg bg x.toNat text s.yieldPoints x.toNat y.toNat ∧
      t.frameTrace = s.frameTrace ++ textElems s fg bg (textCells x.toNat text x.toNat y.toNat) ∧
      t.panel = s.panel.takeAll (textElems s fg bg (textCells x.toNat text x.toNat y.toNat)) ∧
      (textElems s fg bg (textCells x.toNat text x.toNat y.toNat)).length =
        139 * (textCells x.toNat text x.toNat y.toNat).length ∧
      (∀ k ∈ textCells x.toNat text x.toNat y.toNat, k.x + 8 ≤ 240 ∧ k.y + 8 ≤ 240 ∧ 32 ≤ k.ch.toNat ∧ k.ch.toNat ≤ 126) ∧
      t.LinesRest

/-- O25. What `draw_string` leaves in FB (43_text.md R138, R141): each cell shows its glyph unless a later cell covers
it, every byte outside the cells is as before, the panel is ready for the next request, and beyond FB only its window,
cursor and mode change. -/
def Obligations.DrawStringPaintsItsCells : Prop :=
  ∀ (s : State) (x y : Word) (text : List Byte) (fg bg : Word), s.Safe → s.ready = true → s.panel.ready = true →
    text.length < 65536 →
    ∃ t : State, exec (.drawString x y text fg bg) s = .next t ∧
      (∀ (before after : List TextCell) (k : TextCell),
        textCells x.toNat text x.toNat y.toNat = before ++ k :: after → ∀ r c : Nat, r < 8 → c < 8 →
        (∀ l ∈ after, ¬ l.covers (k.x + c) (k.y + r)) →
        fbRead (k.x + c) (k.y + r) t.panel.fb = some (if (s.glyphRead k.ch r).getLsbD c then fg else bg)) ∧
      (∀ a : Nat, (∀ k ∈ textCells x.toNat text x.toNat y.toNat, ∀ r c : Nat, r < 8 → c < 8 →
        outsideElement a (k.x + c) (k.y + r)) → Memory.read a t.panel.fb = Memory.read a s.panel.fb) ∧
      t.panel.ready = true ∧
      t.panel = { s.panel with fb := t.panel.fb, xs := t.panel.xs, xe := t.panel.xe, ys := t.panel.ys,
                               ye := t.panel.ye, px := t.panel.px, py := t.panel.py, mode := t.panel.mode }

/-! ### Initialisation and admission -/

/-- O26. `init` without `cfg_ok` (44_init.md R151, 60_exceptions.md R191): no event, STATUS is CONFIG_FAIL, READY stays
0, and every drawing request is then refused. -/
def Obligations.InitReportsConfigurationFailure : Prop :=
  ∀ s : State, s.Startable → s.cfgOk = false →
    ∃ t : State, exec .init s = .next t ∧
      t = { s with regs := Regs.noValue, ready := false, status := some .configFail,
                   cfgAnswers := s.cfgAnswers.tail, cfgAsked := s.cfgAsked + 1 } ∧
      (∀ i : Instr, hostIssued i = true → i ≠ .init → exec i t = .refused .notAdmitted)

/-- O27. `init` with `cfg_ok` (44_init.md R150 to R166): the ten steps in order, at the pins and at the wire (R165);
then the block is initialised, SDA has bit 0 of the last byte sent (70_reset_and_hazards.md R216: of 0x29 without the
clear, of the color with it), READY is 1 and STATUS is OK. -/
def Obligations.InitRunsTheTenSteps : Prop :=
  ∀ s : State, s.Safe → s.ready = false → s.cfgOk = true →
    ∃ t : State, exec .init s = .next t ∧
      t.pinTrace = s.pinTrace ++ (initEvents s.params ++ initClearEvents s.params s.yieldPoints) ∧
      t.frameTrace = s.frameTrace ++ (initElems s.params ++ initClearElems s.params) ∧
      t.panel = s.panel.takeAll (initElems s.params ++ initClearElems s.params) ∧
      t.Initialised ∧
      (s.params.initClear = none → t.lines.sda.lvl = some true) ∧
      (∀ c : Word, s.params.initClear = some c → t.lines.sda.lvl = some (c.getLsbD 0)) ∧
      t = { s with lines := t.lines, regs := Regs.noValue, ready := true, status := some .ok, pinLog := t.pinLog,
                   wire := t.wire, frameLog := t.frameLog, panel := t.panel, cfgAnswers := s.cfgAnswers.tail,
                   cfgAsked := s.cfgAsked + 1, yieldPoints := t.yieldPoints }

/-- O28. The panel after a successful `init` (70_reset_and_hazards.md R216): awake, COLMOD 0x55, MADCTL 0x00, inversion,
normal mode and display on; without the clear no window and no element of FB has a value, with it the window is the whole
panel, exhausted, and every element holds the color. A wait the receiver still owes from earlier frames must be no longer
than the reset pulse's two waits together (R186; log 15, log 26). -/
def Obligations.InitLeavesThePanelInitialised : Prop :=
  ∀ s : State, s.Safe → s.ready = false → s.cfgOk = true → s.panel.stop = none → s.panel.owed ≤ 130 →
    ∃ t : State, exec .init s = .next t ∧ t.panel.ready = true ∧
      t.panel.sleep = some .awake ∧ t.panel.colmod = some 0x55 ∧ t.panel.madctl = some 0x00 ∧
      t.panel.inv = some .on ∧ t.panel.norm = some .on ∧ t.panel.disp = some .on ∧
      (s.params.initClear = none → t.panel.mode = some .idle ∧ t.panel.fb = [] ∧ t.panel.xs = none ∧
        t.panel.xe = none ∧ t.panel.ys = none ∧ t.panel.ye = none) ∧
      (∀ c : Word, s.params.initClear = some c → t.panel.mode = some .exhausted ∧ t.panel.xs = some 0 ∧
        t.panel.xe = some 239 ∧ t.panel.ys = some 0 ∧ t.panel.ye = some 239 ∧
        (∀ px py : Nat, px < 240 → py < 240 → fbRead px py t.panel.fb = some c))

/-- O29. Under every admitted parameter value the wait after SLPOUT is strictly the largest of all waits `init` adds to
the trace (44_init.md R154). The numbers of T_SHORT and T_LONG are parameters. -/
def Obligations.SleepOutWaitIsStrictlyTheLongest : Prop :=
  ∀ s : State, s.Safe → s.ready = false → s.cfgOk = true → s.params.waitsOk = true →
    ∃ (t : State) (es : List Elem), exec .init s = .next t ∧ t.frameTrace = s.frameTrace ++ es ∧
      (∃ before after : List Elem, es = before ++ .frame ⟨.command, 0x11⟩ :: .wait 255 :: after ∧
        ∀ n : Nat, .wait n ∈ before ++ after → n < 255)

/-- O30. Admission (60_exceptions.md R196, decisions D17 and D29): `init` with READY = 1, a drawing request with
READY = 0, and every host request while an operation is in progress are refused. -/
def Obligations.RequestsAreAdmittedOnlyWhenDue : Prop :=
  ∀ (i : Instr) (s : State), hostIssued i = true →
    s.seq ≠ [] ∨ (i = .init ∧ s.ready = true) ∨ (i ≠ .init ∧ s.ready = false) → exec i s = .refused .notAdmitted

/-- O31. What a drawing request may change: an admitted one answers a next state, in which the working registers hold no
value, and besides the levels of SCK, SDA and DC, the traces, the panel and the count of yield places nothing has changed
(10_state.md R11, R13, R19, R21, R24; 60_exceptions.md R190). -/
def Obligations.DrawingRequestsKeepTheRest : Prop :=
  ∀ (i : Instr) (s : State), hostIssued i = true → i ≠ .init → s.Drawable →
    ∃ t : State, exec i s = .next t ∧
      t = { s with
        lines := { s.lines with sck := ⟨s.lines.sck.cfg, t.lines.sck.lvl⟩, sda := ⟨s.lines.sda.cfg, t.lines.sda.lvl⟩,
                                dc := ⟨s.lines.dc.cfg, t.lines.dc.lvl⟩ }
        regs := Regs.noValue, pinLog := t.pinLog, wire := t.wire, frameLog := t.frameLog, panel := t.panel,
        yieldPoints := t.yieldPoints }

/-! ### Wire commands -/

/-- O32. SWRESET (45_wire_commands.md R172): the registers lose their values, FB stays (decision D21), a wait of 150 is
owed (R186; log 15). -/
def Obligations.SwresetClearsTheRegisters : Prop :=
  decode (.wire [0x001]) = .instr .swreset ∧
  ∀ s : State, s.panel.hears = true → exec .swreset s = .next { s with
    panel := { Panel.powerOn with mode := some .idle, fb := s.panel.fb, holdOwed := s.panel.holdOwed, owed := 150 } }

/-- O33. SLPOUT (45_wire_commands.md R173): awake; a wait of 255 is owed (R186; log 15). -/
def Obligations.SlpoutWakesThePanel : Prop :=
  decode (.wire [0x011]) = .instr .slpout ∧
  ∀ s : State, s.panel.hears = true → exec .slpout s = .next { s with
    panel := { s.panel with sleep := some .awake, mode := some .idle, owed := 255 } }

/-- O34. NORON, INVON and DISPON (45_wire_commands.md R174, R175, R176) each turn their one state on and nothing
else. -/
def Obligations.NoronInvonDisponTurnOn : Prop :=
  decode (.wire [0x013]) = .instr .noron ∧ decode (.wire [0x021]) = .instr .invon ∧
  decode (.wire [0x029]) = .instr .dispon ∧
  ∀ s : State, s.panel.hears = true →
    exec .noron s = .next { s with panel := { s.panel with norm := some .on, mode := some .idle } } ∧
    exec .invon s = .next { s with panel := { s.panel with inv := some .on, mode := some .idle } } ∧
    exec .dispon s = .next { s with panel := { s.panel with disp := some .on, mode := some .idle } }

/-- O35. CASET (45_wire_commands.md R177): start and inclusive end column, each high byte first; the cursor does not
move. -/
def Obligations.CasetSetsTheColumns : Prop :=
  (∀ b1 b2 b3 b4 : Byte, decode (.wire (0x02A :: [b1, b2, b3, b4].map fun b => frameCode ⟨.data, b⟩)) =
    .instr (.caset (b1 ++ b2) (b3 ++ b4))) ∧
  ∀ (s : State) (xs xe : Word), s.panel.hears = true → exec (.caset xs xe) s = .next { s with
    panel := { s.panel with xs := some xs, xe := some xe, mode := some .idle } }

/-- O36. RASET (45_wire_commands.md R178). -/
def Obligations.RasetSetsTheRows : Prop :=
  (∀ b1 b2 b3 b4 : Byte, decode (.wire (0x02B :: [b1, b2, b3, b4].map fun b => frameCode ⟨.data, b⟩)) =
    .instr (.raset (b1 ++ b2) (b3 ++ b4))) ∧
  ∀ (s : State) (ys ye : Word), s.panel.hears = true → exec (.raset ys ye) s = .next { s with
    panel := { s.panel with ys := some ys, ye := some ye, mode := some .idle } }

/-- O37. RAMWR with no data (45_wire_commands.md R179): the cursor goes to the window's origin, pixel mode begins, FB is
unchanged. -/
def Obligations.RamwrStartsAtTheWindowsOrigin : Prop :=
  decode (.wire [0x02C]) = .instr (.ramwr []) ∧
  ∀ s : State, s.panel.hears = true → exec (.ramwr []) s = .next { s with
    panel := { s.panel with px := s.panel.xs, py := s.panel.ys, mode := some (.pixel none) } }

/-- O38. Pixel data (45_wire_commands.md R180): with an initialised format and a window inside the panel, a stream of
color words no longer than the window writes them row by row, leftmost column first; every byte of FB outside these
elements is as before; the receiver is exhausted exactly when the window is full. -/
def Obligations.RamwrPaintsItsStream : Prop :=
  ∀ (s : State) (ws : List Word) (xs xe ys ye : Word), s.panel.ready = true →
    s.panel.xs = some xs → s.panel.xe = some xe → s.panel.ys = some ys → s.panel.ye = some ye →
    xs.toNat ≤ xe.toNat → xe.toNat < 240 → ys.toNat ≤ ye.toNat → ye.toNat < 240 →
    ws.length ≤ (xe.toNat - xs.toNat + 1) * (ye.toNat - ys.toNat + 1) →
    ∃ t : State, exec (.ramwr ws) s = .next t ∧
      (∀ j (hj : j < ws.length), fbRead (xs.toNat + j % (xe.toNat - xs.toNat + 1))
        (ys.toNat + j / (xe.toNat - xs.toNat + 1)) t.panel.fb = some ws[j]) ∧
      (∀ a : Nat, (∀ j, j < ws.length → outsideElement a (xs.toNat + j % (xe.toNat - xs.toNat + 1))
        (ys.toNat + j / (xe.toNat - xs.toNat + 1))) → Memory.read a t.panel.fb = Memory.read a s.panel.fb) ∧
      t.panel.mode = (if ws.length = (xe.toNat - xs.toNat + 1) * (ye.toNat - ys.toNat + 1) then some .exhausted
        else some (.pixel none)) ∧
      t = { s with panel := { s.panel with fb := t.panel.fb, px := t.panel.px, py := t.panel.py,
                                           mode := t.panel.mode } }

/-- O39. Where a pixel stream stops the receiver (45_wire_commands.md R180, R181, R185): at the first data frame if the
format is not the initialised one, at the first color word if the window is not inside the panel, at the first data
frame after the window is full. -/
def Obligations.RamwrStopsOnBadFormatWindowOrLength : Prop :=
  ∀ (s : State) (c : Word) (ws : List Word), s.panel.hears = true →
    (s.panel.formatOk = false → exec (.ramwr (c :: ws)) s = .refused .panelNotInitialised) ∧
    (s.panel.formatOk = true → s.panel.windowOk = false → exec (.ramwr (c :: ws)) s = .fault .panelWindow) ∧
    (s.panel.formatOk = true → ∀ xs xe ys ye : Word, s.panel.xs = some xs → s.panel.xe = some xe →
      s.panel.ys = some ys → s.panel.ye = some ye → xs.toNat ≤ xe.toNat → xe.toNat < 240 → ys.toNat ≤ ye.toNat →
      ye.toNat < 240 → (xe.toNat - xs.toNat + 1) * (ye.toNat - ys.toNat + 1) < (c :: ws).length →
      exec (.ramwr (c :: ws)) s = .fault .panelOverrun)

/-- O40. MADCTL (45_wire_commands.md R182): the operand is recorded; with any operand but 0x00 pixel data are then
refused. -/
def Obligations.MadctlRecordsItsOperand : Prop :=
  (∀ m : Byte, decode (.wire [0x036, frameCode ⟨.data, m⟩]) = .instr (.madctl m)) ∧
  ∀ (s : State) (m : Byte), s.panel.hears = true →
    ∃ t : State, exec (.madctl m) s = .next t ∧
      t = { s with panel := { s.panel with madctl := some m, mode := some .idle } } ∧
      (m ≠ 0x00 → ∀ (c : Word) (ws : List Word), exec (.ramwr (c :: ws)) t = .refused .panelNotInitialised)

/-- O41. COLMOD (45_wire_commands.md R183): the operand is recorded; with any operand but 0x55 pixel data are then
refused. -/
def Obligations.ColmodRecordsItsOperand : Prop :=
  (∀ m : Byte, decode (.wire [0x03A, frameCode ⟨.data, m⟩]) = .instr (.colmod m)) ∧
  ∀ (s : State) (m : Byte), s.panel.hears = true →
    ∃ t : State, exec (.colmod m) s = .next t ∧
      t = { s with panel := { s.panel with colmod := some m, mode := some .idle } } ∧
      (m ≠ 0x55 → ∀ (c : Word) (ws : List Word), exec (.ramwr (c :: ws)) t = .refused .panelNotInitialised)

/-- O42. A wire command is executed at the receiver alone (log 7): nothing of the block changes; at a receiver that has
seen no HwReset it is refused (45_wire_commands.md R170). -/
def Obligations.WireCommandsLeaveTheBlockAlone : Prop :=
  ∀ (i : Instr) (s : State), (∃ codes : List (BitVec 9), encode i = .wire codes) →
    (∀ t : State, exec i s = .next t → t = { s with panel := t.panel } ∧ t.panel.stop = none) ∧
    (s.panel.stop = none → s.panel.mode = none → exec i s = .refused .panelNotInitialised)

/-! ### The receiver on bare frame-trace elements -/

/-- O43. The receiver's stops (45_wire_commands.md R170, R171, R184, R185, R186): each frame sequence the document
leaves undefined stops it under its own name. That a frame which comes too early is a timing fault whatever else is wrong
with it is the model's choice (log 25). -/
def Obligations.ReceiverStopsOnUndefinedFrames : Prop :=
  ∀ (s : State) (k : FrameKind) (b : Byte) (rest : List Input), s.panel.stop = none →
    s.inbox = .element (.frame ⟨k, b⟩) :: rest →
    (s.panel.mode = none → step s = .refused .panelNotInitialised) ∧
    (s.panel.mode ≠ none → s.panel.held = true ∨ 0 < s.panel.owed → step s = .fault .panelTiming) ∧
    (s.panel.held = false → s.panel.owed = 0 →
      (k = .command →
        (∀ op got, s.panel.mode = some (.operands op got) → step s = .fault .panelTruncatedCommand) ∧
        (∀ hi, s.panel.mode = some (.pixel (some hi)) → step s = .fault .panelTornWord) ∧
        (s.panel.hears = true → b ∉ tenOpcodes → step s = .refused (.unknownOpcode b))) ∧
      (k = .data →
        (s.panel.mode = some .idle → step s = .fault .panelStrayData) ∧
        (s.panel.mode = some .exhausted → step s = .fault .panelOverrun)))

/-- O44. The reset markers and a wait at the receiver (45_wire_commands.md R184, R186; the fields held, holdOwed and owed
are the model's, log 15). That a HwReset is taken while a wait is owed, and keeps it, and that HwRelease is held to the
hold alone, is the model's choice (log 26). -/
def Obligations.ResetMarkersActOnTheReceiver : Prop :=
  ∀ (s : State) (rest : List Input), s.panel.stop = none →
    (s.inbox = .element .hwReset :: rest → step s = .next { s with
      inbox := rest, panel := { Panel.powerOn with mode := some .idle, held := true, holdOwed := 10,
                                                   owed := s.panel.owed } }) ∧
    (s.inbox = .element .hwRelease :: rest → 0 < s.panel.holdOwed → step s = .fault .panelTiming) ∧
    (s.inbox = .element .hwRelease :: rest → s.panel.holdOwed = 0 → step s = .next { s with
      inbox := rest, panel := { s.panel with held := false, owed := max s.panel.owed 120 } }) ∧
    (∀ n : Nat, s.inbox = .element (.wait n) :: rest → step s = .next { s with
      inbox := rest, panel := { s.panel with holdOwed := s.panel.holdOwed - n, owed := s.panel.owed - n } })

/-- O45. The four mandatory waits as sums (45_wire_commands.md R186): whatever waits lie between, the next element is
taken exactly when they add up to the minimum. -/
def Obligations.MandatoryWaitsAreSums : Prop :=
  ∀ (p : Panel) (ns : List Nat) (op : WireOp), p.hears = true →
    ((Panel.takeAll ([.hwReset] ++ ns.map Elem.wait ++ [.hwRelease]) p).stop =
      if ns.sum < 10 then some (.fault .panelTiming) else none) ∧
    ((Panel.takeAll ([.hwReset, .wait 10, .hwRelease] ++ ns.map Elem.wait ++ [.frame ⟨.command, wireOpcode op⟩]) p).stop =
      if ns.sum < 120 then some (.fault .panelTiming) else none) ∧
    ((Panel.takeAll ([.frame ⟨.command, 0x01⟩] ++ ns.map Elem.wait ++ [.frame ⟨.command, wireOpcode op⟩]) p).stop =
      if ns.sum < 150 then some (.fault .panelTiming) else none) ∧
    ((Panel.takeAll ([.frame ⟨.command, 0x11⟩] ++ ns.map Elem.wait ++ [.frame ⟨.command, wireOpcode op⟩]) p).stop =
      if ns.sum < 255 then some (.fault .panelTiming) else none)

/-! ### What every step keeps -/

/-- O46. The reset state is safe. -/
def Obligations.ResetIsSafe : Prop := State.reset.Safe

/-- O47. Every step keeps the safe states (10_state.md R11, R20; 40_transport.md R104; 70_reset_and_hazards.md R216,
R227, R230): the block is idle between steps with no byte half sent and the clock not low, FB keeps its canonical form,
and a block that is READY has all five lines at rest and STATUS OK. -/
def Obligations.EveryStepKeepsSafe : Prop :=
  ∀ s t : State, s.Safe → step s = .next t → t.Safe

/-- O48. At reset the traces agree, and no DC event is inside a byte. -/
def Obligations.ResetTracesAgree : Prop :=
  State.reset.TraceAgrees ∧ dcBetweenBytes State.reset.params State.reset.pinTrace

/-- O49. Every step keeps the frame trace, ACC, N and the line levels those that the pass of 30_encoding.md R73 finds in
the pin trace. -/
def Obligations.EveryStepKeepsTheFrameTrace : Prop :=
  ∀ s t : State, s.TraceAgrees → step s = .next t → t.TraceAgrees

/-- O50. DC is written only between two bytes (20_memory.md R56, 70_reset_and_hazards.md R220), and every step keeps it
so. -/
def Obligations.DcIsWrittenOnlyBetweenBytes : Prop :=
  ∀ s t : State, s.Safe → s.TraceAgrees → dcBetweenBytes s.params s.pinTrace → step s = .next t →
    dcBetweenBytes t.params t.pinTrace

/-- O51. No step changes a parameter or the glyph ROM, takes back the configuration of a line, or takes back an event of
the pin trace (10_state.md R12, R13, R24, R25). -/
def Obligations.ParametersGlyphsAndConfigurationStay : Prop :=
  ∀ s t : State, step s = .next t →
    t.params = s.params ∧ t.glyphRom = s.glyphRom ∧
    (∀ L : Line, (s.lines.get L).cfg = true → (t.lines.get L).cfg = true) ∧
    ∃ es : List Event, t.pinTrace = s.pinTrace ++ es

/-- O52. Every command frame a host request sends has one of the ten opcodes (30_encoding.md R82, R90). -/
def Obligations.HostRequestsSendOnlyTheTenOpcodes : Prop :=
  ∀ (i : Instr) (s t : State), hostIssued i = true → i.wellFormed = true → s.Safe → exec i s = .next t →
    ∃ es : List Elem, t.frameTrace = s.frameTrace ++ es ∧ es.all Elem.assigned = true

/-- O53. Every frame trace of an admitted host request passes the receiver (45_wire_commands.md R189): if the panel has
not stopped, is ready once the block is, and owes no wait longer than the reset pulse's two waits together (log 15, log
26), the same holds after the request, a `draw_char` of a printable character whose box does not fit being the one
exception. -/
def Obligations.HostRequestsPassTheReceiver : Prop :=
  ∀ (i : Instr) (s t : State), hostIssued i = true → hostKeeps i = true → i.wellFormed = true → s.Safe →
    s.panel.stop = none → s.panel.owed ≤ 130 → (s.ready = true → s.panel.ready = true) → exec i s = .next t →
    t.panel.stop = none ∧ t.panel.owed ≤ 130 ∧ (t.ready = true → t.panel.ready = true)

/-- O54. The timing policy is not seen on the wire (40_transport.md R103): under the other policy every instruction comes
to the same state, but for the pin trace, which has the same events other than `Settle`. -/
def Obligations.PolicyDoesNotShowOnTheWire : Prop :=
  ∀ (i : Instr) (s t : State) (q : TimingPolicy), exec i s = .next t →
    ∃ t' : State, exec i { s with params := { s.params with policy := q } } = .next t' ∧
      t' = { t with params := { s.params with policy := q }, pinLog := t'.pinLog } ∧
      t'.pinLog.filter (· ≠ .settle) = t.pinLog.filter (· ≠ .settle)

/-- O55. Every working register holds no value while the block is idle (10_state.md R19): every step keeps it so, whatever
operation it runs. -/
def Obligations.RegistersHoldNoValueWhenIdle : Prop :=
  ∀ s t : State, s.seq = [] → s.regs = Regs.noValue → step s = .next t → t.seq = [] ∧ t.regs = Regs.noValue

/-- O56. The five lines are bound to five distinct pins (00_scope.md R5, decision D32). -/
def Obligations.PinsAreDistinct : Prop :=
  ∀ L M : Line, Config.pin L = Config.pin M → L = M
end

