-- ==== Sys2Proof/Laws/Bytes.lean ====
section
/-! SUPPORT. Laws/Bytes.lean: the two bytes of a word, frames and their 9-bit codes. -/

namespace Sys2Proof

theorem joinBytes_toNat (a b : Byte) : (joinBytes a b).toNat = a.toNat * 256 + b.toNat := by
  have hb := b.isLt
  have h : (joinBytes a b).toNat = (a.toNat <<< 8) ||| b.toNat := BitVec.toNat_append a b
  rw [h, ← Nat.shiftLeft_add_eq_or_of_lt hb, Nat.shiftLeft_eq]

theorem hiByte_toNat (c : Word) : (hiByte c).toNat = c.toNat / 256 := by
  have := c.isLt
  simp only [hiByte, BitVec.extractLsb'_toNat, Nat.shiftRight_eq_div_pow]
  omega

theorem loByte_toNat (c : Word) : (loByte c).toNat = c.toNat % 256 := by
  simp [loByte, BitVec.extractLsb'_toNat]

@[simp] theorem join_hi_lo (c : Word) : joinBytes (hiByte c) (loByte c) = c := by
  apply BitVec.eq_of_toNat_eq
  rw [joinBytes_toNat, hiByte_toNat, loByte_toNat]
  omega

@[simp] theorem hi_join (a b : Byte) : hiByte (joinBytes a b) = a := by
  apply BitVec.eq_of_toNat_eq
  rw [hiByte_toNat, joinBytes_toNat]
  omega

@[simp] theorem lo_join (a b : Byte) : loByte (joinBytes a b) = b := by
  apply BitVec.eq_of_toNat_eq
  rw [loByte_toNat, joinBytes_toNat]
  omega

@[simp] theorem frameOfCode_frameCode (f : Frame) : frameOfCode (frameCode f) = f := by
  obtain ⟨k, b⟩ := f
  cases k <;> revert b <;> decide

@[simp] theorem map_frameOfCode_frameCode (fs : List Frame) : (fs.map frameCode).map frameOfCode = fs := by
  induction fs with
  | nil => rfl
  | cons f fs ih => simp [ih]

theorem frameCode_frameOfCode (c : BitVec 9) : frameCode (frameOfCode c) = c := by
  revert c; decide

@[simp] theorem wireOpOf_wireOpcode (op : WireOp) : wireOpOf (wireOpcode op) = some op := by
  cases op <;> rfl

/-- An opcode that names a command is that command's opcode. -/
theorem wireOpcode_of_wireOpOf {b : Byte} {op : WireOp} (h : wireOpOf b = some op) : wireOpcode op = b := by
  have := List.find?_some h
  simpa using this

@[simp] theorem dataBytes_map_dataFrame (bs : List Byte) : dataBytes (bs.map dataFrame) = some bs := by
  induction bs with
  | nil => rfl
  | cons b bs ih => simp [dataBytes, dataFrame] at ih ⊢; simp [ih]

@[simp] theorem streamWords_streamBytes (ws : List Word) : streamWords (streamBytes ws) = some ws := by
  induction ws with
  | nil => rfl
  | cons w ws ih => simp [streamBytes, wordBytes, streamWords] at ih ⊢; simp [ih]

end Sys2Proof
end

