-- ==== Sys2Proof/Laws/Operands.lean ====
section
/-! SUPPORT. Laws/Operands.lean: the operand checks as propositions over numbers, and the cursor's 32-bit arithmetic. -/

namespace Sys2Proof.Machine

theorem validRect_iff (x y w h : Word) : validRect x y w h = true ↔
    1 ≤ w.toNat ∧ 1 ≤ h.toNat ∧ x.toNat + w.toNat ≤ 240 ∧ y.toNat + h.toNat ≤ 240 := by
  unfold validRect; rw [decide_eq_true_eq]; exact Iff.rfl

theorem onPanel_iff (x y : Word) : onPanel x y = true ↔ x.toNat < 240 ∧ y.toNat < 240 := by
  unfold onPanel; rw [decide_eq_true_eq]; exact Iff.rfl

theorem printable_iff (c : Byte) : printable c = true ↔ 32 ≤ c.toNat ∧ c.toNat ≤ 126 := by
  unfold printable; rw [decide_eq_true_eq]; exact Iff.rfl

theorem pastEdge_iff (c : BitVec 32) : pastEdge c = true ↔ 240 < c.toNat + 8 := by
  unfold pastEdge; rw [decide_eq_true_eq]; exact Iff.rfl

theorem zext32_toNat (v : Word) : (zext32 v).toNat = v.toNat := by
  have := v.isLt
  simp only [zext32, BitVec.toNat_setWidth]; omega

theorem trunc16_eq (c : BitVec 32) : trunc16 c = BitVec.ofNat 16 c.toNat := by
  apply BitVec.eq_of_toNat_eq; simp [trunc16, BitVec.toNat_setWidth]

/-- The end coordinate of a range that is not empty and does not reach 2^16 (30_encoding.md R77). -/
theorem endCoord_toNat {x w : Word} (hw : 1 ≤ w.toNat) (h : x.toNat + w.toNat ≤ 65536) :
    (endCoord x w).toNat = x.toNat + w.toNat - 1 := by
  have := x.isLt
  have h1 : BitVec.toNat (1 : Word) = 1 := rfl
  simp only [endCoord, BitVec.toNat_sub, BitVec.toNat_add, h1]
  omega

end Sys2Proof.Machine
end

