-- ==== Sys2Proof/Laws/State.lean ====
section
/-! SUPPORT. Laws/State.lean: one lemma per field per update of the state, true by rfl, so that no proof unfolds a
record update. -/

namespace Sys2Proof.Machine

variable (s : State)

@[simp] theorem State.line_params (L : Line) (v : Level) : (s.line L v).params = s.params := rfl
@[simp] theorem State.line_lines (L : Line) (v : Level) : (s.line L v).lines = s.lines.drive L v := rfl
@[simp] theorem State.line_regs (L : Line) (v : Level) : (s.line L v).regs = s.regs := rfl
@[simp] theorem State.line_seq (L : Line) (v : Level) : (s.line L v).seq = s.seq := rfl
@[simp] theorem State.line_ready (L : Line) (v : Level) : (s.line L v).ready = s.ready := rfl
@[simp] theorem State.line_status (L : Line) (v : Level) : (s.line L v).status = s.status := rfl
@[simp] theorem State.line_pinLog (L : Line) (v : Level) : (s.line L v).pinLog = .set L v :: s.pinLog := rfl
@[simp] theorem State.line_wire (L : Line) (v : Level) : (s.line L v).wire = sensedWire s.params s.lines s.wire L v := rfl
@[simp] theorem State.line_frameLog (L : Line) (v : Level) : (s.line L v).frameLog = sensed s.params s.lines s.wire L v ++ s.frameLog := rfl
@[simp] theorem State.line_panel (L : Line) (v : Level) : (s.line L v).panel = s.panel.takeAll (sensed s.params s.lines s.wire L v) := rfl
@[simp] theorem State.line_glyphRom (L : Line) (v : Level) : (s.line L v).glyphRom = s.glyphRom := rfl
@[simp] theorem State.line_inbox (L : Line) (v : Level) : (s.line L v).inbox = s.inbox := rfl
@[simp] theorem State.line_cfgAnswers (L : Line) (v : Level) : (s.line L v).cfgAnswers = s.cfgAnswers := rfl
@[simp] theorem State.line_cfgAsked (L : Line) (v : Level) : (s.line L v).cfgAsked = s.cfgAsked := rfl
@[simp] theorem State.line_yieldPoints (L : Line) (v : Level) : (s.line L v).yieldPoints = s.yieldPoints := rfl

@[simp] theorem State.configure_params (L : Line) : (s.configure L).params = s.params := rfl
@[simp] theorem State.configure_lines (L : Line) : (s.configure L).lines = s.lines.configure L := rfl
@[simp] theorem State.configure_regs (L : Line) : (s.configure L).regs = s.regs := rfl
@[simp] theorem State.configure_seq (L : Line) : (s.configure L).seq = s.seq := rfl
@[simp] theorem State.configure_ready (L : Line) : (s.configure L).ready = s.ready := rfl
@[simp] theorem State.configure_status (L : Line) : (s.configure L).status = s.status := rfl
@[simp] theorem State.configure_pinLog (L : Line) : (s.configure L).pinLog = .cfg L :: s.pinLog := rfl
@[simp] theorem State.configure_wire (L : Line) : (s.configure L).wire = s.wire := rfl
@[simp] theorem State.configure_frameLog (L : Line) : (s.configure L).frameLog = s.frameLog := rfl
@[simp] theorem State.configure_panel (L : Line) : (s.configure L).panel = s.panel := rfl
@[simp] theorem State.configure_glyphRom (L : Line) : (s.configure L).glyphRom = s.glyphRom := rfl
@[simp] theorem State.configure_inbox (L : Line) : (s.configure L).inbox = s.inbox := rfl
@[simp] theorem State.configure_cfgAnswers (L : Line) : (s.configure L).cfgAnswers = s.cfgAnswers := rfl
@[simp] theorem State.configure_cfgAsked (L : Line) : (s.configure L).cfgAsked = s.cfgAsked := rfl
@[simp] theorem State.configure_yieldPoints (L : Line) : (s.configure L).yieldPoints = s.yieldPoints := rfl

@[simp] theorem State.settle_params : (s.settle).params = s.params := rfl
@[simp] theorem State.settle_lines : (s.settle).lines = s.lines := rfl
@[simp] theorem State.settle_regs : (s.settle).regs = s.regs := rfl
@[simp] theorem State.settle_seq : (s.settle).seq = s.seq := rfl
@[simp] theorem State.settle_ready : (s.settle).ready = s.ready := rfl
@[simp] theorem State.settle_status : (s.settle).status = s.status := rfl
@[simp] theorem State.settle_pinLog : (s.settle).pinLog = settleEvents s.params.policy ++ s.pinLog := rfl
@[simp] theorem State.settle_wire : (s.settle).wire = s.wire := rfl
@[simp] theorem State.settle_frameLog : (s.settle).frameLog = s.frameLog := rfl
@[simp] theorem State.settle_panel : (s.settle).panel = s.panel := rfl
@[simp] theorem State.settle_glyphRom : (s.settle).glyphRom = s.glyphRom := rfl
@[simp] theorem State.settle_inbox : (s.settle).inbox = s.inbox := rfl
@[simp] theorem State.settle_cfgAnswers : (s.settle).cfgAnswers = s.cfgAnswers := rfl
@[simp] theorem State.settle_cfgAsked : (s.settle).cfgAsked = s.cfgAsked := rfl
@[simp] theorem State.settle_yieldPoints : (s.settle).yieldPoints = s.yieldPoints := rfl

@[simp] theorem State.delay_params (n : Nat) : (s.delay n).params = s.params := rfl
@[simp] theorem State.delay_lines (n : Nat) : (s.delay n).lines = s.lines := rfl
@[simp] theorem State.delay_regs (n : Nat) : (s.delay n).regs = s.regs := rfl
@[simp] theorem State.delay_seq (n : Nat) : (s.delay n).seq = s.seq := rfl
@[simp] theorem State.delay_ready (n : Nat) : (s.delay n).ready = s.ready := rfl
@[simp] theorem State.delay_status (n : Nat) : (s.delay n).status = s.status := rfl
@[simp] theorem State.delay_pinLog (n : Nat) : (s.delay n).pinLog = .wait n :: s.pinLog := rfl
@[simp] theorem State.delay_wire (n : Nat) : (s.delay n).wire = s.wire := rfl
@[simp] theorem State.delay_frameLog (n : Nat) : (s.delay n).frameLog = .wait n :: s.frameLog := rfl
@[simp] theorem State.delay_panel (n : Nat) : (s.delay n).panel = s.panel.take (.wait n) := rfl
@[simp] theorem State.delay_glyphRom (n : Nat) : (s.delay n).glyphRom = s.glyphRom := rfl
@[simp] theorem State.delay_inbox (n : Nat) : (s.delay n).inbox = s.inbox := rfl
@[simp] theorem State.delay_cfgAnswers (n : Nat) : (s.delay n).cfgAnswers = s.cfgAnswers := rfl
@[simp] theorem State.delay_cfgAsked (n : Nat) : (s.delay n).cfgAsked = s.cfgAsked := rfl
@[simp] theorem State.delay_yieldPoints (n : Nat) : (s.delay n).yieldPoints = s.yieldPoints := rfl

@[simp] theorem State.yieldPoint_params : (s.yieldPoint).params = s.params := rfl
@[simp] theorem State.yieldPoint_lines : (s.yieldPoint).lines = s.lines := rfl
@[simp] theorem State.yieldPoint_regs : (s.yieldPoint).regs = s.regs := rfl
@[simp] theorem State.yieldPoint_seq : (s.yieldPoint).seq = s.seq := rfl
@[simp] theorem State.yieldPoint_ready : (s.yieldPoint).ready = s.ready := rfl
@[simp] theorem State.yieldPoint_status : (s.yieldPoint).status = s.status := rfl
@[simp] theorem State.yieldPoint_pinLog : (s.yieldPoint).pinLog = yieldEvents s.params s.yieldPoints ++ s.pinLog := rfl
@[simp] theorem State.yieldPoint_wire : (s.yieldPoint).wire = s.wire := rfl
@[simp] theorem State.yieldPoint_frameLog : (s.yieldPoint).frameLog = s.frameLog := rfl
@[simp] theorem State.yieldPoint_panel : (s.yieldPoint).panel = s.panel := rfl
@[simp] theorem State.yieldPoint_glyphRom : (s.yieldPoint).glyphRom = s.glyphRom := rfl
@[simp] theorem State.yieldPoint_inbox : (s.yieldPoint).inbox = s.inbox := rfl
@[simp] theorem State.yieldPoint_cfgAnswers : (s.yieldPoint).cfgAnswers = s.cfgAnswers := rfl
@[simp] theorem State.yieldPoint_cfgAsked : (s.yieldPoint).cfgAsked = s.cfgAsked := rfl
@[simp] theorem State.yieldPoint_yieldPoints : (s.yieldPoint).yieldPoints = s.yieldPoints + 1 := rfl

@[simp] theorem State.setRegs_params (f : Regs → Regs) : (s.setRegs f).params = s.params := rfl
@[simp] theorem State.setRegs_lines (f : Regs → Regs) : (s.setRegs f).lines = s.lines := rfl
@[simp] theorem State.setRegs_regs (f : Regs → Regs) : (s.setRegs f).regs = f s.regs := rfl
@[simp] theorem State.setRegs_seq (f : Regs → Regs) : (s.setRegs f).seq = s.seq := rfl
@[simp] theorem State.setRegs_ready (f : Regs → Regs) : (s.setRegs f).ready = s.ready := rfl
@[simp] theorem State.setRegs_status (f : Regs → Regs) : (s.setRegs f).status = s.status := rfl
@[simp] theorem State.setRegs_pinLog (f : Regs → Regs) : (s.setRegs f).pinLog = s.pinLog := rfl
@[simp] theorem State.setRegs_wire (f : Regs → Regs) : (s.setRegs f).wire = s.wire := rfl
@[simp] theorem State.setRegs_frameLog (f : Regs → Regs) : (s.setRegs f).frameLog = s.frameLog := rfl
@[simp] theorem State.setRegs_panel (f : Regs → Regs) : (s.setRegs f).panel = s.panel := rfl
@[simp] theorem State.setRegs_glyphRom (f : Regs → Regs) : (s.setRegs f).glyphRom = s.glyphRom := rfl
@[simp] theorem State.setRegs_inbox (f : Regs → Regs) : (s.setRegs f).inbox = s.inbox := rfl
@[simp] theorem State.setRegs_cfgAnswers (f : Regs → Regs) : (s.setRegs f).cfgAnswers = s.cfgAnswers := rfl
@[simp] theorem State.setRegs_cfgAsked (f : Regs → Regs) : (s.setRegs f).cfgAsked = s.cfgAsked := rfl
@[simp] theorem State.setRegs_yieldPoints (f : Regs → Regs) : (s.setRegs f).yieldPoints = s.yieldPoints := rfl

@[simp] theorem State.setSeq_params (q : List Position) : (s.setSeq q).params = s.params := rfl
@[simp] theorem State.setSeq_lines (q : List Position) : (s.setSeq q).lines = s.lines := rfl
@[simp] theorem State.setSeq_regs (q : List Position) : (s.setSeq q).regs = s.regs := rfl
@[simp] theorem State.setSeq_seq (q : List Position) : (s.setSeq q).seq = q := rfl
@[simp] theorem State.setSeq_ready (q : List Position) : (s.setSeq q).ready = s.ready := rfl
@[simp] theorem State.setSeq_status (q : List Position) : (s.setSeq q).status = s.status := rfl
@[simp] theorem State.setSeq_pinLog (q : List Position) : (s.setSeq q).pinLog = s.pinLog := rfl
@[simp] theorem State.setSeq_wire (q : List Position) : (s.setSeq q).wire = s.wire := rfl
@[simp] theorem State.setSeq_frameLog (q : List Position) : (s.setSeq q).frameLog = s.frameLog := rfl
@[simp] theorem State.setSeq_panel (q : List Position) : (s.setSeq q).panel = s.panel := rfl
@[simp] theorem State.setSeq_glyphRom (q : List Position) : (s.setSeq q).glyphRom = s.glyphRom := rfl
@[simp] theorem State.setSeq_inbox (q : List Position) : (s.setSeq q).inbox = s.inbox := rfl
@[simp] theorem State.setSeq_cfgAnswers (q : List Position) : (s.setSeq q).cfgAnswers = s.cfgAnswers := rfl
@[simp] theorem State.setSeq_cfgAsked (q : List Position) : (s.setSeq q).cfgAsked = s.cfgAsked := rfl
@[simp] theorem State.setSeq_yieldPoints (q : List Position) : (s.setSeq q).yieldPoints = s.yieldPoints := rfl

@[simp] theorem State.setReady_params (b : Bool) : (s.setReady b).params = s.params := rfl
@[simp] theorem State.setReady_lines (b : Bool) : (s.setReady b).lines = s.lines := rfl
@[simp] theorem State.setReady_regs (b : Bool) : (s.setReady b).regs = s.regs := rfl
@[simp] theorem State.setReady_seq (b : Bool) : (s.setReady b).seq = s.seq := rfl
@[simp] theorem State.setReady_ready (b : Bool) : (s.setReady b).ready = b := rfl
@[simp] theorem State.setReady_status (b : Bool) : (s.setReady b).status = s.status := rfl
@[simp] theorem State.setReady_pinLog (b : Bool) : (s.setReady b).pinLog = s.pinLog := rfl
@[simp] theorem State.setReady_wire (b : Bool) : (s.setReady b).wire = s.wire := rfl
@[simp] theorem State.setReady_frameLog (b : Bool) : (s.setReady b).frameLog = s.frameLog := rfl
@[simp] theorem State.setReady_panel (b : Bool) : (s.setReady b).panel = s.panel := rfl
@[simp] theorem State.setReady_glyphRom (b : Bool) : (s.setReady b).glyphRom = s.glyphRom := rfl
@[simp] theorem State.setReady_inbox (b : Bool) : (s.setReady b).inbox = s.inbox := rfl
@[simp] theorem State.setReady_cfgAnswers (b : Bool) : (s.setReady b).cfgAnswers = s.cfgAnswers := rfl
@[simp] theorem State.setReady_cfgAsked (b : Bool) : (s.setReady b).cfgAsked = s.cfgAsked := rfl
@[simp] theorem State.setReady_yieldPoints (b : Bool) : (s.setReady b).yieldPoints = s.yieldPoints := rfl

@[simp] theorem State.setStatus_params (v : Status) : (s.setStatus v).params = s.params := rfl
@[simp] theorem State.setStatus_lines (v : Status) : (s.setStatus v).lines = s.lines := rfl
@[simp] theorem State.setStatus_regs (v : Status) : (s.setStatus v).regs = s.regs := rfl
@[simp] theorem State.setStatus_seq (v : Status) : (s.setStatus v).seq = s.seq := rfl
@[simp] theorem State.setStatus_ready (v : Status) : (s.setStatus v).ready = s.ready := rfl
@[simp] theorem State.setStatus_status (v : Status) : (s.setStatus v).status = some v := rfl
@[simp] theorem State.setStatus_pinLog (v : Status) : (s.setStatus v).pinLog = s.pinLog := rfl
@[simp] theorem State.setStatus_wire (v : Status) : (s.setStatus v).wire = s.wire := rfl
@[simp] theorem State.setStatus_frameLog (v : Status) : (s.setStatus v).frameLog = s.frameLog := rfl
@[simp] theorem State.setStatus_panel (v : Status) : (s.setStatus v).panel = s.panel := rfl
@[simp] theorem State.setStatus_glyphRom (v : Status) : (s.setStatus v).glyphRom = s.glyphRom := rfl
@[simp] theorem State.setStatus_inbox (v : Status) : (s.setStatus v).inbox = s.inbox := rfl
@[simp] theorem State.setStatus_cfgAnswers (v : Status) : (s.setStatus v).cfgAnswers = s.cfgAnswers := rfl
@[simp] theorem State.setStatus_cfgAsked (v : Status) : (s.setStatus v).cfgAsked = s.cfgAsked := rfl
@[simp] theorem State.setStatus_yieldPoints (v : Status) : (s.setStatus v).yieldPoints = s.yieldPoints := rfl

@[simp] theorem State.cfgRead_params : (s.cfgRead).params = s.params := rfl
@[simp] theorem State.cfgRead_lines : (s.cfgRead).lines = s.lines := rfl
@[simp] theorem State.cfgRead_regs : (s.cfgRead).regs = s.regs := rfl
@[simp] theorem State.cfgRead_seq : (s.cfgRead).seq = s.seq := rfl
@[simp] theorem State.cfgRead_ready : (s.cfgRead).ready = s.ready := rfl
@[simp] theorem State.cfgRead_status : (s.cfgRead).status = s.status := rfl
@[simp] theorem State.cfgRead_pinLog : (s.cfgRead).pinLog = s.pinLog := rfl
@[simp] theorem State.cfgRead_wire : (s.cfgRead).wire = s.wire := rfl
@[simp] theorem State.cfgRead_frameLog : (s.cfgRead).frameLog = s.frameLog := rfl
@[simp] theorem State.cfgRead_panel : (s.cfgRead).panel = s.panel := rfl
@[simp] theorem State.cfgRead_glyphRom : (s.cfgRead).glyphRom = s.glyphRom := rfl
@[simp] theorem State.cfgRead_inbox : (s.cfgRead).inbox = s.inbox := rfl
@[simp] theorem State.cfgRead_cfgAnswers : (s.cfgRead).cfgAnswers = s.cfgAnswers.tail := rfl
@[simp] theorem State.cfgRead_cfgAsked : (s.cfgRead).cfgAsked = s.cfgAsked + 1 := rfl
@[simp] theorem State.cfgRead_yieldPoints : (s.cfgRead).yieldPoints = s.yieldPoints := rfl

@[simp] theorem Lines.drive_sck_sck_lvl (l : Lines) (v : Level) : (l.drive .sck v).sck.lvl = some v := rfl
@[simp] theorem Lines.drive_sck_sda_lvl (l : Lines) (v : Level) : (l.drive .sck v).sda.lvl = l.sda.lvl := rfl
@[simp] theorem Lines.drive_sck_dc_lvl (l : Lines) (v : Level) : (l.drive .sck v).dc.lvl = l.dc.lvl := rfl
@[simp] theorem Lines.drive_sck_rst_lvl (l : Lines) (v : Level) : (l.drive .sck v).rst.lvl = l.rst.lvl := rfl
@[simp] theorem Lines.drive_sck_bl_lvl (l : Lines) (v : Level) : (l.drive .sck v).bl.lvl = l.bl.lvl := rfl
@[simp] theorem Lines.drive_sda_sck_lvl (l : Lines) (v : Level) : (l.drive .sda v).sck.lvl = l.sck.lvl := rfl
@[simp] theorem Lines.drive_sda_sda_lvl (l : Lines) (v : Level) : (l.drive .sda v).sda.lvl = some v := rfl
@[simp] theorem Lines.drive_sda_dc_lvl (l : Lines) (v : Level) : (l.drive .sda v).dc.lvl = l.dc.lvl := rfl
@[simp] theorem Lines.drive_sda_rst_lvl (l : Lines) (v : Level) : (l.drive .sda v).rst.lvl = l.rst.lvl := rfl
@[simp] theorem Lines.drive_sda_bl_lvl (l : Lines) (v : Level) : (l.drive .sda v).bl.lvl = l.bl.lvl := rfl
@[simp] theorem Lines.drive_dc_sck_lvl (l : Lines) (v : Level) : (l.drive .dc v).sck.lvl = l.sck.lvl := rfl
@[simp] theorem Lines.drive_dc_sda_lvl (l : Lines) (v : Level) : (l.drive .dc v).sda.lvl = l.sda.lvl := rfl
@[simp] theorem Lines.drive_dc_dc_lvl (l : Lines) (v : Level) : (l.drive .dc v).dc.lvl = some v := rfl
@[simp] theorem Lines.drive_dc_rst_lvl (l : Lines) (v : Level) : (l.drive .dc v).rst.lvl = l.rst.lvl := rfl
@[simp] theorem Lines.drive_dc_bl_lvl (l : Lines) (v : Level) : (l.drive .dc v).bl.lvl = l.bl.lvl := rfl
@[simp] theorem Lines.drive_rst_sck_lvl (l : Lines) (v : Level) : (l.drive .rst v).sck.lvl = l.sck.lvl := rfl
@[simp] theorem Lines.drive_rst_sda_lvl (l : Lines) (v : Level) : (l.drive .rst v).sda.lvl = l.sda.lvl := rfl
@[simp] theorem Lines.drive_rst_dc_lvl (l : Lines) (v : Level) : (l.drive .rst v).dc.lvl = l.dc.lvl := rfl
@[simp] theorem Lines.drive_rst_rst_lvl (l : Lines) (v : Level) : (l.drive .rst v).rst.lvl = some v := rfl
@[simp] theorem Lines.drive_rst_bl_lvl (l : Lines) (v : Level) : (l.drive .rst v).bl.lvl = l.bl.lvl := rfl
@[simp] theorem Lines.drive_bl_sck_lvl (l : Lines) (v : Level) : (l.drive .bl v).sck.lvl = l.sck.lvl := rfl
@[simp] theorem Lines.drive_bl_sda_lvl (l : Lines) (v : Level) : (l.drive .bl v).sda.lvl = l.sda.lvl := rfl
@[simp] theorem Lines.drive_bl_dc_lvl (l : Lines) (v : Level) : (l.drive .bl v).dc.lvl = l.dc.lvl := rfl
@[simp] theorem Lines.drive_bl_rst_lvl (l : Lines) (v : Level) : (l.drive .bl v).rst.lvl = l.rst.lvl := rfl
@[simp] theorem Lines.drive_bl_bl_lvl (l : Lines) (v : Level) : (l.drive .bl v).bl.lvl = some v := rfl
@[simp] theorem Lines.configure_sck_sck_cfg (l : Lines) : (l.configure .sck).sck.cfg = true := rfl
@[simp] theorem Lines.configure_sck_sda_cfg (l : Lines) : (l.configure .sck).sda.cfg = l.sda.cfg := rfl
@[simp] theorem Lines.configure_sck_dc_cfg (l : Lines) : (l.configure .sck).dc.cfg = l.dc.cfg := rfl
@[simp] theorem Lines.configure_sck_rst_cfg (l : Lines) : (l.configure .sck).rst.cfg = l.rst.cfg := rfl
@[simp] theorem Lines.configure_sck_bl_cfg (l : Lines) : (l.configure .sck).bl.cfg = l.bl.cfg := rfl
@[simp] theorem Lines.configure_sda_sck_cfg (l : Lines) : (l.configure .sda).sck.cfg = l.sck.cfg := rfl
@[simp] theorem Lines.configure_sda_sda_cfg (l : Lines) : (l.configure .sda).sda.cfg = true := rfl
@[simp] theorem Lines.configure_sda_dc_cfg (l : Lines) : (l.configure .sda).dc.cfg = l.dc.cfg := rfl
@[simp] theorem Lines.configure_sda_rst_cfg (l : Lines) : (l.configure .sda).rst.cfg = l.rst.cfg := rfl
@[simp] theorem Lines.configure_sda_bl_cfg (l : Lines) : (l.configure .sda).bl.cfg = l.bl.cfg := rfl
@[simp] theorem Lines.configure_dc_sck_cfg (l : Lines) : (l.configure .dc).sck.cfg = l.sck.cfg := rfl
@[simp] theorem Lines.configure_dc_sda_cfg (l : Lines) : (l.configure .dc).sda.cfg = l.sda.cfg := rfl
@[simp] theorem Lines.configure_dc_dc_cfg (l : Lines) : (l.configure .dc).dc.cfg = true := rfl
@[simp] theorem Lines.configure_dc_rst_cfg (l : Lines) : (l.configure .dc).rst.cfg = l.rst.cfg := rfl
@[simp] theorem Lines.configure_dc_bl_cfg (l : Lines) : (l.configure .dc).bl.cfg = l.bl.cfg := rfl
@[simp] theorem Lines.configure_rst_sck_cfg (l : Lines) : (l.configure .rst).sck.cfg = l.sck.cfg := rfl
@[simp] theorem Lines.configure_rst_sda_cfg (l : Lines) : (l.configure .rst).sda.cfg = l.sda.cfg := rfl
@[simp] theorem Lines.configure_rst_dc_cfg (l : Lines) : (l.configure .rst).dc.cfg = l.dc.cfg := rfl
@[simp] theorem Lines.configure_rst_rst_cfg (l : Lines) : (l.configure .rst).rst.cfg = true := rfl
@[simp] theorem Lines.configure_rst_bl_cfg (l : Lines) : (l.configure .rst).bl.cfg = l.bl.cfg := rfl
@[simp] theorem Lines.configure_bl_sck_cfg (l : Lines) : (l.configure .bl).sck.cfg = l.sck.cfg := rfl
@[simp] theorem Lines.configure_bl_sda_cfg (l : Lines) : (l.configure .bl).sda.cfg = l.sda.cfg := rfl
@[simp] theorem Lines.configure_bl_dc_cfg (l : Lines) : (l.configure .bl).dc.cfg = l.dc.cfg := rfl
@[simp] theorem Lines.configure_bl_rst_cfg (l : Lines) : (l.configure .bl).rst.cfg = l.rst.cfg := rfl
@[simp] theorem Lines.configure_bl_bl_cfg (l : Lines) : (l.configure .bl).bl.cfg = true := rfl
@[simp] theorem Lines.drive_sck_cfg (L : Line) (v : Level) (l : Lines) : (l.drive L v).sck.cfg = l.sck.cfg := by cases L <;> rfl
@[simp] theorem Lines.configure_sck_lvl (L : Line) (l : Lines) : (l.configure L).sck.lvl = l.sck.lvl := by cases L <;> rfl
@[simp] theorem Lines.drive_sda_cfg (L : Line) (v : Level) (l : Lines) : (l.drive L v).sda.cfg = l.sda.cfg := by cases L <;> rfl
@[simp] theorem Lines.configure_sda_lvl (L : Line) (l : Lines) : (l.configure L).sda.lvl = l.sda.lvl := by cases L <;> rfl
@[simp] theorem Lines.drive_dc_cfg (L : Line) (v : Level) (l : Lines) : (l.drive L v).dc.cfg = l.dc.cfg := by cases L <;> rfl
@[simp] theorem Lines.configure_dc_lvl (L : Line) (l : Lines) : (l.configure L).dc.lvl = l.dc.lvl := by cases L <;> rfl
@[simp] theorem Lines.drive_rst_cfg (L : Line) (v : Level) (l : Lines) : (l.drive L v).rst.cfg = l.rst.cfg := by cases L <;> rfl
@[simp] theorem Lines.configure_rst_lvl (L : Line) (l : Lines) : (l.configure L).rst.lvl = l.rst.lvl := by cases L <;> rfl
@[simp] theorem Lines.drive_bl_cfg (L : Line) (v : Level) (l : Lines) : (l.drive L v).bl.cfg = l.bl.cfg := by cases L <;> rfl
@[simp] theorem Lines.configure_bl_lvl (L : Line) (l : Lines) : (l.configure L).bl.lvl = l.bl.lvl := by cases L <;> rfl

/-! ### An operation issued from outside -/

@[simp] theorem State.issue_regs (s : State) (f : State → State) : (s.issue f).regs = Regs.noValue := rfl
@[simp] theorem State.issue_params (s : State) (f : State → State) : (s.issue f).params = (f s).params := rfl
@[simp] theorem State.issue_lines (s : State) (f : State → State) : (s.issue f).lines = (f s).lines := rfl
@[simp] theorem State.issue_seq (s : State) (f : State → State) : (s.issue f).seq = (f s).seq := rfl
@[simp] theorem State.issue_ready (s : State) (f : State → State) : (s.issue f).ready = (f s).ready := rfl
@[simp] theorem State.issue_status (s : State) (f : State → State) : (s.issue f).status = (f s).status := rfl
@[simp] theorem State.issue_pinLog (s : State) (f : State → State) : (s.issue f).pinLog = (f s).pinLog := rfl
@[simp] theorem State.issue_wire (s : State) (f : State → State) : (s.issue f).wire = (f s).wire := rfl
@[simp] theorem State.issue_frameLog (s : State) (f : State → State) : (s.issue f).frameLog = (f s).frameLog := rfl
@[simp] theorem State.issue_panel (s : State) (f : State → State) : (s.issue f).panel = (f s).panel := rfl
@[simp] theorem State.issue_glyphRom (s : State) (f : State → State) : (s.issue f).glyphRom = (f s).glyphRom := rfl
@[simp] theorem State.issue_inbox (s : State) (f : State → State) : (s.issue f).inbox = (f s).inbox := rfl
@[simp] theorem State.issue_cfgAnswers (s : State) (f : State → State) : (s.issue f).cfgAnswers = (f s).cfgAnswers := rfl
@[simp] theorem State.issue_cfgAsked (s : State) (f : State → State) : (s.issue f).cfgAsked = (f s).cfgAsked := rfl
@[simp] theorem State.issue_yieldPoints (s : State) (f : State → State) : (s.issue f).yieldPoints = (f s).yieldPoints := rfl
@[simp] theorem State.issue_pinTrace (s : State) (f : State → State) : (s.issue f).pinTrace = (f s).pinTrace := rfl
@[simp] theorem State.issue_frameTrace (s : State) (f : State → State) : (s.issue f).frameTrace = (f s).frameTrace := rfl

end Sys2Proof.Machine
end

