-- ==== Sys2Proof/Laws/Wire.lean ====
section
/-! SUPPORT. Laws/Wire.lean: what one bit cell and one byte do, once and for all: the events, the levels, the frame the
wire carries and what the panel makes of it. -/

namespace Sys2Proof.Machine

@[simp] theorem Panel.takeAll_nil (p : Panel) : p.takeAll [] = p := rfl

@[simp] theorem Panel.takeAll_cons (e : Elem) (es : List Elem) (p : Panel) :
    p.takeAll (e :: es) = (p.take e).takeAll es := rfl

theorem Panel.takeAll_append (es fs : List Elem) (p : Panel) : p.takeAll (es ++ fs) = (p.takeAll es).takeAll fs := by
  simp [Panel.takeAll]

/-- The elements a bit gives. -/
def cellElems (k : FrameKind) (w : Wire) (b : Level) : List Elem :=
  if w.n + 1 = 8 then [.frame ⟨k, shiftIn w.acc b⟩] else []

/-- What one bit cell does, whatever the levels before it. -/
theorem State.bitCell_eq (s : State) (b : Level) : s.bitCell b =
    { s with
      lines := { s.lines with sck := { s.lines.sck with lvl := some true }, sda := { s.lines.sda with lvl := some b } }
      pinLog := (cellEvents s.params.policy b).reverse ++ s.pinLog
      wire := wireShift b s.wire
      frameLog := cellElems (kindOf s.params s.lines.dc.lvl) s.wire b ++ s.frameLog
      panel := s.panel.takeAll (cellElems (kindOf s.params s.lines.dc.lvl) s.wire b) } := by
  cases hp : s.params.policy <;>
    simp [State.bitCell, State.line, State.settle, sensed, sensedWire, Lines.drive, settleEvents, cellEvents, hp,
      cellElems]

theorem shiftIn_eight (v acc : Byte) :
    shiftIn (shiftIn (shiftIn (shiftIn (shiftIn (shiftIn (shiftIn (shiftIn acc (v.getLsbD 7)) (v.getLsbD 6))
      (v.getLsbD 5)) (v.getLsbD 4)) (v.getLsbD 3)) (v.getLsbD 2)) (v.getLsbD 1)) (v.getLsbD 0) = v := by
  apply BitVec.eq_of_getLsbD_eq
  intro i hi
  have h1 : ∀ (b : Bool) (j : Nat), (if b then (1 : Byte) else 0).getLsbD j = (decide (j = 0) && b) := by
    intro b j
    cases b
    · simp
    · simp [BitVec.getLsbD_one]
  simp only [shiftIn, BitVec.getLsbD_or, BitVec.getLsbD_shiftLeft, h1]
  interval_cases i <;> simp

/-- What `send_byte` does when no byte is half sent: SR and BC, the two lines, the byte's events, and one frame of the
kind DC says, which the panel takes. -/
theorem State.sendByte_eq (s : State) (v : Byte) (hn : s.wire.n = 0) : s.sendByte v =
    { s with
      regs := { s.regs with sr := some v, bc := some 0 }
      lines := { s.lines with sck := { s.lines.sck with lvl := some true },
                              sda := { s.lines.sda with lvl := some (v.getLsbD 0) } }
      pinLog := (byteEvents s.params.policy v).reverse ++ s.pinLog
      wire := { acc := v, n := 0 }
      frameLog := .frame ⟨kindOf s.params s.lines.dc.lvl, v⟩ :: s.frameLog
      panel := s.panel.take (.frame ⟨kindOf s.params s.lines.dc.lvl, v⟩) } := by
  have h8 := shiftIn_eight v s.wire.acc
  simp only [State.sendByte, State.operation, runStatements, State.sendBits, State.bitCell_eq, State.setRegs,
    State.setSeq, cellElems, wireShift, hn]
  simp only [BitVec.getLsbD_eq_getElem, Nat.reduceLT] at h8
  simp [byteEvents, h8]

theorem elems_append (fs gs : List Frame) : elems (fs ++ gs) = elems fs ++ elems gs := by simp [elems]

theorem streamFrames_cons (c : Word) (cs : List Word) : streamFrames (c :: cs) = wordFrames c ++ streamFrames cs := by
  simp [streamFrames]

theorem streamFrames_length (cs : List Word) : (elems (streamFrames cs)).length = 2 * cs.length := by
  induction cs with
  | nil => rfl
  | cons c cs ih => rw [streamFrames_cons, elems_append, List.length_append, ih]; simp [elems, wordFrames]; omega

end Sys2Proof.Machine
end

