-- ==== Sys2Proof/Laws/Sent.lean ====
section
/-! SUPPORT. Laws/Sent.lean: what the framing operations do in closed form, and one law for each larger operation: the
frames it sends, what the panel makes of them, and that nothing else of the state changes. -/

namespace Sys2Proof.Machine

@[simp] theorem kindOf_cmd (p : Params) : kindOf p (some p.lvlCmd) = .command := by simp [kindOf]

@[simp] theorem kindOf_data (p : Params) : kindOf p (some p.lvlData) = .data := by
  cases h : p.lvlCmd <;> simp [kindOf, Params.lvlData, h]

theorem State.sendWord_eq (s : State) (v : Word) (hn : s.wire.n = 0) : s.sendWord v =
    { s with
      regs := { s.regs with wr := some v, sr := some (loByte v), bc := some 0 }
      lines := { s.lines with sck := { s.lines.sck with lvl := some true },
                              sda := { s.lines.sda with lvl := some ((loByte v).getLsbD 0) } }
      pinLog := (wordEvents s.params.policy v).reverse ++ s.pinLog
      wire := { acc := loByte v, n := 0 }
      frameLog := .frame ⟨kindOf s.params s.lines.dc.lvl, loByte v⟩ ::
        .frame ⟨kindOf s.params s.lines.dc.lvl, hiByte v⟩ :: s.frameLog
      panel := s.panel.takeAll [.frame ⟨kindOf s.params s.lines.dc.lvl, hiByte v⟩,
        .frame ⟨kindOf s.params s.lines.dc.lvl, loByte v⟩] } := by
  simp [State.sendWord, State.operation, runStatements, State.setRegs, State.setSeq, State.sendByte_eq, hn, wordEvents]

theorem State.sendCommand_eq (s : State) (o : Byte) (hn : s.wire.n = 0) : s.sendCommand o =
    { s with
      regs := { s.regs with sr := some o, bc := some 0 }
      lines := { s.lines with sck := { s.lines.sck with lvl := some true },
                              sda := { s.lines.sda with lvl := some (o.getLsbD 0) },
                              dc := { s.lines.dc with lvl := some s.params.lvlData } }
      pinLog := (commandEvents s.params o).reverse ++ s.pinLog
      wire := { acc := o, n := 0 }
      frameLog := .frame (cmdFrame o) :: s.frameLog
      panel := s.panel.take (.frame (cmdFrame o)) } := by
  simp [State.sendCommand, State.operation, runStatements, State.setSeq, State.line, sensed, sensedWire,
    State.sendByte_eq, hn, commandEvents, Lines.drive, cmdFrame]

theorem State.sendDataByte_eq (s : State) (v : Byte) (hn : s.wire.n = 0) : s.sendDataByte v =
    { s with
      regs := { s.regs with sr := some v, bc := some 0 }
      lines := { s.lines with sck := { s.lines.sck with lvl := some true },
                              sda := { s.lines.sda with lvl := some (v.getLsbD 0) },
                              dc := { s.lines.dc with lvl := some s.params.lvlData } }
      pinLog := (dataByteEvents s.params v).reverse ++ s.pinLog
      wire := { acc := v, n := 0 }
      frameLog := .frame (dataFrame v) :: s.frameLog
      panel := s.panel.take (.frame (dataFrame v)) } := by
  simp [State.sendDataByte, State.operation, runStatements, State.setSeq, State.line, sensed, sensedWire,
    State.sendByte_eq, hn, dataByteEvents, Lines.drive, dataFrame]

theorem State.sendDataWord_eq (s : State) (v : Word) (hn : s.wire.n = 0) : s.sendDataWord v =
    { s with
      regs := { s.regs with wr := some v, sr := some (loByte v), bc := some 0 }
      lines := { s.lines with sck := { s.lines.sck with lvl := some true },
                              sda := { s.lines.sda with lvl := some ((loByte v).getLsbD 0) },
                              dc := { s.lines.dc with lvl := some s.params.lvlData } }
      pinLog := (dataWordEvents s.params v).reverse ++ s.pinLog
      wire := { acc := loByte v, n := 0 }
      frameLog := (elems (wordFrames v)).reverse ++ s.frameLog
      panel := s.panel.takeAll (elems (wordFrames v)) } := by
  simp [State.sendDataWord, State.operation, runStatements, State.setSeq, State.line, sensed, sensedWire,
    State.sendWord_eq, hn, dataWordEvents, Lines.drive, dataFrame,
    wordFrames, elems]

/-- What `set_window` does when no byte is half sent. -/
theorem State.setWindow_eq (s : State) (x y w h : Word) (hn : s.wire.n = 0) : s.setWindow x y w h =
    { s with
      regs := { s.regs with x := some x, y := some y, w := some w, h := some h, xe := some (endCoord x w),
                            ye := some (endCoord y h), wr := some (endCoord y h), sr := some 0x2C, bc := some 0 }
      lines := { s.lines with sck := { s.lines.sck with lvl := some true },
                              sda := { s.lines.sda with lvl := some false },
                              dc := { s.lines.dc with lvl := some s.params.lvlData } }
      pinLog := (windowEvents s.params x y w h).reverse ++ s.pinLog
      wire := { acc := 0x2C, n := 0 }
      frameLog := (elems (windowFrames x y w h)).reverse ++ s.frameLog
      panel := s.panel.takeAll (elems (windowFrames x y w h)) } := by
  simp [State.setWindow, State.operation, runStatements, State.setRegs, State.setSeq, State.sendCommand_eq,
    State.sendDataWord_eq, hn, windowEvents, windowFrames, wireOpcode, elems, wordFrames, Panel.takeAll]

/-- What SDA has after the elements `es`, its level before them being `d`: bit 0 of the last byte (40_transport.md R100,
70_reset_and_hazards.md R216). -/
def sdaAfter (es : List Elem) (d : Option Level) : Option Level :=
  es.foldl (fun d e => match e with
    | .frame f => some (f.byte.getLsbD 0)
    | _ => d) d

theorem sdaAfter_append (es fs : List Elem) (d : Option Level) :
    sdaAfter (es ++ fs) d = sdaAfter fs (sdaAfter es d) := List.foldl_append

theorem sdaAfter_ne_none (es : List Elem) : ∀ d : Option Level, d ≠ none → sdaAfter es d ≠ none := by
  induction es with
  | nil => intro d h; exact h
  | cons e es ih =>
    intro d h
    refine ih _ ?_
    cases e <;> simp [h]

/-- A stream of one color that is not empty leaves bit 0 of the color. -/
theorem sdaAfter_stream (c : Word) (n : Nat) : ∀ d : Option Level, 0 < n →
    sdaAfter (elems (streamFrames (List.replicate n c))) d = some (c.getLsbD 0) := by
  induction n with
  | zero => intro d h; omega
  | succ n ih =>
    intro d _
    rw [List.replicate_succ, streamFrames_cons, elems_append, sdaAfter_append]
    by_cases h : n = 0
    · subst h; simp [sdaAfter, elems, streamFrames, wordFrames, dataFrame, loByte]
    · exact ih _ (by omega)

/-- A valid filled rectangle leaves bit 0 of its color. -/
theorem sdaAfter_fill (x y w h c : Word) (d : Option Level) (hp : 0 < w.toNat * h.toNat) :
    sdaAfter (fillElems x y w h c) d = some (c.getLsbD 0) := by
  rw [fillElems, elems_append, sdaAfter_append, sdaAfter_stream c _ _ hp]

/-- From `s` to `t` exactly the elements `es` have been sent: the frame trace grew by them, the panel took them, and
nothing but the working registers, the sequencer, the pin trace, the wire, SCK, SDA, DC and the count of yield places
has changed; no byte is left half sent and the lines are left at rest if they were so before. -/
structure Sent (s t : State) (es : List Elem) : Prop where
  frames : t.frameLog = es.reverse ++ s.frameLog
  panel : t.panel = s.panel.takeAll es
  wire_n : t.wire.n = 0
  rest : s.LinesRest → t.LinesRest
  params : t.params = s.params
  ready : t.ready = s.ready
  status : t.status = s.status
  glyphRom : t.glyphRom = s.glyphRom
  inbox : t.inbox = s.inbox
  cfgAnswers : t.cfgAnswers = s.cfgAnswers
  cfgAsked : t.cfgAsked = s.cfgAsked
  rst : t.lines.rst = s.lines.rst
  bl : t.lines.bl = s.lines.bl
  sck_cfg : t.lines.sck.cfg = s.lines.sck.cfg
  sda_cfg : t.lines.sda.cfg = s.lines.sda.cfg
  dc_cfg : t.lines.dc.cfg = s.lines.dc.cfg
  sda_lvl : t.lines.sda.lvl = sdaAfter es s.lines.sda.lvl

namespace Sent

variable {s t u : State} {es fs : List Elem}

theorem refl (hn : s.wire.n = 0) : Sent s s [] :=
  ⟨rfl, rfl, hn, id, rfl, rfl, rfl, rfl, rfl, rfl, rfl, rfl, rfl, rfl, rfl, rfl, rfl⟩

theorem trans (h : Sent s t es) (g : Sent t u fs) : Sent s u (es ++ fs) where
  frames := by rw [g.frames, h.frames]; simp
  panel := by rw [g.panel, h.panel, Panel.takeAll_append]
  wire_n := g.wire_n
  rest := fun r => g.rest (h.rest r)
  params := g.params.trans h.params
  ready := g.ready.trans h.ready
  status := g.status.trans h.status
  glyphRom := g.glyphRom.trans h.glyphRom
  inbox := g.inbox.trans h.inbox
  cfgAnswers := g.cfgAnswers.trans h.cfgAnswers
  cfgAsked := g.cfgAsked.trans h.cfgAsked
  rst := g.rst.trans h.rst
  bl := g.bl.trans h.bl
  sck_cfg := g.sck_cfg.trans h.sck_cfg
  sda_cfg := g.sda_cfg.trans h.sda_cfg
  dc_cfg := g.dc_cfg.trans h.dc_cfg
  sda_lvl := by rw [g.sda_lvl, h.sda_lvl, sdaAfter_append]

/-- Registers, the sequencer and yield places may come after, and before. -/
theorem setRegs (h : Sent s t es) (f : Regs → Regs) : Sent s (t.setRegs f) es := { h with }
theorem setSeq (h : Sent s t es) (q : List Position) : Sent s (t.setSeq q) es := { h with }
theorem yieldPoint (h : Sent s t es) : Sent s t.yieldPoint es := { h with }
theorem afterChar (h : Sent s t es) (rest : List Byte) (cur : BitVec 32 × BitVec 32) :
    Sent s (t.afterChar rest cur) es := by
  unfold State.afterChar
  split
  · exact h.setRegs _
  · exact (h.setRegs _).yieldPoint
theorem of_setRegs {f : Regs → Regs} (h : Sent (s.setRegs f) t es) : Sent s t es := { h with }
theorem of_setSeq {q : List Position} (h : Sent (s.setSeq q) t es) : Sent s t es := { h with }

theorem frameTrace (h : Sent s t es) : t.frameTrace = s.frameTrace ++ es := by simp [State.frameTrace, h.frames]

theorem glyphRead (h : Sent s t es) (ch : Byte) (row : Nat) : t.glyphRead ch row = s.glyphRead ch row := by
  simp [State.glyphRead, h.glyphRom]

end Sent

theorem State.sendDataWord_sent (s : State) (v : Word) (hn : s.wire.n = 0) :
    Sent s (s.sendDataWord v) (elems (wordFrames v)) := by
  rw [State.sendDataWord_eq s v hn]
  constructor <;> simp [State.LinesRest, sdaAfter, elems, wordFrames, dataFrame]

theorem State.setWindow_sent (s : State) (x y w h : Word) (hn : s.wire.n = 0) :
    Sent s (s.setWindow x y w h) (elems (windowFrames x y w h)) := by
  rw [State.setWindow_eq s x y w h hn]
  constructor <;> simp [State.LinesRest, sdaAfter, elems, windowFrames, cmdFrame, wireOpcode]

/-- After a window is set the lines are at rest, whatever they were before. -/
theorem State.setWindow_rest (s : State) (x y w h : Word) (hn : s.wire.n = 0) : (s.setWindow x y w h).LinesRest := by
  rw [State.setWindow_eq s x y w h hn]; simp [State.LinesRest]

theorem streamFrames_append (cs ds : List Word) : streamFrames (cs ++ ds) = streamFrames cs ++ streamFrames ds := by
  simp [streamFrames]

/-- The constant color stream sends its words. -/
theorem State.fillWords_sent (c : Word) (n : Nat) : ∀ s : State, s.wire.n = 0 →
    Sent s (s.fillWords c n) (elems (streamFrames (List.replicate n c))) := by
  induction n with
  | zero => intro s hn; exact Sent.refl hn
  | succ n ih =>
    intro s hn
    have h1 := (s.sendDataWord_sent c hn).setRegs fun r => { r with pixcnt := some (BitVec.ofNat 16 n) }
    rw [List.replicate_succ, streamFrames_cons, elems_append, State.fillWords]
    split
    · exact h1.trans (ih _ h1.wire_n)
    · exact h1.yieldPoint.trans (ih _ h1.yieldPoint.wire_n)

/-- From every state with the ROM and the parameters of `r` and no byte half sent, `f` sends `es`. -/
def Sends (r : State) (f : State → State) (es : List Elem) : Prop :=
  ∀ s : State, s.wire.n = 0 → s.glyphRom = r.glyphRom → s.params = r.params → Sent s (f s) es

theorem Sends.setRegs (r : State) (f : Regs → Regs) : Sends r (State.setRegs f) [] :=
  fun _ hn _ _ => (Sent.refl hn).setRegs f

theorem Sends.runStatements {r : State} : ∀ {body : List ((State → State) × List Elem)},
    (∀ p ∈ body, Sends r p.1 p.2) →
    ∀ k, Sends r (runStatements k (body.map Prod.fst)) (body.map Prod.snd).flatten := by
  intro body
  induction body with
  | nil => intro _ k s hn _ _; exact Sent.refl hn
  | cons p rest ih =>
    intro h k s hn hr hp
    have h1 := Sent.of_setSeq (h p List.mem_cons_self (s.setSeq (atPhase k s.seq)) hn hr hp)
    exact h1.trans (ih (fun q hq => h q (List.mem_cons_of_mem _ hq)) (k + 1) _ h1.wire_n (h1.glyphRom.trans hr)
      (h1.params.trans hp))

/-- An operation sends what its statements send, one after another. -/
theorem Sends.operation {r : State} (op : OpName) {body : List ((State → State) × List Elem)}
    (h : ∀ p ∈ body, Sends r p.1 p.2) :
    Sends r (State.operation op (body.map Prod.fst)) (body.map Prod.snd).flatten :=
  fun s hn hr hp => Sent.setSeq (Sent.of_setSeq (Sends.runStatements h 0 (s.setSeq (⟨op, 0⟩ :: s.seq)) hn hr hp)) s.seq

theorem State.fillRect_sent (s : State) (x y w h c : Word) (hn : s.wire.n = 0) (hv : validRect x y w h = true) :
    Sent s (s.fillRect x y w h c) (fillElems x y w h c) := by
  have key := Sends.operation (r := s) .fillRect (body := [
    (State.setWindow x y w h, elems (windowFrames x y w h)),
    (State.setRegs fun r => { r with color := some c }, []),
    (State.setRegs fun r => { r with pixcnt := some (BitVec.ofNat 16 (pixelCount w h)) }, []),
    (State.fillWords c (pixelCount w h), elems (streamFrames (List.replicate (pixelCount w h) c)))]) (by
      simp only [List.forall_mem_cons, List.not_mem_nil, false_implies, implies_true, and_true]
      exact ⟨fun s hn _ _ => s.setWindow_sent x y w h hn, Sends.setRegs _ _, Sends.setRegs _ _,
        fun s hn _ _ => State.fillWords_sent c _ s hn⟩)
  have := key s hn rfl rfl
  rw [State.fillRect, if_pos hv, fillElems, elems_append]
  simpa [pixelCount] using this

/-- A rectangle that fails the check leaves the state as it is. -/
theorem State.fillRect_dropped (s : State) (x y w h c : Word) (hv : validRect x y w h = false) :
    s.fillRect x y w h c = s := by simp [State.fillRect, hv]

end Sys2Proof.Machine
end

