-- ==== Sys2Proof/Laws/Draw.lean ====
section
/-! SUPPORT. Laws/Draw.lean: what the glyph stream, the text layout and the initialisation send. -/

namespace Sys2Proof.Machine

theorem foldl_sent {rom : Memory} {f : State → Nat → State} {g : Nat → List Elem}
    (h : ∀ (t : State) (k : Nat), t.wire.n = 0 → t.glyphRom = rom → Sent t (f t k) (g k)) :
    ∀ (l : List Nat) (s : State), s.wire.n = 0 → s.glyphRom = rom → Sent s (l.foldl f s) (l.flatMap g) := by
  intro l
  induction l with
  | nil => intro s hn _; exact Sent.refl hn
  | cons k l ih =>
    intro s hn hr
    have h1 := h s k hn hr
    exact h1.trans (ih _ h1.wire_n (h1.glyphRom.trans hr))

theorem State.drawColumn_sent (g : Byte) (row : Nat) (fg bg : Word) (s : State) (col : Nat) (hn : s.wire.n = 0) :
    Sent s (State.drawColumn g row fg bg s col) (elems (wordFrames (pixelColor g col fg bg))) := by
  have h1 := Sent.of_setRegs (State.sendDataWord_sent (s.setRegs fun r => { r with col := some (BitVec.ofNat 3 col) })
    (pixelColor g col fg bg) hn)
  unfold State.drawColumn
  split
  · exact h1
  · exact h1.yieldPoint

/-- The frames of one glyph row. -/
def rowElems (g : Byte) (fg bg : Word) : List Elem :=
  [0, 1, 2, 3, 4, 5, 6, 7].flatMap fun c => elems (wordFrames (pixelColor g c fg bg))

theorem State.drawRow_sent (ch : Byte) (fg bg : Word) (s : State) (row : Nat) (hn : s.wire.n = 0) :
    Sent s (State.drawRow ch fg bg s row) (rowElems (s.glyphRead ch row) fg bg) :=
  Sent.of_setRegs (foldl_sent (rom := s.glyphRom)
    (fun t k hn _ => State.drawColumn_sent _ _ _ _ t k hn) _ _ hn rfl)

theorem glyphWords_elems (g : Nat → Byte) (fg bg : Word) :
    elems (streamFrames (glyphWords g fg bg)) = [0, 1, 2, 3, 4, 5, 6, 7].flatMap fun r => rowElems (g r) fg bg := by
  simp [glyphWords, rowElems, elems, streamFrames, pixelColor]

theorem State.drawRows_sent (ch : Byte) (fg bg : Word) (s : State) (hn : s.wire.n = 0) :
    Sent s (s.drawRows ch fg bg) (elems (streamFrames (glyphWords (s.glyphRead ch) fg bg))) := by
  rw [glyphWords_elems]
  refine foldl_sent (rom := s.glyphRom) (fun t k hn hr => ?_) _ s hn rfl
  have : s.glyphRead ch k = t.glyphRead ch k := by simp [State.glyphRead, hr]
  rw [this]
  exact State.drawRow_sent ch fg bg t k hn

theorem State.drawChar_sent (s : State) (x y : Word) (ch : Byte) (fg bg : Word) (hn : s.wire.n = 0)
    (hc : printable ch = true) : Sent s (s.drawChar x y ch fg bg) (charElems (s.glyphRead ch) x y fg bg) := by
  have key := Sends.operation (r := s) .drawChar (body := [
    (State.setRegs fun r => { r with ch := some ch, fg := some fg, bg := some bg }, []),
    (State.setWindow x y 8 8, elems (windowFrames x y 8 8)),
    (State.drawRows ch fg bg, elems (streamFrames (glyphWords (s.glyphRead ch) fg bg)))]) (by
      simp only [List.forall_mem_cons, List.not_mem_nil, false_implies, implies_true, and_true]
      refine ⟨Sends.setRegs _ _, fun t hn _ _ => t.setWindow_sent x y 8 8 hn, fun t hn hr _ => ?_⟩
      have hg : s.glyphRead ch = t.glyphRead ch := by funext r; simp [State.glyphRead, hr]
      rw [hg]
      exact State.drawRows_sent ch fg bg t hn)
  have := key s hn rfl rfl
  rw [State.drawChar, if_pos hc, charElems, elems_append]
  simpa using this

/-- A character that is not printable sends nothing. -/
theorem State.drawChar_dropped (s : State) (x y : Word) (ch : Byte) (fg bg : Word) (hn : s.wire.n = 0)
    (hc : printable ch = false) : Sent s (s.drawChar x y ch fg bg) [] := by
  have key := Sends.operation (r := s) .drawChar (body := [
    (State.setRegs fun r => { r with ch := some ch, fg := some fg, bg := some bg }, [])]) (by
      simp only [List.forall_mem_cons, List.not_mem_nil, false_implies, implies_true, and_true]
      exact Sends.setRegs _ _)
  have := key s hn rfl rfl
  simpa [State.drawChar, hc] using this

/-- The pin trace, too, is untouched by a character that is not printable. -/
theorem State.drawChar_dropped_pinLog (s : State) (x y : Word) (ch : Byte) (fg bg : Word)
    (hc : printable ch = false) : (s.drawChar x y ch fg bg).pinLog = s.pinLog := by
  simp only [State.drawChar, hc, State.operation, runStatements]
  rfl

/-- The text elements depend on the state by its glyphs only. -/
theorem Sent.textElems {s t : State} {es : List Elem} (h : Sent s t es) (fg bg : Word) (cells : List TextCell) :
    textElems t fg bg cells = textElems s fg bg cells := by
  simp only [Machine.textElems]
  congr 1; funext k; congr 1; funext r; exact h.glyphRead _ _

/-- The loop of `draw_string` sends the cells of the text, the cursor being unbounded: no 32-bit addition wraps. -/
theorem State.drawText_sent (x0 fg bg : Word) (text : List Byte) : ∀ (ti : Nat) (cx cy : BitVec 32) (s : State),
    s.wire.n = 0 → cx.toNat < 2 ^ 31 → cy.toNat + 10 * text.length < 2 ^ 32 →
    Sent s (s.drawText x0 fg bg text ti (cx, cy)) (textElems s fg bg (textCells x0.toNat text cx.toNat cy.toNat)) := by
  induction text with
  | nil => intro ti cx cy s hn _ _; exact Sent.refl hn
  | cons c rest ih =>
    intro ti cx cy s hn hx hy
    simp only [List.length_cons] at hy
    have hx0 := x0.isLt
    have hz : (zext32 x0).toNat < 2 ^ 31 := by rw [zext32_toNat]; omega
    have hdown : (cy + BitVec.ofNat 32 Config.lineAdvance).toNat = cy.toNat + 10 := by
      simp only [Config.lineAdvance, BitVec.toNat_add, BitVec.toNat_ofNat]; omega
    have hright : (cx + BitVec.ofNat 32 Config.charAdvance).toNat = cx.toNat + 9 := by
      simp only [Config.charAdvance, BitVec.toNat_add, BitVec.toNat_ofNat]; omega
    have h0 : Sent s (s.setRegs fun r => { r with ti := some (BitVec.ofNat 16 (ti + 1)) }) [] :=
      (Sent.refl hn).setRegs _
    simp only [State.drawText, textCells]
    split
    · have h1 := h0.afterChar rest (zext32 x0, cy + BitVec.ofNat 32 Config.lineAdvance)
      have h2 := h1.trans (ih (ti + 1) (zext32 x0) (cy + BitVec.ofNat 32 Config.lineAdvance) _ h1.wire_n hz
        (by rw [hdown]; omega))
      rw [h1.textElems, zext32_toNat, hdown] at h2
      exact h2
    split
    · have h1 := h0.afterChar rest (zext32 x0, cy)
      have h2 := h1.trans (ih (ti + 1) (zext32 x0) cy _ h1.wire_n hz (by omega))
      rw [h1.textElems, zext32_toNat] at h2
      exact h2
    simp only [pastEdge_iff]
    split
    · exact h0
    rename_i hlow
    -- the cell of this character
    have h1 : Sent s (if 240 < cx.toNat + 8 then s.setRegs fun r => { r with ti := some (BitVec.ofNat 16 (ti + 1)) }
        else (s.setRegs fun r => { r with ti := some (BitVec.ofNat 16 (ti + 1)) }).drawChar (trunc16 cx) (trunc16 cy) c
          fg bg) (textElems s fg bg (if cx.toNat + 8 ≤ 240 ∧ 32 ≤ c.toNat ∧ c.toNat ≤ 126 then
            [⟨cx.toNat, cy.toNat, c⟩] else [])) := by
      by_cases hfit : 240 < cx.toNat + 8
      · rw [if_pos hfit, if_neg (by omega)]; exact h0
      · rw [if_neg hfit]
        by_cases hc : printable c = true
        · have hc' : 32 ≤ c.toNat ∧ c.toNat ≤ 126 := (printable_iff c).mp hc
          rw [if_pos ⟨by omega, hc'⟩]
          have := h0.trans (State.drawChar_sent _ (trunc16 cx) (trunc16 cy) c fg bg h0.wire_n hc)
          simpa [Machine.textElems, trunc16_eq, State.glyphRead] using this
        · have hc' : ¬(32 ≤ c.toNat ∧ c.toNat ≤ 126) := fun h => hc ((printable_iff c).mpr h)
          rw [if_neg (fun h => hc' h.2)]
          exact h0.trans (State.drawChar_dropped _ _ _ c fg bg h0.wire_n (by simpa using hc))
    have hcur : ∀ u : State, Sent s u (textElems s fg bg (if cx.toNat + 8 ≤ 240 ∧ 32 ≤ c.toNat ∧ c.toNat ≤ 126 then
            [⟨cx.toNat, cy.toNat, c⟩] else [])) →
        Sent s (u.drawText x0 fg bg rest (ti + 1) (advanceCursor x0 cx cy)) (textElems s fg bg
          ((if cx.toNat + 8 ≤ 240 ∧ 32 ≤ c.toNat ∧ c.toNat ≤ 126 then [⟨cx.toNat, cy.toNat, c⟩] else []) ++
            (if 240 < cx.toNat + 9 + 8 then textCells x0.toNat rest x0.toNat (cy.toNat + 10)
              else textCells x0.toNat rest (cx.toNat + 9) cy.toNat))) := by
      intro u hu
      have happ : ∀ a b, textElems s fg bg (a ++ b) = textElems s fg bg a ++ textElems s fg bg b := by
        intro a b; simp [Machine.textElems]
      rw [happ]
      refine hu.trans ?_
      rw [← hu.textElems]
      simp only [advanceCursor, pastEdge_iff, hright]
      split
      · have := ih (ti + 1) (zext32 x0) (cy + BitVec.ofNat 32 Config.lineAdvance) u hu.wire_n hz
          (by rw [hdown]; omega)
        rwa [zext32_toNat, hdown] at this
      · have := ih (ti + 1) (cx + BitVec.ofNat 32 Config.charAdvance) cy u hu.wire_n (by rw [hright]; omega)
          (by omega)
        rwa [hright] at this
    exact hcur _ (h1.afterChar rest _)

/-- `draw_string` sends the cells of its text (43_text.md R149). -/
theorem State.drawString_sent (s : State) (x y : Word) (text : List Byte) (fg bg : Word) (hn : s.wire.n = 0)
    (ht : text.length < 65536) : Sent s (s.drawString x y text fg bg)
      (textElems s fg bg (textCells x.toNat text x.toNat y.toNat)) := by
  have hx := x.isLt
  have hy := y.isLt
  have key := Sends.operation (r := s) .drawString (body := [
    (State.setRegs fun r => { r with x0 := some x }, []),
    (State.setCursor (zext32 x, zext32 y), []),
    (State.setRegs fun r => { r with tlen := some (BitVec.ofNat 16 text.length), ti := some 0 }, []),
    (State.drawText x fg bg text 0 (zext32 x, zext32 y),
      textElems s fg bg (textCells x.toNat text x.toNat y.toNat))]) (by
      simp only [List.forall_mem_cons, List.not_mem_nil, false_implies, implies_true, and_true]
      refine ⟨Sends.setRegs _ _, Sends.setRegs _ _, Sends.setRegs _ _, fun t hn hr _ => ?_⟩
      have h1 := State.drawText_sent x fg bg text 0 (zext32 x) (zext32 y) t hn (by rw [zext32_toNat]; omega)
        (by rw [zext32_toNat]; omega)
      have h2 : textElems t fg bg (textCells x.toNat text x.toNat y.toNat) =
          textElems s fg bg (textCells x.toNat text x.toNat y.toNat) := by
        simp only [Machine.textElems]; congr 1; funext k; congr 1; funext r; simp [State.glyphRead, hr]
      rw [zext32_toNat, zext32_toNat, h2] at h1
      exact h1)
  have := key s hn rfl rfl
  simpa [State.drawString] using this

end Sys2Proof.Machine
end

