-- ==== Sys2Proof/Laws/Memory.lean ====
section
/-! SUPPORT. Laws/Memory.lean: what a byte write changes, and that every memory operation keeps the canonical form. -/

namespace Sys2Proof.Machine

theorem Memory.read_write_same (a : Nat) (v : Byte) (m : Memory) : (m.write a v).read a = some v := by
  induction m with
  | nil => simp [Memory.write, Memory.read]
  | cons c m ih =>
    obtain ⟨b, u⟩ := c
    simp only [Memory.write]
    split
    · simp [Memory.read]
    · split
      · simp [Memory.read]
      · rename_i h; simp [Memory.read, h, ih]

theorem Memory.read_write_other {a b : Nat} (h : b ≠ a) (v : Byte) (m : Memory) : (m.write a v).read b = m.read b := by
  induction m with
  | nil => simp [Memory.write, Memory.read, h]
  | cons c m ih =>
    obtain ⟨k, u⟩ := c
    simp only [Memory.write]
    split
    · simp [Memory.read, h]
    · split
      · rename_i hk; subst hk; simp [Memory.read, h]
      · simp [Memory.read, ih]

theorem Memory.above_mono {a b : Nat} (hab : a ≤ b) {m : Memory} (h : m.above b = true) : m.above a = true := by
  cases m with
  | nil => rfl
  | cons c m =>
    obtain ⟨k, u⟩ := c
    simp only [Memory.above, Bool.and_eq_true, decide_eq_true_eq] at h ⊢
    exact ⟨by omega, h.2⟩

theorem Memory.above_write {a k : Nat} (v : Byte) (hk : k < a) {m : Memory} (h : m.above k = true) :
    (m.write a v).above k = true := by
  induction m generalizing k with
  | nil => simp [Memory.write, Memory.above, hk]
  | cons c m ih =>
    obtain ⟨b, u⟩ := c
    simp only [Memory.above, Bool.and_eq_true, decide_eq_true_eq] at h
    simp only [Memory.write]
    split
    · simp only [Memory.above, Bool.and_eq_true, decide_eq_true_eq]; exact ⟨hk, by assumption, h.2⟩
    · split
      · rename_i he; subst he; simp only [Memory.above, Bool.and_eq_true, decide_eq_true_eq]; exact ⟨hk, h.2⟩
      · simp only [Memory.above, Bool.and_eq_true, decide_eq_true_eq]; exact ⟨h.1, ih (by omega) h.2⟩

theorem Memory.all_write {size a : Nat} (v : Byte) (ha : a < size) {m : Memory}
    (h : (m.all fun c => decide (c.1 < size)) = true) : ((m.write a v).all fun c => decide (c.1 < size)) = true := by
  induction m with
  | nil => simp [Memory.write, ha]
  | cons c m ih =>
    obtain ⟨b, u⟩ := c
    simp only [List.all_cons, Bool.and_eq_true, decide_eq_true_eq] at h
    simp only [Memory.write]
    split
    · simp only [List.all_cons, Bool.and_eq_true, decide_eq_true_eq]; exact ⟨ha, h⟩
    · split
      · simp only [List.all_cons, Bool.and_eq_true, decide_eq_true_eq]; exact ⟨ha, h.2⟩
      · simp only [List.all_cons, Bool.and_eq_true, decide_eq_true_eq]; exact ⟨h.1, ih h.2⟩

/-- A byte write inside the memory keeps the canonical form. -/
theorem Memory.write_wf {size a : Nat} (v : Byte) (ha : a < size) {m : Memory} (h : m.wf size = true) :
    (m.write a v).wf size = true := by
  cases m with
  | nil => simp [Memory.write, Memory.wf, Memory.above, ha]
  | cons c m =>
    obtain ⟨b, u⟩ := c
    simp only [Memory.wf, Bool.and_eq_true] at h
    have hall := Memory.all_write v ha h.2
    simp only [Memory.write] at hall ⊢
    split
    · rename_i hb
      simp only [hb, if_true] at hall
      simp only [Memory.wf, Memory.above, Bool.and_eq_true, decide_eq_true_eq]
      exact ⟨⟨hb, h.1⟩, hall⟩
    · rename_i hb
      split
      · rename_i he; subst he
        simp only [hb, if_true, if_false] at hall
        simp only [Memory.wf, Bool.and_eq_true]; exact ⟨h.1, hall⟩
      · rename_i hn
        simp only [hb, hn, if_false] at hall
        simp only [Memory.wf, Bool.and_eq_true]; exact ⟨Memory.above_write v (by omega) h.1, hall⟩

/-- A write of one element of FB inside the panel keeps the canonical form. -/
theorem fbWrite_wf {px py : Nat} (hx : px < Config.panelW) (hy : py < Config.panelH) (c : Word) {fb : Memory}
    (h : fb.wf fbBytes = true) : (fbWrite px py c fb).wf fbBytes = true := by
  simp only [Config.panelW, Config.panelH] at hx hy
  have h1 : fbAddr px py + 1 < fbBytes := by simp only [fbAddr, fbBytes, Config.panelW, Config.panelH]; omega
  exact Memory.write_wf _ h1 (Memory.write_wf _ (by omega) h)

/-- Reading an element of FB after a write of that element. -/
theorem fbRead_fbWrite_same (px py : Nat) (c : Word) (fb : Memory) : fbRead px py (fbWrite px py c fb) = some c := by
  simp only [fbRead, fbWrite]
  rw [Memory.read_write_other (by omega), Memory.read_write_same, Memory.read_write_same]
  simp

/-- Reading any other element of FB after a write inside the panel. -/
theorem fbRead_fbWrite_other {px py qx qy : Nat} (hp : px < Config.panelW) (hq : qx < Config.panelW)
    (h : ¬(qx = px ∧ qy = py)) (c : Word) (fb : Memory) : fbRead qx qy (fbWrite px py c fb) = fbRead qx qy fb := by
  simp only [Config.panelW] at hp hq
  have hne : fbAddr qx qy ≠ fbAddr px py := by
    simp only [fbAddr, Config.panelW]; intro he; apply h; omega
  have h2 : fbAddr qx qy = 2 * (240 * qy + qx) := rfl
  have h3 : fbAddr px py = 2 * (240 * py + px) := rfl
  simp only [fbRead, fbWrite]
  rw [Memory.read_write_other (by omega), Memory.read_write_other (by omega), Memory.read_write_other (by omega),
    Memory.read_write_other (by omega)]

end Sys2Proof.Machine
end

