-- ==== Sys2Proof/Laws/Panel.lean ====
section
/-! SUPPORT. Laws/Panel.lean: what the receiver makes of each command, of an addressing window and of a pixel stream. -/

namespace Sys2Proof.Machine

/-! ### A receiver that has stopped -/

theorem Panel.take_stopped {p : Panel} (h : p.stop ≠ none) (e : Elem) : p.take e = p := by
  unfold Panel.take
  cases hs : p.stop with
  | none => exact absurd hs h
  | some r => rfl

theorem Panel.takeAll_stopped {p : Panel} (h : p.stop ≠ none) (es : List Elem) : p.takeAll es = p := by
  induction es with
  | nil => rfl
  | cons e es ih => rw [Panel.takeAll_cons, Panel.take_stopped h, ih]

/-! ### Every element keeps the canonical form of FB -/

theorem Panel.begin_fb (op : WireOp) (p : Panel) : (p.begin op).fb = p.fb := by cases op <;> rfl

theorem Panel.complete_wf (op : WireOp) (bs : List Byte) {p : Panel} (h : p.fb.wf fbBytes = true) :
    (p.complete op bs).fb.wf fbBytes = true := by
  unfold Panel.complete
  split <;> first | exact h | rfl

theorem Panel.writePixel_wf (c : Word) {p : Panel} (h : p.fb.wf fbBytes = true) :
    (p.writePixel c).fb.wf fbBytes = true := by
  unfold Panel.writePixel
  split
  · split
    · rename_i hxy
      dsimp only
      split
      · exact fbWrite_wf hxy.1 hxy.2 c h
      · split <;> exact fbWrite_wf hxy.1 hxy.2 c h
    · rfl
  · rfl

theorem Panel.take_wf (e : Elem) {p : Panel} (h : p.fb.wf fbBytes = true) : (p.take e).fb.wf fbBytes = true := by
  unfold Panel.take
  split
  · exact h
  cases e with
  | hwReset => rfl
  | wait n => exact h
  | noLevel => rfl
  | hwRelease => simp only [Panel.receive, Panel.release]; split <;> first | exact h | rfl
  | frame f =>
    simp only [Panel.receive, Panel.frame]
    split
    · rfl
    split
    · rfl
    split
    · simp only [Panel.command]
      split
      · rfl
      · rfl
      · split
        · rw [Panel.begin_fb]; exact h
        · rfl
    · simp only [Panel.data]
      split
      · split
        · exact Panel.complete_wf _ _ h
        · exact h
      · simp only [Panel.pixelData]
        split
        · split
          · exact h
          · split
            · exact Panel.writePixel_wf _ h
            · rfl
        · rfl
      · rfl
      · rfl

theorem Panel.takeAll_wf (es : List Elem) : ∀ {p : Panel}, p.fb.wf fbBytes = true →
    (p.takeAll es).fb.wf fbBytes = true := by
  induction es with
  | nil => intro p h; exact h
  | cons e es ih => intro p h; exact ih (Panel.take_wf e h)

/-! ### Commands at a receiver that hears them -/

/-- What `hears` says, field by field. -/
theorem Panel.hears_iff (p : Panel) : p.hears = true ↔ p.stop = none ∧ p.held = false ∧ p.owed = 0 ∧
    (p.mode = some .idle ∨ p.mode = some (.pixel none) ∨ p.mode = some .exhausted) := by
  unfold Panel.hears
  cases p.stop <;> cases p.held <;> simp
  intro _
  split <;> simp_all

/-- A command frame with one of the ten opcodes begins its command. -/
theorem Panel.take_command {p : Panel} (h : p.hears = true) (op : WireOp) :
    p.take (.frame (cmdFrame (wireOpcode op))) = p.begin op := by
  obtain ⟨hs, hh, ho, hm⟩ := (Panel.hears_iff p).mp h
  rcases hm with hm | hm | hm <;>
    simp [Panel.take, hs, Panel.receive, Panel.frame, hm, hh, ho, cmdFrame, Panel.command]

/-- An operand byte that is not the last. -/
theorem Panel.take_operand {p : Panel} (hs : p.stop = none) (hh : p.held = false) (ho : p.owed = 0) {op : WireOp}
    {got : List Byte} (v : Byte) (hl : (got ++ [v]).length ≠ nops op) :
    ({ p with mode := some (.operands op got) } : Panel).take (.frame (dataFrame v)) =
      { p with mode := some (.operands op (got ++ [v])) } := by
  simp only [Panel.take, hs, Panel.receive, Panel.frame, hh, ho, dataFrame, Panel.data]
  rw [if_neg (by simp), if_neg hl]

/-- The last operand byte completes the command. -/
theorem Panel.take_last {p : Panel} (hs : p.stop = none) (hh : p.held = false) (ho : p.owed = 0) {op : WireOp}
    {got : List Byte} (v : Byte) (hl : (got ++ [v]).length = nops op) :
    ({ p with mode := some (.operands op got) } : Panel).take (.frame (dataFrame v)) =
      ({ p with mode := some (.operands op got) } : Panel).complete op (got ++ [v]) := by
  simp only [Panel.take, hs, Panel.receive, Panel.frame, hh, ho, dataFrame, Panel.data]
  rw [if_neg (by simp), if_pos hl]

theorem Panel.takeAll_caset {p : Panel} (h : p.hears = true) (xs xe : Word) :
    p.takeAll (elems (commandFrames .caset (wordBytes xs ++ wordBytes xe))) = p.caset xs xe := by
  obtain ⟨hs, hh, ho, -⟩ := (Panel.hears_iff p).mp h
  simp only [commandFrames, elems, wordBytes, List.map, List.cons_append, List.nil_append, Panel.takeAll_cons,
    Panel.takeAll_nil, Panel.take_command h, Panel.begin]
  rw [Panel.take_operand hs hh ho _ (by simp [nops]), Panel.take_operand hs hh ho _ (by simp [nops]),
    Panel.take_operand hs hh ho _ (by simp [nops]), Panel.take_last hs hh ho _ (by simp [nops])]
  simp [Panel.complete, Panel.caset]

theorem Panel.takeAll_raset {p : Panel} (h : p.hears = true) (ys ye : Word) :
    p.takeAll (elems (commandFrames .raset (wordBytes ys ++ wordBytes ye))) = p.raset ys ye := by
  obtain ⟨hs, hh, ho, -⟩ := (Panel.hears_iff p).mp h
  simp only [commandFrames, elems, wordBytes, List.map, List.cons_append, List.nil_append, Panel.takeAll_cons,
    Panel.takeAll_nil, Panel.take_command h, Panel.begin]
  rw [Panel.take_operand hs hh ho _ (by simp [nops]), Panel.take_operand hs hh ho _ (by simp [nops]),
    Panel.take_operand hs hh ho _ (by simp [nops]), Panel.take_last hs hh ho _ (by simp [nops])]
  simp [Panel.complete, Panel.raset]

theorem Panel.takeAll_madctl {p : Panel} (h : p.hears = true) (m : Byte) :
    p.takeAll (elems (commandFrames .madctl [m])) = p.madctlSet m := by
  obtain ⟨hs, hh, ho, -⟩ := (Panel.hears_iff p).mp h
  simp only [commandFrames, elems, List.map, Panel.takeAll_cons, Panel.takeAll_nil, Panel.take_command h, Panel.begin]
  rw [Panel.take_last hs hh ho _ (by simp [nops])]
  simp [Panel.complete, Panel.madctlSet]

theorem Panel.takeAll_colmod {p : Panel} (h : p.hears = true) (m : Byte) :
    p.takeAll (elems (commandFrames .colmod [m])) = p.colmodSet m := by
  obtain ⟨hs, hh, ho, -⟩ := (Panel.hears_iff p).mp h
  simp only [commandFrames, elems, List.map, Panel.takeAll_cons, Panel.takeAll_nil, Panel.take_command h, Panel.begin]
  rw [Panel.take_last hs hh ho _ (by simp [nops])]
  simp [Panel.complete, Panel.colmodSet]

theorem Panel.hears_caset {p : Panel} (h : p.hears = true) (xs xe : Word) : (p.caset xs xe).hears = true := by
  obtain ⟨hs, hh, ho, -⟩ := (Panel.hears_iff p).mp h
  exact (Panel.hears_iff _).mpr ⟨hs, hh, ho, .inl rfl⟩

theorem Panel.hears_raset {p : Panel} (h : p.hears = true) (ys ye : Word) : (p.raset ys ye).hears = true := by
  obtain ⟨hs, hh, ho, -⟩ := (Panel.hears_iff p).mp h
  exact (Panel.hears_iff _).mpr ⟨hs, hh, ho, .inl rfl⟩

/-- An addressing window: the window, the cursor at its origin, pixel mode. -/
theorem Panel.takeAll_window {p : Panel} (h : p.hears = true) (x y w hh : Word) :
    p.takeAll (elems (windowFrames x y w hh)) =
      (((p.caset x (endCoord x w)).raset y (endCoord y hh))).ramwr := by
  have e : elems (windowFrames x y w hh) = elems (commandFrames .caset (wordBytes x ++ wordBytes (endCoord x w))) ++
      (elems (commandFrames .raset (wordBytes y ++ wordBytes (endCoord y hh))) ++
        [.frame (cmdFrame (wireOpcode .ramwr))]) := rfl
  rw [e, Panel.takeAll_append, Panel.takeAll_append, Panel.takeAll_caset h,
    Panel.takeAll_raset (Panel.hears_caset h _ _), Panel.takeAll_cons,
    Panel.take_command (Panel.hears_raset (Panel.hears_caset h _ _) _ _)]
  rfl

/-! ### Pixel streams -/

/-- One color word while the receiver waits for one. -/
theorem Panel.takeAll_word {p : Panel} (hs : p.stop = none) (hh : p.held = false) (ho : p.owed = 0)
    (hm : p.mode = some (.pixel none)) (hf : p.formatOk = true) (hw : p.windowOk = true) (c : Word) :
    p.takeAll (elems (wordFrames c)) = p.writePixel c := by
  have h1 : p.take (.frame (dataFrame (hiByte c))) = { p with mode := some (.pixel (some (hiByte c))) } := by
    simp only [Panel.take, hs, Panel.receive, Panel.frame, hm, hh, ho, dataFrame, Panel.data, Panel.pixelData]
    rw [if_neg (by simp), if_pos hf]
  have h2 : ({ p with mode := some (.pixel (some (hiByte c))) } : Panel).take (.frame (dataFrame (loByte c))) =
      p.writePixel (joinBytes (hiByte c) (loByte c)) := by
    have hf1 : ({ p with mode := some (.pixel (some (hiByte c))) } : Panel).formatOk = true := hf
    have hw1 : ({ p with mode := some (.pixel (some (hiByte c))) } : Panel).windowOk = true := hw
    simp only [Panel.take, hs, Panel.receive, Panel.frame, hh, ho, dataFrame, Panel.data, Panel.pixelData] at hf1 hw1 ⊢
    rw [if_neg (by simp), if_pos (by exact hf), if_pos (by exact hw)]
    unfold Panel.writePixel
    simp only [hs, hh, ho]
  simp only [elems, wordFrames, List.map, Panel.takeAll_cons, Panel.takeAll_nil, h1, h2, join_hi_lo]

/-- The write of one color word, its cursor and window having values. -/
theorem Panel.writePixel_eq {p : Panel} {px py xs xe ye : Word} (hpx : p.px = some px) (hpy : p.py = some py)
    (hxs : p.xs = some xs) (hxe : p.xe = some xe) (hye : p.ye = some ye)
    (hin : px.toNat < Config.panelW ∧ py.toNat < Config.panelH) (c : Word) : p.writePixel c =
      if px.toNat < xe.toNat then
        { p with fb := fbWrite px.toNat py.toNat c p.fb, px := some (px + 1), mode := some (.pixel none) }
      else if py.toNat < ye.toNat then
        { p with fb := fbWrite px.toNat py.toNat c p.fb, px := some xs, py := some (py + 1),
                 mode := some (.pixel none) }
      else { p with fb := fbWrite px.toNat py.toNat c p.fb, mode := some .exhausted } := by
  simp only [Panel.writePixel, hpx, hpy, hxs, hxe, hye]
  rw [if_pos hin]

/-- FB after the words `cs` have been written from place `k` on, in a window `w` wide with its origin at `(x, y)`. -/
def paint (x y w : Nat) : Nat → List Word → Memory → Memory
  | _, [], fb => fb
  | k, c :: cs, fb => paint x y w (k + 1) cs (fbWrite (x + k % w) (y + k / w) c fb)

/-- The receiver is in pixel mode at place `k` of the window with origin `(x, y)`, `w` wide and `h` high. -/
structure Panel.At (p : Panel) (x y w h k : Nat) : Prop where
  stop : p.stop = none
  held : p.held = false
  owed : p.owed = 0
  mode : p.mode = some (.pixel none)
  format : p.formatOk = true
  w_pos : 0 < w
  h_pos : 0 < h
  fit_x : x + w ≤ 240
  fit_y : y + h ≤ 240
  xs : p.xs = some (BitVec.ofNat 16 x)
  xe : p.xe = some (BitVec.ofNat 16 (x + w - 1))
  ys : p.ys = some (BitVec.ofNat 16 y)
  ye : p.ye = some (BitVec.ofNat 16 (y + h - 1))
  px : p.px = some (BitVec.ofNat 16 (x + k % w))
  py : p.py = some (BitVec.ofNat 16 (y + k / w))
  inside : k < w * h

theorem ofNat16_toNat {n : Nat} (h : n < 65536) : (BitVec.ofNat 16 n).toNat = n := by
  simp only [BitVec.toNat_ofNat]; omega

theorem Panel.At.windowOk {p : Panel} {x y w h k : Nat} (a : p.At x y w h k) : p.windowOk = true := by
  have := a.w_pos; have := a.h_pos; have := a.fit_x; have := a.fit_y
  simp only [Panel.windowOk, a.xs, a.xe, a.ys, a.ye, Config.panelW, Config.panelH]
  rw [ofNat16_toNat (by omega), ofNat16_toNat (by omega), ofNat16_toNat (by omega), ofNat16_toNat (by omega)]
  exact decide_eq_true (by omega)

/-- One color word at place `k`: the element is written and the cursor walks on, or the window is exhausted. -/
theorem Panel.At.word {p : Panel} {x y w h k : Nat} (a : p.At x y w h k) (c : Word) :
    let q := p.takeAll (elems (wordFrames c))
    q.fb = fbWrite (x + k % w) (y + k / w) c p.fb ∧
    (k + 1 < w * h → q.At x y w h (k + 1)) ∧
    (k + 1 = w * h → q = { p with fb := q.fb, mode := some .exhausted }) := by
  have hw := a.w_pos; have hh := a.h_pos; have hx := a.fit_x; have hy := a.fit_y; have hk := a.inside
  have hmod : k % w < w := Nat.mod_lt _ hw
  have hdiv : k / w < h := Nat.div_lt_of_lt_mul hk
  have hkw : w * (k / w) + k % w = k := Nat.div_add_mod k w
  simp only
  rw [Panel.takeAll_word a.stop a.held a.owed a.mode a.format a.windowOk]
  have e1 : (BitVec.ofNat 16 (x + k % w)).toNat = x + k % w := ofNat16_toNat (by omega)
  have e2 : (BitVec.ofNat 16 (y + k / w)).toNat = y + k / w := ofNat16_toNat (by omega)
  rw [Panel.writePixel_eq a.px a.py a.xs a.xe a.ye
    (by rw [e1, e2]; simp only [Config.panelW, Config.panelH]; omega), e1, e2,
    ofNat16_toNat (n := x + w - 1) (by omega), ofNat16_toNat (n := y + h - 1) (by omega)]
  split
  · rename_i hlt
    have hm1 : (k + 1) % w = k % w + 1 := by
      rw [Nat.add_mod_of_add_mod_lt] <;> rw [Nat.mod_eq_of_lt (a := 1) (by omega)]
      omega
    have hd1 : (k + 1) / w = k / w := by
      have h1 := Nat.div_add_mod (k + 1) w
      have h2 : w * ((k + 1) / w) = w * (k / w) := by omega
      exact Nat.eq_of_mul_eq_mul_left hw h2
    refine ⟨rfl, fun hn => ?_, fun he => ?_⟩
    · refine ⟨a.stop, a.held, a.owed, rfl, a.format, hw, hh, hx, hy, a.xs, a.xe, a.ys, a.ye, ?_, ?_, hn⟩
      · rw [hm1]; simp only [← Nat.add_assoc]; rw [BitVec.ofNat_add (x + k % w) 1]; rfl
      · rw [hd1]; exact a.py
    · have h1 : (k + 1) % w = 0 := by rw [he]; exact Nat.mul_mod_right w h
      omega
  · rename_i hlt
    have hlast : k % w = w - 1 := by omega
    have hd1 : (k + 1) / w = k / w + 1 := by
      have : k + 1 = w * (k / w + 1) := by rw [Nat.mul_add]; omega
      rw [this, Nat.mul_div_cancel_left _ hw]
    have hm1 : (k + 1) % w = 0 := by
      have : k + 1 = w * (k / w + 1) := by rw [Nat.mul_add]; omega
      rw [this, Nat.mul_mod_right]
    split
    · rename_i hly
      refine ⟨rfl, fun hn => ?_, fun he => ?_⟩
      · refine ⟨a.stop, a.held, a.owed, rfl, a.format, hw, hh, hx, hy, a.xs, a.xe, a.ys, a.ye, ?_, ?_, hn⟩
        · rw [hm1]; rfl
        · rw [hd1]; simp only [← Nat.add_assoc]; rw [BitVec.ofNat_add (y + k / w) 1]; rfl
      · have : w * (k / w + 1) = w * h := by rw [Nat.mul_add]; omega
        have := Nat.eq_of_mul_eq_mul_left hw this
        omega
    · rename_i hly
      refine ⟨rfl, fun hn => ?_, fun he => ?_⟩
      · have h1 : k / w + 1 = h := by omega
        have : k + 1 = w * h := by rw [← h1, Nat.mul_add]; omega
        omega
      · rfl

/-- A stream of words from place `k` on, no longer than the window. -/
theorem Panel.At.stream {x y w h : Nat} (cs : List Word) : ∀ {p : Panel} {k : Nat}, p.At x y w h k →
    k + cs.length ≤ w * h →
    let q := p.takeAll (elems (streamFrames cs))
    q.fb = paint x y w k cs p.fb ∧
    (k + cs.length < w * h → q.At x y w h (k + cs.length)) ∧
    (k + cs.length = w * h → q.stop = none ∧ q.held = false ∧ q.owed = 0 ∧ q.mode = some .exhausted ∧
      q.formatOk = true) := by
  induction cs with
  | nil =>
    intro p k a hl
    have := a.inside
    refine ⟨rfl, fun _ => a, fun h => ?_⟩
    simp only [List.length_nil, Nat.add_zero] at h; omega
  | cons c cs ih =>
    intro p k a hl
    simp only [List.length_cons] at hl
    obtain ⟨h1, h2, h3⟩ := a.word c
    have e : elems (streamFrames (c :: cs)) = elems (wordFrames c) ++ elems (streamFrames cs) := by
      simp [elems, streamFrames]
    simp only [e, Panel.takeAll_append, List.length_cons, paint]
    by_cases hlast : k + 1 < w * h
    · obtain ⟨g1, g2, g3⟩ := ih (h2 hlast) (by omega)
      rw [h1] at g1
      exact ⟨g1, fun hn => by have := g2 (by omega); rwa [Nat.add_assoc, Nat.add_comm 1] at this,
        fun he => g3 (by omega)⟩
    · have hc : cs = [] := by cases cs with
        | nil => rfl
        | cons _ _ => simp only [List.length_cons] at hl; omega
      subst hc
      have h4 := h3 (by omega)
      refine ⟨h1, fun hn => ?_, fun _ => ?_⟩
      · simp only [List.length_nil] at hn; omega
      · have e0 : elems (streamFrames []) = [] := rfl
        rw [e0, Panel.takeAll_nil, h4]
        exact ⟨a.stop, a.held, a.owed, rfl, a.format⟩

/-- An addressing window inside the panel puts a ready receiver at the first place of the window. -/
theorem Panel.At.window {p : Panel} (hr : p.ready = true) {x y w h : Word} (hv : validRect x y w h = true) :
    (p.takeAll (elems (windowFrames x y w h))).At x.toNat y.toNat w.toNat h.toNat 0 ∧
    (p.takeAll (elems (windowFrames x y w h))).fb = p.fb := by
  obtain ⟨hw, hh, hx, hy⟩ := (validRect_iff x y w h).mp hv
  simp only [Panel.ready, Bool.and_eq_true] at hr
  obtain ⟨hs, hd, ho, -⟩ := (Panel.hears_iff p).mp hr.1
  have e : ∀ v : Word, v = BitVec.ofNat 16 v.toNat := fun v => by simp
  rw [Panel.takeAll_window hr.1]
  refine ⟨⟨hs, hd, ho, rfl, hr.2, hw, hh, hx, hy, ?_, ?_, ?_, ?_, ?_, ?_, by positivity⟩, rfl⟩
  · exact congrArg some (e x)
  · rw [← endCoord_toNat hw (by omega)]; exact congrArg some (e _)
  · exact congrArg some (e y)
  · rw [← endCoord_toNat hh (by omega)]; exact congrArg some (e _)
  · simp [Panel.ramwr, Panel.raset, Panel.caset]
  · simp [Panel.ramwr, Panel.raset, Panel.caset]

/-! ### Reading FB after a stream -/

/-- An element no place of the stream falls on is as before. -/
theorem fbRead_paint_other {x y w : Nat} (hw : 0 < w) (hx : x + w ≤ 240) {qx qy : Nat} (hq : qx < 240)
    (cs : List Word) : ∀ (k : Nat) (fb : Memory),
    (∀ j, k ≤ j → j < k + cs.length → ¬(qx = x + j % w ∧ qy = y + j / w)) →
    fbRead qx qy (paint x y w k cs fb) = fbRead qx qy fb := by
  induction cs with
  | nil => intro k fb _; rfl
  | cons c cs ih =>
    intro k fb h
    simp only [List.length_cons] at h
    have hm : k % w < w := Nat.mod_lt _ hw
    rw [paint, ih _ _ (fun j h1 h2 => h j (by omega) (by omega))]
    exact fbRead_fbWrite_other (by simp only [Config.panelW]; omega) hq (h k (by omega) (by omega)) c fb

/-- The element at place `j` of a stream holds the stream's word for it. -/
theorem fbRead_paint_at {x y w : Nat} (hw : 0 < w) (hx : x + w ≤ 240) (cs : List Word) : ∀ (k j : Nat) (fb : Memory)
    (hj : j < cs.length), fbRead (x + (k + j) % w) (y + (k + j) / w) (paint x y w k cs fb) = some cs[j] := by
  induction cs with
  | nil => intro k j fb hj; simp at hj
  | cons c cs ih =>
    intro k j fb hj
    have hm : (k + j) % w < w := Nat.mod_lt _ hw
    cases j with
    | zero =>
      simp only [Nat.add_zero] at hm ⊢
      rw [paint, fbRead_paint_other hw hx (by omega) cs (k + 1)]
      · simp only [List.getElem_cons_zero]; exact fbRead_fbWrite_same _ _ _ _
      · rintro i h1 h2 ⟨ha, hb⟩
        have e1 := Nat.div_add_mod i w
        have e2 := Nat.div_add_mod k w
        have : k / w = i / w := by omega
        rw [this] at e2
        omega
    | succ j =>
      simp only [List.length_cons] at hj
      have := ih (k + 1) j (fbWrite (x + k % w) (y + k / w) c fb) (by omega)
      simp only [List.getElem_cons_succ, paint]
      rw [show k + (j + 1) = k + 1 + j from by omega]
      exact this

/-- A byte of FB outside an element is not changed by a write of the element. -/
theorem Memory.read_fbWrite_outside {a px py : Nat} (h : outsideElement a px py) (c : Word) (fb : Memory) :
    Memory.read a (fbWrite px py c fb) = Memory.read a fb := by
  rw [fbWrite, Memory.read_write_other h.2, Memory.read_write_other h.1]

/-- A byte of FB outside every element of a stream is as before. -/
theorem read_paint_outside {a x y w : Nat} (cs : List Word) : ∀ (k : Nat) (fb : Memory),
    (∀ j, k ≤ j → j < k + cs.length → outsideElement a (x + j % w) (y + j / w)) →
    Memory.read a (paint x y w k cs fb) = Memory.read a fb := by
  induction cs with
  | nil => intro k fb _; rfl
  | cons c cs ih =>
    intro k fb h
    simp only [List.length_cons] at h
    rw [paint, ih _ _ (fun j h1 h2 => h j (by omega) (by omega))]
    exact Memory.read_fbWrite_outside (h k (by omega) (by omega)) c fb

/-- A window inside the panel and a stream that fills it: FB is painted, and the receiver is exhausted and ready for
the next operation. -/
theorem Panel.takeAll_filled {p : Panel} (hr : p.ready = true) {x y w h : Word} (hv : validRect x y w h = true)
    {cs : List Word} (hl : cs.length = w.toNat * h.toNat) :
    let q := p.takeAll (elems (windowFrames x y w h ++ streamFrames cs))
    q.fb = paint x.toNat y.toNat w.toNat 0 cs p.fb ∧ q.stop = none ∧ q.mode = some .exhausted ∧ q.ready = true := by
  obtain ⟨a, hfb⟩ := Panel.At.window hr hv
  obtain ⟨h1, -, h3⟩ := a.stream cs (by omega)
  obtain ⟨g1, g2, g3, g4, g5⟩ := h3 (by omega)
  have e : elems (windowFrames x y w h ++ streamFrames cs) = elems (windowFrames x y w h) ++ elems (streamFrames cs) := by
    simp [elems]
  simp only [e, Panel.takeAll_append]
  refine ⟨by rw [h1, hfb], g1, g4, ?_⟩
  rw [Panel.ready, g5, (Panel.hears_iff _).mpr ⟨g1, g2, g3, .inr (.inr g4)⟩]
  rfl

/-- A filled window, read by coordinates. -/
theorem fbRead_filled {x y w h : Nat} (hw : 0 < w) (hx : x + w ≤ 240) (cs : List Word) (hl : cs.length = w * h)
    (fb : Memory) {px py : Nat} (h1 : x ≤ px) (h2 : px < x + w) (h3 : y ≤ py) (h4 : py < y + h) :
    fbRead px py (paint x y w 0 cs fb) = cs[(py - y) * w + (px - x)]? := by
  have hlt : (py - y) * w + (px - x) < cs.length := by
    rw [hl]
    have : (py - y + 1) * w ≤ h * w := Nat.mul_le_mul_right _ (by omega)
    rw [Nat.add_mul] at this; rw [Nat.mul_comm w h]; omega
  have := fbRead_paint_at (x := x) (y := y) hw hx cs 0 ((py - y) * w + (px - x)) fb hlt
  have e1 : (0 + ((py - y) * w + (px - x))) % w = px - x := by
    rw [Nat.zero_add, Nat.add_comm, Nat.add_mul_mod_self_right, Nat.mod_eq_of_lt (by omega)]
  have e2 : (0 + ((py - y) * w + (px - x))) / w = py - y := by
    rw [Nat.zero_add, Nat.add_comm, Nat.add_mul_div_right _ _ hw, Nat.div_eq_of_lt (by omega), Nat.zero_add]
  rw [e1, e2] at this
  rw [show x + (px - x) = px by omega, show y + (py - y) = py by omega] at this
  rw [this, List.getElem?_eq_getElem hlt]

/-- A place of the window is a column and a row of it. -/
theorem place_inside {w h j : Nat} (hw : 0 < w) (hj : j < w * h) : j % w < w ∧ j / w < h :=
  ⟨Nat.mod_lt _ hw, Nat.div_lt_of_lt_mul hj⟩

/-! ### Waits, and what stops a stream -/

/-- Waits add up against what is owed (45_wire_commands.md R186). -/
theorem Panel.takeAll_waits (ns : List Nat) : ∀ p : Panel, p.stop = none → Panel.takeAll (ns.map Elem.wait) p =
    { p with holdOwed := p.holdOwed - ns.sum, owed := p.owed - ns.sum } := by
  induction ns with
  | nil => intro p h; rfl
  | cons n ns ih =>
    intro p h
    have e : p.take (.wait n) = { p with holdOwed := p.holdOwed - n, owed := p.owed - n } := by
      simp [Panel.take, h, Panel.receive]
    rw [List.map_cons, Panel.takeAll_cons, e, ih _ (by exact h)]
    simp only [List.sum_cons, Nat.sub_sub]

/-- A command frame after the waits: a timing fault exactly while something is owed (45_wire_commands.md R186). -/
theorem Panel.take_command_owed {p : Panel} (hs : p.stop = none) (hh : p.held = false) (hm : p.mode = some .idle) (op : WireOp) :
    (p.take (.frame ⟨.command, wireOpcode op⟩)).stop = if 0 < p.owed then some (.fault .panelTiming) else none := by
  split
  · rename_i h
    simp only [Panel.take, hs, Panel.receive, Panel.frame, hm]
    rw [if_pos (.inr h)]; rfl
  · rename_i h
    have : p.hears = true := (Panel.hears_iff _).mpr ⟨hs, hh, by omega, .inl hm⟩
    rw [show (⟨.command, wireOpcode op⟩ : Frame) = cmdFrame (wireOpcode op) from rfl, Panel.take_command this]
    cases op <;> exact hs

/-- A pixel stream is RAMWR and the data frames of its words. -/
theorem commandFrames_ramwr (cs : List Word) :
    elems (commandFrames .ramwr (streamBytes cs)) = .frame (cmdFrame 0x2C) :: elems (streamFrames cs) := by
  simp only [commandFrames, elems, List.map_cons]
  congr 1
  induction cs with
  | nil => rfl
  | cons c cs ih =>
    simp only [streamBytes, streamFrames, List.flatMap_cons, List.map_append] at ih ⊢
    rw [← ih]; rfl

/-- RAMWR puts a ready receiver, its window inside the panel, at the first place of the window. -/
theorem Panel.At.ramwr {p : Panel} (hr : p.ready = true) {xs xe ys ye : Word}
    (e1 : p.xs = some xs) (e2 : p.xe = some xe) (e3 : p.ys = some ys) (e4 : p.ye = some ye)
    (h1 : xs.toNat ≤ xe.toNat) (h2 : xe.toNat < 240) (h3 : ys.toNat ≤ ye.toNat) (h4 : ye.toNat < 240) :
    (p.ramwr).At xs.toNat ys.toNat (xe.toNat - xs.toNat + 1) (ye.toNat - ys.toNat + 1) 0 := by
  simp only [Panel.ready, Bool.and_eq_true] at hr
  obtain ⟨hs, hd, ho, -⟩ := (Panel.hears_iff p).mp hr.1
  refine ⟨hs, hd, ho, rfl, hr.2, by omega, by omega, by omega, by omega, ?_, ?_, ?_, ?_, ?_, ?_, by positivity⟩
  · simp [Panel.ramwr, e1]
  · have : xs.toNat + (xe.toNat - xs.toNat + 1) - 1 = xe.toNat := by omega
    rw [this]; simp [Panel.ramwr, e2]
  · simp [Panel.ramwr, e3]
  · have : ys.toNat + (ye.toNat - ys.toNat + 1) - 1 = ye.toNat := by omega
    rw [this]; simp [Panel.ramwr, e4]
  · simp [Panel.ramwr, e1]
  · simp [Panel.ramwr, e3]

/-- A stream no longer than the window changes FB, the cursor and the mode only. -/
theorem Panel.At.rest {x y w h : Nat} (cs : List Word) : ∀ {p : Panel} {k : Nat}, p.At x y w h k →
    k + cs.length ≤ w * h →
    let q := p.takeAll (elems (streamFrames cs))
    q = { p with fb := q.fb, px := q.px, py := q.py, mode := q.mode } := by
  induction cs with
  | nil => intro p k a hl; rfl
  | cons c cs ih =>
    intro p k a hl
    simp only [List.length_cons] at hl
    obtain ⟨h1, h2, h3⟩ := a.word c
    have e : elems (streamFrames (c :: cs)) = elems (wordFrames c) ++ elems (streamFrames cs) := by
      simp [elems, streamFrames]
    have hw1 : let q := p.takeAll (elems (wordFrames c))
        q = { p with fb := q.fb, px := q.px, py := q.py, mode := q.mode } := by
      simp only
      rw [Panel.takeAll_word a.stop a.held a.owed a.mode a.format a.windowOk]
      have hmod : k % w < w := Nat.mod_lt _ a.w_pos
      have hdiv : k / w < h := Nat.div_lt_of_lt_mul a.inside
      have := a.fit_x; have := a.fit_y
      have e1 : (BitVec.ofNat 16 (x + k % w)).toNat = x + k % w := ofNat16_toNat (by omega)
      have e2 : (BitVec.ofNat 16 (y + k / w)).toNat = y + k / w := ofNat16_toNat (by omega)
      rw [Panel.writePixel_eq a.px a.py a.xs a.xe a.ye
        (by rw [e1, e2]; simp only [Config.panelW, Config.panelH]; omega)]
      split
      · rfl
      · split <;> rfl
    simp only [e, Panel.takeAll_append]
    by_cases hlast : k + 1 < w * h
    · have hi := ih (h2 hlast) (by omega)
      simp only at hi hw1
      generalize p.takeAll (elems (wordFrames c)) = q at hi hw1 ⊢
      generalize q.takeAll (elems (streamFrames cs)) = r at hi ⊢
      rw [hi, hw1]
    · have hc : cs = [] := by cases cs with
        | nil => rfl
        | cons _ _ => simp only [List.length_cons] at hl; omega
      subst hc
      exact hw1

/-- The first data frame of a stream in a format that is not the initialised one (45_wire_commands.md R180, R182, R183). -/
theorem Panel.takeAll_badFormat {p : Panel} (h : p.hears = true) (hf : p.formatOk = false) (c : Word) (ws : List Word) :
    p.takeAll (elems (commandFrames .ramwr (streamBytes (c :: ws)))) = Panel.halted (.refused .panelNotInitialised) := by
  obtain ⟨k1, k2, k3, -⟩ := (Panel.hears_iff _).mp h
  rw [commandFrames_ramwr, Panel.takeAll_cons, show (0x2C : Byte) = wireOpcode .ramwr from rfl, Panel.take_command h,
    streamFrames_cons, elems_append, Panel.takeAll_append]
  have e : (p.begin .ramwr).take (.frame (dataFrame (hiByte c))) =
      Panel.halted (.refused .panelNotInitialised) := by
    have hf1 : p.ramwr.formatOk = false := hf
    simp only [Panel.begin, Panel.take]
    simp only [Panel.ramwr, k1, Panel.receive, Panel.frame, k2, k3, dataFrame, Panel.data, Panel.pixelData] at hf1 ⊢
    rw [if_neg (by simp), if_neg (by rw [hf1]; decide)]
  simp only [elems, wordFrames, List.map_cons, List.map_nil, Panel.takeAll_cons, Panel.takeAll_nil, e]
  rw [Panel.take_stopped (by simp [Panel.halted])]
  exact Panel.takeAll_stopped (by simp [Panel.halted]) _

/-- The first word of a stream into a window that is not inside the panel (45_wire_commands.md R181). -/
theorem Panel.takeAll_badWindow {p : Panel} (hs : p.stop = none) (hh : p.held = false) (ho : p.owed = 0)
    (hm : p.mode = some (.pixel none)) (hf : p.formatOk = true) (hw : p.windowOk = false) (c : Word) :
    p.takeAll (elems (wordFrames c)) = Panel.halted (.fault .panelWindow) := by
  have h1 : p.take (.frame (dataFrame (hiByte c))) = { p with mode := some (.pixel (some (hiByte c))) } := by
    simp only [Panel.take, hs, Panel.receive, Panel.frame, hm, hh, ho, dataFrame, Panel.data, Panel.pixelData]
    rw [if_neg (by simp), if_pos hf]
  have h2 : ({ p with mode := some (.pixel (some (hiByte c))) } : Panel).take (.frame (dataFrame (loByte c))) =
      Panel.halted (.fault .panelWindow) := by
    have hw1 : ({ p with mode := some (.pixel (some (hiByte c))) } : Panel).windowOk = false := hw
    simp only [Panel.take, hs, Panel.receive, Panel.frame, hh, ho, dataFrame, Panel.data, Panel.pixelData] at hw1 ⊢
    rw [if_neg (by simp), if_pos (by exact hf), if_neg (by rw [hw1]; decide)]
  simp only [elems, wordFrames, List.map, Panel.takeAll_cons, Panel.takeAll_nil, h1, h2]

/-- A filled window: of the other registers only the window and the cursor change. -/
theorem Panel.takeAll_filled_rest {p : Panel} (hr : p.ready = true) {x y w h : Word} (hv : validRect x y w h = true)
    {cs : List Word} (hl : cs.length = w.toNat * h.toNat) :
    let q := p.takeAll (elems (windowFrames x y w h ++ streamFrames cs))
    q = { p with fb := q.fb, xs := some x, xe := some (endCoord x w), ys := some y, ye := some (endCoord y h),
                 px := q.px, py := q.py, mode := some .exhausted } := by
  obtain ⟨g1, g2, g3, g4⟩ := Panel.takeAll_filled hr hv hl
  obtain ⟨a, -⟩ := Panel.At.window hr hv
  have hrest := a.rest cs (by omega)
  have hw := Panel.takeAll_window (show p.hears = true by simp only [Panel.ready, Bool.and_eq_true] at hr; exact hr.1) x y w h
  simp only at hrest
  rw [← Panel.takeAll_append, ← elems_append] at hrest
  simp only at g3 ⊢
  generalize p.takeAll (elems (windowFrames x y w h ++ streamFrames cs)) = q at g3 hrest ⊢
  rw [hw] at hrest
  rw [hrest]
  simp only [← g3]
  rw [hrest]; rfl

end Sys2Proof.Machine
end

