-- ==== Sys2Proof/Laws/Cells.lean ====
section
/-! SUPPORT. Laws/Cells.lean: glyph cells: their words, what one leaves in FB, and which cells a text gives. -/

namespace Sys2Proof.Machine

theorem glyphWords_length (g : Nat → Byte) (fg bg : Word) : (glyphWords g fg bg).length = 64 := by simp [glyphWords]

theorem glyphWords_getElem (g : Nat → Byte) (fg bg : Word) (r c : Nat) (hr : r < 8) (hc : c < 8) :
    (glyphWords g fg bg)[8 * r + c]? = some (if (g r).getLsbD c then fg else bg) := by
  interval_cases r <;> interval_cases c <;> rfl

theorem charElems_length (g : Nat → Byte) (x y fg bg : Word) : (charElems g x y fg bg).length = 139 := by
  rw [charElems, elems_append, List.length_append, streamFrames_length, glyphWords_length]; rfl

/-- A glyph cell inside the panel at a ready receiver (43_text.md R138). -/
theorem Panel.takeAll_char {p : Panel} (hr : p.ready = true) {x y : Word} (hx : x.toNat + 8 ≤ 240)
    (hy : y.toNat + 8 ≤ 240) (g : Nat → Byte) (fg bg : Word) :
    let q := p.takeAll (charElems g x y fg bg)
    (∀ r c : Nat, r < 8 → c < 8 →
      fbRead (x.toNat + c) (y.toNat + r) q.fb = some (if (g r).getLsbD c then fg else bg)) ∧
    (∀ a : Nat, (∀ r c : Nat, r < 8 → c < 8 → outsideElement a (x.toNat + c) (y.toNat + r)) →
      Memory.read a q.fb = Memory.read a p.fb) ∧
    q.stop = none ∧ q.mode = some .exhausted ∧ q.ready = true ∧
    (∀ px py, px < 240 → ¬(x.toNat ≤ px ∧ px < x.toNat + 8 ∧ y.toNat ≤ py ∧ py < y.toNat + 8) →
      fbRead px py q.fb = fbRead px py p.fb) := by
  have h8 : (8 : Word).toNat = 8 := rfl
  have hv : validRect x y 8 8 = true :=
    (validRect_iff x y 8 8).mpr ⟨by decide, by decide, by rw [h8]; exact hx, by rw [h8]; exact hy⟩
  obtain ⟨g1, g2, g3, g4⟩ := Panel.takeAll_filled hr hv (cs := glyphWords g fg bg) (by rw [glyphWords_length]; rfl)
  rw [← charElems] at g1 g2 g3 g4
  rw [h8] at g1
  refine ⟨?_, ?_, g2, g3, g4, ?_⟩
  · intro r c h1 h2
    rw [g1, fbRead_filled (h := 8) (by omega) hx _ (glyphWords_length _ _ _) _
      (by omega) (by omega) (by omega) (by omega)]
    rw [← glyphWords_getElem g fg bg r c h1 h2]
    rw [show (y.toNat + r - y.toNat) * 8 + (x.toNat + c - x.toNat) = 8 * r + c by omega]
  · intro a ha
    rw [g1]
    apply read_paint_outside
    intro j _ hj
    rw [glyphWords_length] at hj
    exact ha (j / 8) (j % 8) (by omega) (by omega)
  · intro px py hp hno
    rw [g1]
    apply fbRead_paint_other (by omega) hx hp
    intro j _ hj
    rw [glyphWords_length] at hj
    omega

/-- Every cell of a text is a printable character whose box fits (43_text.md R146). -/
theorem textCells_fit (x0 : Nat) (text : List Byte) : ∀ cx cy : Nat, ∀ k ∈ textCells x0 text cx cy,
    k.x + 8 ≤ 240 ∧ k.y + 8 ≤ 240 ∧ 32 ≤ k.ch.toNat ∧ k.ch.toNat ≤ 126 := by
  induction text with
  | nil => intro cx cy k hk; simp [textCells] at hk
  | cons c rest ih =>
    intro cx cy k hk
    rw [textCells] at hk
    split at hk
    · exact ih _ _ k hk
    split at hk
    · exact ih _ _ k hk
    split at hk
    · simp at hk
    rw [List.mem_append] at hk
    rcases hk with hk | hk
    · split at hk
      · rename_i h; simp only [List.mem_singleton] at hk; subst hk; exact ⟨h.1, show cy + 8 ≤ 240 by omega, h.2⟩
      · simp at hk
    · split at hk
      · exact ih _ _ k hk
      · exact ih _ _ k hk

end Sys2Proof.Machine
end

