-- ==== Sys2Proof/Laws/Closed.lean ====
section
/-! SUPPORT. Laws/Closed.lean: everything a block operation does is done by ten primitives, and between bytes by
`send_byte` and those primitives but for a falling clock; so a property these keep is kept by every block operation, by
every host request and by every step. -/

namespace Sys2Proof.Machine

/-- The ten primitives keep `P`. -/
structure Closed (P : State → Prop) : Prop where
  line : ∀ (s : State) (L : Line) (v : Level), P s → P (s.line L v)
  configure : ∀ (s : State) (L : Line), P s → P (s.configure L)
  settle : ∀ s : State, P s → P s.settle
  delay : ∀ (s : State) (n : Nat), P s → P (s.delay n)
  yieldPoint : ∀ s : State, P s → P s.yieldPoint
  setRegs : ∀ (s : State) (f : Regs → Regs), P s → P (s.setRegs f)
  setSeq : ∀ (s : State) (q : List Position), P s → P (s.setSeq q)
  setReady : ∀ (s : State) (b : Bool), P s → P (s.setReady b)
  setStatus : ∀ (s : State) (v : Status), P s → P (s.setStatus v)
  cfgRead : ∀ s : State, P s → P s.cfgRead

/-- What the pieces keep that the drawing and the internal operations are made of: `send_byte` whole, a write of DC, a
yield place, a register write, the sequencer. -/
structure DrawClosed (P : State → Prop) : Prop where
  sendByte : ∀ (s : State) (v : Byte), P s → P (s.sendByte v)
  lineDc : ∀ (s : State) (v : Level), P s → P (s.line .dc v)
  yieldPoint : ∀ s : State, P s → P s.yieldPoint
  setRegs : ∀ (s : State) (f : Regs → Regs), P s → P (s.setRegs f)
  setSeq : ∀ (s : State) (q : List Position), P s → P (s.setSeq q)

/-- What the pieces keep that block operations are made of between bytes: `send_byte` whole, and every primitive but a
falling clock. -/
structure ByteClosed (P : State → Prop) : Prop extends DrawClosed P where
  line : ∀ (s : State) (L : Line) (v : Level), (L = .sck → v = true) → P s → P (s.line L v)
  configure : ∀ (s : State) (L : Line), P s → P (s.configure L)
  delay : ∀ (s : State) (n : Nat), P s → P (s.delay n)
  setReady : ∀ (s : State) (b : Bool), P s → P (s.setReady b)
  setStatus : ∀ (s : State) (v : Status), P s → P (s.setStatus v)
  cfgRead : ∀ s : State, P s → P s.cfgRead

theorem runStatements_keeps {P : State → Prop} (hq : ∀ (s : State) (q : List Position), P s → P (s.setSeq q))
    {body : List (State → State)} (hb : ∀ f ∈ body, ∀ s, P s → P (f s)) :
    ∀ (k : Nat) (s : State), P s → P (runStatements k body s) := by
  induction body with
  | nil => intro k s h; exact h
  | cons f rest ih =>
    intro k s h
    exact ih (fun g hg => hb g (List.mem_cons_of_mem _ hg)) (k + 1) _
      (hb f List.mem_cons_self _ (hq _ _ h))

theorem operation_keeps {P : State → Prop} (hq : ∀ (s : State) (q : List Position), P s → P (s.setSeq q))
    (op : OpName) {body : List (State → State)} (hb : ∀ f ∈ body, ∀ s, P s → P (f s)) {s : State}
    (h : P s) : P (s.operation op body) :=
  hq _ _ (runStatements_keeps hq hb 0 _ (hq _ _ h))

namespace Closed

variable {P : State → Prop} (c : Closed P)
include c

theorem sendBits (v : Byte) : ∀ (i : Nat) (s : State), P s → P (s.sendBits v i) := by
  intro i
  induction i with
  | zero => intro s h; exact h
  | succ i ih =>
    intro s h
    exact ih _ (c.setRegs _ _ (c.settle _ (c.line _ _ _ (c.settle _ (c.line _ _ _ (c.line _ _ _ h))))))

theorem sendByte (v : Byte) (s : State) (h : P s) : P (s.sendByte v) :=
  operation_keeps c.setSeq _ (by
    simp only [List.forall_mem_cons, List.not_mem_nil, false_implies, implies_true, and_true]
    exact ⟨fun s h => c.setRegs _ _ h, fun s h => c.sendBits _ _ _ h⟩) h

/-- A property the ten primitives keep is kept between bytes too. -/
theorem toByte : ByteClosed P :=
  { sendByte := fun s v h => c.sendByte v s h
    lineDc := fun s v h => c.line s .dc v h
    line := fun s L v _ h => c.line s L v h
    configure := c.configure, delay := c.delay, yieldPoint := c.yieldPoint, setRegs := c.setRegs, setSeq := c.setSeq
    setReady := c.setReady, setStatus := c.setStatus, cfgRead := c.cfgRead }

end Closed

namespace DrawClosed

variable {P : State → Prop} (c : DrawClosed P)
include c

theorem operation (op : OpName) {body : List (State → State)} (hb : ∀ f ∈ body, ∀ s, P s → P (f s)) {s : State}
    (h : P s) : P (s.operation op body) := operation_keeps c.setSeq op hb h

theorem sendWord (v : Word) (s : State) (h : P s) : P (s.sendWord v) :=
  c.operation _ (by
    simp only [List.forall_mem_cons, List.not_mem_nil, false_implies, implies_true, and_true]
    exact ⟨fun s h => c.setRegs _ _ h, fun s h => c.sendByte _ _ h, fun s h => c.sendByte _ _ h⟩) h

theorem sendCommand (o : Byte) (s : State) (h : P s) : P (s.sendCommand o) :=
  c.operation _ (by
    simp only [List.forall_mem_cons, List.not_mem_nil, false_implies, implies_true, and_true]
    exact ⟨fun s h => c.lineDc _ _ h, fun s h => c.sendByte _ _ h, fun s h => c.lineDc _ _ h⟩) h

theorem sendDataByte (v : Byte) (s : State) (h : P s) : P (s.sendDataByte v) :=
  c.operation _ (by
    simp only [List.forall_mem_cons, List.not_mem_nil, false_implies, implies_true, and_true]
    exact ⟨fun s h => c.lineDc _ _ h, fun s h => c.sendByte _ _ h⟩) h

theorem sendDataWord (v : Word) (s : State) (h : P s) : P (s.sendDataWord v) :=
  c.operation _ (by
    simp only [List.forall_mem_cons, List.not_mem_nil, false_implies, implies_true, and_true]
    exact ⟨fun s h => c.lineDc _ _ h, fun s h => c.sendWord _ _ h⟩) h

theorem setWindow (x y w h : Word) (s : State) (hs : P s) : P (s.setWindow x y w h) :=
  c.operation _ (by
    simp only [List.forall_mem_cons, List.not_mem_nil, false_implies, implies_true, and_true]
    exact ⟨fun s h => c.setRegs _ _ h, fun s h => c.setRegs _ _ h, fun s h => c.sendCommand _ _ h,
      fun s h => c.sendDataWord _ _ h, fun s h => c.sendDataWord _ _ h, fun s h => c.sendCommand _ _ h,
      fun s h => c.sendDataWord _ _ h, fun s h => c.sendDataWord _ _ h, fun s h => c.sendCommand _ _ h⟩) hs

theorem fillWords (col : Word) : ∀ (n : Nat) (s : State), P s → P (s.fillWords col n) := by
  intro n
  induction n with
  | zero => intro s h; exact h
  | succ n ih =>
    intro s h
    apply ih
    have ht := c.setRegs _ (fun r => { r with pixcnt := some (BitVec.ofNat 16 n) }) (c.sendDataWord col s h)
    split
    · exact ht
    · exact c.yieldPoint _ ht

theorem fillRect (x y w h col : Word) (s : State) (hs : P s) : P (s.fillRect x y w h col) := by
  unfold State.fillRect
  split
  · refine c.operation _ ?_ hs
    simp only [List.forall_mem_cons, List.not_mem_nil, false_implies, implies_true, and_true]
    exact ⟨fun s h => c.setWindow _ _ _ _ _ h, fun s h => c.setRegs _ _ h, fun s h => c.setRegs _ _ h,
      fun s h => c.fillWords _ _ _ h⟩
  · exact hs

theorem drawPixel (x y col : Word) (s : State) (hs : P s) : P (s.drawPixel x y col) := by
  unfold State.drawPixel
  split
  · refine c.operation _ ?_ hs
    simp only [List.forall_mem_cons, List.not_mem_nil, false_implies, implies_true, and_true]
    exact fun s h => c.fillRect _ _ _ _ _ _ h
  · exact hs

theorem clear (col : Word) (s : State) (hs : P s) : P (s.clear col) :=
  c.operation _ (by
    simp only [List.forall_mem_cons, List.not_mem_nil, false_implies, implies_true, and_true]
    exact fun s h => c.fillRect _ _ _ _ _ _ h) hs

omit c in
theorem foldl {f : State → Nat → State} (hf : ∀ s k, P s → P (f s k)) :
    ∀ (l : List Nat) (s : State), P s → P (l.foldl f s) := by
  intro l
  induction l with
  | nil => intro s h; exact h
  | cons k l ih => intro s h; exact ih _ (hf _ _ h)

theorem drawColumn (g : Byte) (row : Nat) (fg bg : Word) (s : State) (col : Nat) (h : P s) :
    P (State.drawColumn g row fg bg s col) := by
  have ht := c.sendDataWord (pixelColor g col fg bg) _
    (c.setRegs s (fun r => { r with col := some (BitVec.ofNat 3 col) }) h)
  unfold State.drawColumn
  split
  · exact ht
  · exact c.yieldPoint _ ht

theorem drawRow (ch : Byte) (fg bg : Word) (s : State) (row : Nat) (h : P s) : P (State.drawRow ch fg bg s row) :=
  foldl (fun s k h => c.drawColumn _ _ _ _ s k h) _ _ (c.setRegs _ _ h)

theorem drawRows (ch : Byte) (fg bg : Word) (s : State) (h : P s) : P (s.drawRows ch fg bg) :=
  foldl (fun s k h => c.drawRow _ _ _ s k h) _ _ h

theorem drawChar (x y : Word) (ch : Byte) (fg bg : Word) (s : State) (h : P s) : P (s.drawChar x y ch fg bg) := by
  refine c.operation _ ?_ h
  simp only [List.forall_mem_cons]
  refine ⟨fun s h => c.setRegs _ _ h, ?_⟩
  split
  · simp only [List.forall_mem_cons, List.not_mem_nil, false_implies, implies_true, and_true]
    exact ⟨fun s h => c.setWindow _ _ _ _ _ h, fun s h => c.drawRows _ _ _ _ h⟩
  · simp

theorem afterChar (rest : List Byte) (cur : BitVec 32 × BitVec 32) (s : State) (h : P s) :
    P (s.afterChar rest cur) := by
  unfold State.afterChar
  split
  · exact c.setRegs _ _ h
  · exact c.yieldPoint _ (c.setRegs _ _ h)

theorem drawText (x0 fg bg : Word) : ∀ (text : List Byte) (ti : Nat) (cur : BitVec 32 × BitVec 32) (s : State),
    P s → P (s.drawText x0 fg bg text ti cur) := by
  intro text
  induction text with
  | nil => intro ti cur s h; exact h
  | cons b rest ih =>
    intro ti cur s h
    obtain ⟨cx, cy⟩ := cur
    have h1 := c.setRegs s (fun r => { r with ti := some (BitVec.ofNat 16 (ti + 1)) }) h
    simp only [State.drawText]
    split
    · exact ih _ _ _ (c.afterChar _ _ _ h1)
    split
    · exact ih _ _ _ (c.afterChar _ _ _ h1)
    split
    · exact h1
    apply ih
    apply c.afterChar
    split
    · exact h1
    · exact c.drawChar _ _ _ _ _ _ h1

theorem drawString (x y : Word) (text : List Byte) (fg bg : Word) (s : State) (h : P s) :
    P (s.drawString x y text fg bg) :=
  c.operation _ (by
    simp only [List.forall_mem_cons, List.not_mem_nil, false_implies, implies_true, and_true]
    exact ⟨fun s h => c.setRegs _ _ h, fun s h => c.setRegs _ _ h, fun s h => c.setRegs _ _ h,
      fun s h => c.drawText _ _ _ _ _ _ _ h⟩) h

/-- What an admitted host request does keeps `P`. -/
theorem hostRequest {b : Bool} {run : State → State} (hrun : ∀ s, P s → P (run s)) {s t : State} (h : P s)
    (hn : s.hostRequest b run = .next t) : P t := by
  unfold State.hostRequest at hn
  split at hn
  · cases hn; exact c.setRegs _ _ (hrun _ h)
  · cases hn

end DrawClosed

namespace ByteClosed

variable {P : State → Prop} (c : ByteClosed P)
include c

theorem lineRst (s : State) (v : Level) (h : P s) : P (s.line .rst v) := c.line s .rst v (by simp) h

theorem hwResetPulse (s : State) (h : P s) : P s.hwResetPulse :=
  c.operation _ (by
    simp only [List.forall_mem_cons, List.not_mem_nil, false_implies, implies_true, and_true]
    exact ⟨fun s h => c.lineRst _ _ h, fun s h => c.lineRst _ _ h, fun s h => c.delay _ _ h, fun s h => c.lineRst _ _ h,
      fun s h => c.delay _ _ h⟩) h

theorem configureLines (s : State) (h : P s) : P s.configureLines :=
  c.line _ .bl _ (by simp) (c.lineDc _ _ (c.line _ .sda _ (by simp) (c.line _ .sck _ (fun _ => rfl) (c.configure _ _ (c.configure _ _ (c.configure _ _
    (c.configure _ _ (c.configure _ _ h))))))))

theorem initClear (s : State) (h : P s) : P s.initClear := by
  unfold State.initClear
  split
  · exact h
  · exact c.fillRect _ _ _ _ _ _ h

theorem initialise (s : State) (h : P s) : P s.initialise := by
  refine c.operation _ ?_ h
  simp only [List.forall_mem_cons]
  refine ⟨fun s h => c.setReady _ _ (c.cfgRead _ h), ?_⟩
  split
  · simp only [initSequence, List.cons_append, List.nil_append, List.forall_mem_cons, List.not_mem_nil, false_implies,
      implies_true, and_true]
    exact ⟨fun s h => c.configureLines _ h, fun s h => c.hwResetPulse _ h,
      fun s h => c.delay _ _ (c.sendCommand _ _ h), fun s h => c.delay _ _ (c.sendCommand _ _ h),
      fun s h => c.delay _ _ (c.sendDataByte _ _ (c.sendCommand _ _ h)),
      fun s h => c.sendDataByte _ _ (c.sendCommand _ _ h), fun s h => c.delay _ _ (c.sendCommand _ _ h),
      fun s h => c.delay _ _ (c.sendCommand _ _ h), fun s h => c.delay _ _ (c.sendCommand _ _ h),
      fun s h => c.initClear _ h, fun s h => c.setReady _ _ h, fun s h => c.setStatus _ _ h⟩
  · simp only [List.forall_mem_cons, List.not_mem_nil, false_implies, implies_true, and_true]
    exact fun s h => c.setStatus _ _ h

end ByteClosed

/-- What the receiver's port does: only the panel changes, and to what the elements make of it. -/
theorem State.atReceiver_cases {es : List Elem} {s t : State} (h : s.atReceiver es = .next t) :
    t = { s with panel := s.panel.takeAll es } ∧ (s.panel.takeAll es).stop = none := by
  unfold State.atReceiver at h
  cases hs : (s.panel.takeAll es).stop with
  | none => simp only [hs] at h; cases h; exact ⟨rfl, rfl⟩
  | some r => cases r <;> simp [hs] at h

/-- What one instruction can do: a block operation, made of the primitives, or a wire command, which changes the panel
alone. -/
theorem exec_closed {P : State → Prop} (c : ByteClosed P) (hw : ∀ (s : State) (es : List Elem), P s →
    P { s with panel := s.panel.takeAll es }) {i : Instr} {s t : State} (h : P s) (hn : exec i s = .next t) : P t := by
  have hwire : ∀ (op : WireOp) (bs : List Byte), s.wireCommand op bs = .next t → P t := by
    intro op bs he
    rw [(State.atReceiver_cases he).1]
    exact hw _ _ h
  cases i with
  | init => exact c.hostRequest (fun s h => c.initialise s h) h hn
  | clear col => exact c.hostRequest (fun s h => c.clear col s h) h hn
  | drawPixel x y col => exact c.hostRequest (fun s h => c.drawPixel x y col s h) h hn
  | fillRect x y w hh col => exact c.hostRequest (fun s h => c.fillRect x y w hh col s h) h hn
  | drawChar x y ch fg bg => exact c.hostRequest (fun s h => c.drawChar x y ch fg bg s h) h hn
  | drawString x y text fg bg => exact c.hostRequest (fun s h => c.drawString x y text fg bg s h) h hn
  | sendByte v => exact Host.Outcome.next.inj hn ▸ c.setRegs _ _ (c.sendByte _ _ h)
  | sendWord v => exact Host.Outcome.next.inj hn ▸ c.setRegs _ _ (c.sendWord _ _ h)
  | sendCommand o => exact Host.Outcome.next.inj hn ▸ c.setRegs _ _ (c.sendCommand _ _ h)
  | sendDataByte v => exact Host.Outcome.next.inj hn ▸ c.setRegs _ _ (c.sendDataByte _ _ h)
  | sendDataWord v => exact Host.Outcome.next.inj hn ▸ c.setRegs _ _ (c.sendDataWord _ _ h)
  | setWindow x y w hh => exact Host.Outcome.next.inj hn ▸ c.setRegs _ _ (c.setWindow _ _ _ _ _ h)
  | swreset => exact hwire _ _ hn
  | slpout => exact hwire _ _ hn
  | noron => exact hwire _ _ hn
  | invon => exact hwire _ _ hn
  | dispon => exact hwire _ _ hn
  | caset xs xe => exact hwire _ _ hn
  | raset ys ye => exact hwire _ _ hn
  | ramwr ws => exact hwire _ _ hn
  | madctl m => exact hwire _ _ hn
  | colmod m => exact hwire _ _ hn

/-- What one step can do: nothing, one instruction, or elements at the receiver. -/
theorem step_cases {s t : State} (h : step s = .next t) :
    (s.inbox = [] ∧ t = s) ∨
    (∃ p rest i, s.inbox = .packet p :: rest ∧ decode p = .instr i ∧ exec i { s with inbox := rest } = .next t) ∨
    (∃ e rest, s.inbox = .element e :: rest ∧ t = { s with inbox := rest, panel := s.panel.take e } ∧
      (s.panel.take e).stop = none) := by
  unfold step at h
  split at h
  · cases h; exact .inl ⟨by assumption, rfl⟩
  · rename_i p rest hi
    split at h
    · rename_i i hd
      exact .inr (.inl ⟨p, rest, i, hi, hd, h⟩)
    · cases h
  · rename_i e rest hi
    exact .inr (.inr ⟨e, rest, hi, State.atReceiver_cases h⟩)

/-- A property that the primitives, the receiver's port and taking an input keep is kept by every step. -/
theorem step_closed {P : State → Prop} (c : ByteClosed P) (hw : ∀ (s : State) (es : List Elem), P s →
    P { s with panel := s.panel.takeAll es }) (hb : ∀ (s : State) (q : List Input), P s → P { s with inbox := q })
    {s t : State} (h : P s) (hn : step s = .next t) : P t := by
  rcases step_cases hn with ⟨-, rfl⟩ | ⟨p, rest, i, -, -, he⟩ | ⟨e, rest, -, rfl, -⟩
  · exact h
  · exact exec_closed c hw (hb _ _ h) he
  · exact hw { s with inbox := rest } [e] (hb _ _ h)

end Sys2Proof.Machine
end

