-- ==== Sys2Proof/Laws/Host.lean ====
section
/-! SUPPORT. Laws/Host.lean: admission, and what a safe state that is READY says of its lines. -/

namespace Sys2Proof.Machine

/-- An admitted host request runs to its end (60_exceptions.md R196). -/
theorem State.hostRequest_admitted {b : Bool} {s : State} (hq : s.seq = []) (hr : s.ready = b) (run : State → State) :
    s.hostRequest b run = .next ((run s).setRegs fun _ => Regs.noValue) := by
  simp [State.hostRequest, State.admits, State.issue, hq, hr]

/-- A host request that is not admitted is refused. -/
theorem State.hostRequest_refused {b : Bool} {s : State} (h : s.seq ≠ [] ∨ s.ready ≠ b) (run : State → State) :
    s.hostRequest b run = .refused .notAdmitted := by
  have : s.admits b = false := by
    rcases h with h | h
    · cases hq : s.seq with
      | nil => exact absurd hq h
      | cons _ _ => simp [State.admits, hq]
    · simp [State.admits, h]
  simp [State.hostRequest, this]

/-- Once READY, the lines of a safe state are at rest (10_state.md R11). -/
theorem State.Safe.rest {s : State} (hs : s.Safe) (hr : s.ready = true) : s.LinesRest := by
  obtain ⟨h1, h2, -⟩ := (hs.2.2.2.2.2 hr).1
  exact ⟨by rw [h1], by rw [h2]⟩

end Sys2Proof.Machine
end

