-- ==== Sys2Proof/Laws/Init.lean ====
section
/-! SUPPORT. Laws/Init.lean: what a successful and a failed `init` do. -/

namespace Sys2Proof.Machine

theorem runStatements_append (a b : List (State → State)) : ∀ (k : Nat) (s : State),
    runStatements k (a ++ b) s = runStatements (k + a.length) b (runStatements k a s) := by
  induction a with
  | nil => intro k s; rfl
  | cons f a ih =>
    intro k s
    simp only [List.cons_append, runStatements, ih, List.length_cons]
    congr 1; omega

/-- Step 1, while the clock is not low: every line is configured, four have their rest levels, and the wire carries
nothing (44_init.md R151). -/
theorem State.configureLines_eq (s : State) (hs : s.lines.sck.lvl ≠ some false) : s.configureLines =
    { s with
      lines := { sck := ⟨true, some true⟩, sda := ⟨true, some false⟩, dc := ⟨true, some s.params.lvlData⟩,
                 rst := ⟨true, s.lines.rst.lvl⟩, bl := ⟨true, some s.params.lvlBlOn⟩ }
      pinLog := [.set .bl s.params.lvlBlOn, .set .dc s.params.lvlData, .set .sda false, .set .sck true, .cfg .bl,
        .cfg .rst, .cfg .dc, .cfg .sda, .cfg .sck] ++ s.pinLog } := by
  simp [State.configureLines, State.configure, State.line, sensed, sensedWire, Lines.configure, Lines.drive, hs]

/-- Step 2, while RST is not active: the reset pulse in closed form (44_init.md R152). -/
theorem State.hwResetPulse_eq (s : State) (hr : s.lines.rst.lvl ≠ some s.params.lvlRstActive) : s.hwResetPulse =
    { s with
      lines := { s.lines with rst := { s.lines.rst with lvl := some s.params.lvlRstIdle } }
      pinLog := [.wait 120, .set .rst s.params.lvlRstIdle, .wait 10, .set .rst s.params.lvlRstActive,
        .set .rst s.params.lvlRstIdle] ++ s.pinLog
      wire := { s.wire with n := 0 }
      frameLog := [.wait 120, .hwRelease, .wait 10, .hwReset] ++ s.frameLog
      panel := s.panel.takeAll [.hwReset, .wait 10, .hwRelease, .wait 120] } := by
  cases ha : s.params.lvlRstActive <;>
    simp [ha] at hr <;>
    simp [State.hwResetPulse, State.operation, runStatements, State.setSeq, State.line, State.delay, sensed,
      sensedWire, Lines.drive, Params.lvlRstIdle, ha, hr, Config.tRstHold, Config.tRstBoot, Panel.takeAll]

theorem State.sendCommand_sent (s : State) (o : Byte) (hn : s.wire.n = 0) :
    Sent s (s.sendCommand o) [.frame (cmdFrame o)] := by
  rw [State.sendCommand_eq s o hn]
  constructor <;> simp [State.LinesRest, sdaAfter, cmdFrame]

theorem State.sendDataByte_sent (s : State) (v : Byte) (hn : s.wire.n = 0) :
    Sent s (s.sendDataByte v) [.frame (dataFrame v)] := by
  rw [State.sendDataByte_eq s v hn]
  constructor <;> simp [State.LinesRest, sdaAfter, dataFrame]

theorem Sent.delay {s t : State} {es : List Elem} (h : Sent s t es) (n : Nat) : Sent s (t.delay n) (es ++ [.wait n]) :=
  h.trans ⟨rfl, rfl, h.wire_n, id, rfl, rfl, rfl, rfl, rfl, rfl, rfl, rfl, rfl, rfl, rfl, rfl, rfl⟩

theorem State.initClear_sent (s : State) (hn : s.wire.n = 0) : Sent s s.initClear (initClearElems s.params) := by
  cases h : s.params.initClear with
  | none => simpa [State.initClear, initClearElems, h] using Sent.refl hn
  | some c =>
    have := State.fillRect_sent s 0 0 240 240 c hn (by decide)
    simpa [State.initClear, initClearElems, h] using this

/-- Steps 3 to 10 of `init` send the rest of its frame trace. -/
theorem initRest_sends (r : State) : Sends r (runStatements 3 (initSequence.tail ++ [State.initClear]))
    ((initElems r.params).drop 4 ++ initClearElems r.params) := by
  have key := Sends.runStatements (r := r) (body := [
    (fun t => (t.sendCommand (wireOpcode .swreset)).delay Config.tSwreset, [.frame (cmdFrame 0x01), .wait 150]),
    (fun t => (t.sendCommand (wireOpcode .slpout)).delay Config.tSlpout, [.frame (cmdFrame 0x11), .wait 255]),
    (fun t => ((t.sendCommand (wireOpcode .colmod)).sendDataByte 0x55).delay t.params.tShort,
      [.frame (cmdFrame 0x3A), .frame (dataFrame 0x55), .wait r.params.tShort]),
    (fun t => (t.sendCommand (wireOpcode .madctl)).sendDataByte 0x00,
      [.frame (cmdFrame 0x36), .frame (dataFrame 0x00)]),
    (fun t => (t.sendCommand (wireOpcode .invon)).delay t.params.tShort,
      [.frame (cmdFrame 0x21), .wait r.params.tShort]),
    (fun t => (t.sendCommand (wireOpcode .noron)).delay t.params.tShort,
      [.frame (cmdFrame 0x13), .wait r.params.tShort]),
    (fun t => (t.sendCommand (wireOpcode .dispon)).delay t.params.tLong,
      [.frame (cmdFrame 0x29), .wait r.params.tLong]),
    (State.initClear, initClearElems r.params)]) (by
      simp only [List.forall_mem_cons, List.not_mem_nil, false_implies, implies_true, and_true]
      refine ⟨fun s hn _ _ => (s.sendCommand_sent 0x01 hn).delay 150, fun s hn _ _ => (s.sendCommand_sent 0x11 hn).delay 255,
        fun s hn _ hp => ?_, fun s hn _ _ => ?_, fun s hn _ hp => ?_, fun s hn _ hp => ?_, fun s hn _ hp => ?_,
        fun s hn _ hp => ?_⟩
      · have h1 := s.sendCommand_sent 0x3A hn
        exact hp ▸ (h1.trans (State.sendDataByte_sent _ 0x55 h1.wire_n)).delay s.params.tShort
      · have h1 := s.sendCommand_sent 0x36 hn
        exact h1.trans (State.sendDataByte_sent _ 0x00 h1.wire_n)
      · exact hp ▸ (s.sendCommand_sent 0x21 hn).delay s.params.tShort
      · exact hp ▸ (s.sendCommand_sent 0x13 hn).delay s.params.tShort
      · exact hp ▸ (s.sendCommand_sent 0x29 hn).delay s.params.tLong
      · exact hp ▸ s.initClear_sent hn) 3
  intro s hn hr hp
  have := key s hn hr hp
  simpa [initSequence, initElems] using this

theorem State.configureLines_setSeq (s : State) (q : List Position) :
    (s.setSeq q).configureLines = s.configureLines.setSeq q := rfl

theorem State.hwResetPulse_setSeq (t : State) (q : List Position)
    (hr : t.lines.rst.lvl ≠ some t.params.lvlRstActive) : (t.setSeq q).hwResetPulse = t.hwResetPulse.setSeq q := by
  rw [State.hwResetPulse_eq t hr, State.hwResetPulse_eq (t.setSeq q) hr]
  rfl

/-- Steps 1 and 2 in closed form (44_init.md R151, R152). -/
theorem State.configurePulse_eq (s : State) (hs : s.lines.sck.lvl ≠ some false)
    (hr : s.lines.rst.lvl ≠ some s.params.lvlRstActive) : s.configureLines.hwResetPulse =
    { s with
      lines := { sck := ⟨true, some true⟩, sda := ⟨true, some false⟩, dc := ⟨true, some s.params.lvlData⟩,
                 rst := ⟨true, some s.params.lvlRstIdle⟩, bl := ⟨true, some s.params.lvlBlOn⟩ }
      pinLog := [.wait 120, .set .rst s.params.lvlRstIdle, .wait 10, .set .rst s.params.lvlRstActive,
        .set .rst s.params.lvlRstIdle, .set .bl s.params.lvlBlOn, .set .dc s.params.lvlData, .set .sda false,
        .set .sck true, .cfg .bl, .cfg .rst, .cfg .dc, .cfg .sda, .cfg .sck] ++ s.pinLog
      wire := { s.wire with n := 0 }
      frameLog := [.wait 120, .hwRelease, .wait 10, .hwReset] ++ s.frameLog
      panel := s.panel.takeAll [.hwReset, .wait 10, .hwRelease, .wait 120] } := by
  rw [State.hwResetPulse_eq _ (by exact hr), State.configureLines_eq s hs]
  rfl

/-- The first three statements of a successful `init`. -/
theorem initHead_eq (s : State) (q : List Position)
    (hr : s.lines.rst.lvl ≠ some s.params.lvlRstActive) : ∃ q', runStatements 0
      [fun t : State => t.cfgRead.setReady false, fun t => t.configureLines, fun t => t.hwResetPulse] (s.setSeq q) =
      ((s.cfgRead.setReady false).configureLines.hwResetPulse).setSeq q' := by
  have hf : ∀ p : List Position, (s.setSeq p).cfgRead.setReady false = (s.cfgRead.setReady false).setSeq p :=
    fun _ => rfl
  have hss : ∀ (t : State) (p p' : List Position), (t.setSeq p).setSeq p' = t.setSeq p' := fun _ _ _ => rfl
  simp only [runStatements, hss, hf, State.configureLines_setSeq]
  rw [State.hwResetPulse_setSeq _ _ (by exact hr)]
  exact ⟨_, rfl⟩

/-- The last two statements of a successful `init`, and its return. -/
theorem initTail_eq (u : State) (k : Nat) (q : List Position) :
    (runStatements k [fun t : State => t.setReady true, fun t => t.setStatus .ok] u).setSeq q =
      ((u.setReady true).setStatus .ok).setSeq q := rfl

/-- A successful `init`: from `s` with its lines configured and the reset pulse done, at some sequencer position, the
rest of the sequence runs, and READY and STATUS are written (44_init.md R150 to R166). -/
theorem State.initialise_eq (s : State) (hok : s.cfgOk = true) (hr : s.lines.rst.lvl ≠ some s.params.lvlRstActive) :
    ∃ q, s.initialise = (((runStatements 3 (initSequence.tail ++ [State.initClear])
      (((s.cfgRead.setReady false).configureLines.hwResetPulse).setSeq q)).setReady true).setStatus .ok).setSeq
      s.seq := by
  obtain ⟨q, hq⟩ := initHead_eq s (⟨.init, 0⟩ :: s.seq) hr
  refine ⟨q, ?_⟩
  have hb : ((fun t : State => t.cfgRead.setReady false) :: (fun t : State => t.configureLines) ::
        (initSequence ++ [fun t : State => t.initClear, fun t => t.setReady true, fun t => t.setStatus .ok])) =
        [fun t : State => t.cfgRead.setReady false, fun t => t.configureLines, fun t => t.hwResetPulse] ++
        ((initSequence.tail ++ [State.initClear]) ++ [fun t => t.setReady true, fun t => t.setStatus .ok]) := rfl
  simp only [State.initialise, hok, if_true, State.operation]
  rw [hb, runStatements_append, runStatements_append, hq, initTail_eq]
  rfl

/-- A failed `init` (44_init.md R151, 60_exceptions.md R191). -/
theorem State.initialise_failed (s : State) (hok : s.cfgOk = false) :
    s.initialise = ((s.cfgRead.setReady false).setStatus .configFail) := by
  simp only [State.initialise, hok, State.operation, runStatements]
  rfl

end Sys2Proof.Machine
end

