-- ==== Sys2Proof/Laws/PerInstr.lean ====
section
/-! SUPPORT. Laws/PerInstr.lean: statements made once per instruction. `RoundTrip`: decoding gives back what was
encoded (30_encoding.md R76, R86, R89). -/

namespace Sys2Proof.Laws.RoundTrip

/-- Decoding the encoding of a well-formed instruction gives it back. -/
def Statement (i : Instr) : Prop := i.wellFormed = true → decode (encode i) = .instr i

theorem init : Statement .init := fun _ => rfl

theorem clear (c : Word) : Statement (.clear c) := fun _ => by
  simp [encode, decode, decodeRequest, wordBytes]

theorem drawPixel (x y c : Word) : Statement (.drawPixel x y c) := fun _ => by
  simp [encode, decode, decodeRequest, wordBytes]

theorem fillRect (x y w h c : Word) : Statement (.fillRect x y w h c) := fun _ => by
  simp [encode, decode, decodeRequest, wordBytes]

theorem drawChar (x y : Word) (ch : Byte) (fg bg : Word) : Statement (.drawChar x y ch fg bg) := fun _ => by
  simp [encode, decode, decodeRequest, wordBytes]

theorem drawString (x y : Word) (text : List Byte) (fg bg : Word) : Statement (.drawString x y text fg bg) := by
  intro h
  have hl : text.length % 65536 = text.length := Nat.mod_eq_of_lt (by simpa [Instr.wellFormed] using h)
  simp [encode, decode, decodeRequest, wordBytes, hl]

theorem sendByte (v : Byte) : Statement (.sendByte v) := fun _ => rfl

theorem sendWord (v : Word) : Statement (.sendWord v) := fun _ => by
  simp [encode, decode, decodeBare, wordBytes]

theorem sendCommand (o : Byte) : Statement (.sendCommand o) := fun _ => by
  simp [encode, decode, decodeFramed, cmdFrame]

theorem sendDataByte (v : Byte) : Statement (.sendDataByte v) := fun _ => by
  simp [encode, decode, decodeFramed, dataFrame]

theorem sendDataWord (v : Word) : Statement (.sendDataWord v) := fun _ => by
  simp [encode, decode, decodeFramed, dataFrame, wordFrames]

/-- The width is recovered from the end coordinate. -/
theorem endCoord_sub (x w : Word) : endCoord x w - x + 1 = w := by
  simp only [endCoord]; bv_omega

theorem setWindow (x y w h : Word) : Statement (.setWindow x y w h) := fun _ => by
  simp only [encode, decode, decodeFramed, map_frameOfCode_frameCode]
  simp [windowFrames, wordFrames, cmdFrame, dataFrame]
  exact ⟨endCoord_sub x w, endCoord_sub y h⟩

/-- A wire packet is read as its opcode and its operand bytes. -/
theorem decode_wirePacket (op : WireOp) (bs : List Byte) : decode (wirePacket op bs) = wireInstr op bs := by
  simp only [wirePacket, decode, decodeWire, map_frameOfCode_frameCode, commandFrames, cmdFrame,
    wireOpOf_wireOpcode, dataBytes_map_dataFrame]

theorem swreset : Statement .swreset := fun _ => decode_wirePacket _ _
theorem slpout : Statement .slpout := fun _ => decode_wirePacket _ _
theorem noron : Statement .noron := fun _ => decode_wirePacket _ _
theorem invon : Statement .invon := fun _ => decode_wirePacket _ _
theorem dispon : Statement .dispon := fun _ => decode_wirePacket _ _

theorem caset (xs xe : Word) : Statement (.caset xs xe) := fun _ => by
  rw [encode, decode_wirePacket]; simp [wireInstr, wordBytes]

theorem raset (ys ye : Word) : Statement (.raset ys ye) := fun _ => by
  rw [encode, decode_wirePacket]; simp [wireInstr, wordBytes]

theorem ramwr (stream : List Word) : Statement (.ramwr stream) := fun _ => by
  rw [encode, decode_wirePacket]; simp [wireInstr]

theorem madctl (m : Byte) : Statement (.madctl m) := fun _ => decode_wirePacket _ _
theorem colmod (m : Byte) : Statement (.colmod m) := fun _ => decode_wirePacket _ _

end Sys2Proof.Laws.RoundTrip
end

