-- ==== Sys2Proof/Laws/Related.lean ====
section
/-! SUPPORT. Laws/Related.lean: a relation between two states that the primitives keep is kept by every block operation
and by every instruction; one use is to compare two runs that differ only in something an operation does not look at. -/

namespace Sys2Proof.Machine

/-- The primitives keep `R`, and related states agree on what an operation reads: the levels, the waits, the clear, the
glyphs and the environment's answer. -/
structure Related (R : State → State → Prop) : Prop where
  lvlCmd : ∀ s t : State, R s t → s.params.lvlCmd = t.params.lvlCmd
  lvlRst : ∀ s t : State, R s t → s.params.lvlRstActive = t.params.lvlRstActive
  lvlBl : ∀ s t : State, R s t → s.params.lvlBlOn = t.params.lvlBlOn
  tShort : ∀ s t : State, R s t → s.params.tShort = t.params.tShort
  tLong : ∀ s t : State, R s t → s.params.tLong = t.params.tLong
  initClear : ∀ s t : State, R s t → s.params.initClear = t.params.initClear
  glyphRom : ∀ s t : State, R s t → s.glyphRom = t.glyphRom
  cfgOk : ∀ s t : State, R s t → s.cfgOk = t.cfgOk
  line : ∀ (s t : State) (L : Line) (v : Level), R s t → R (s.line L v) (t.line L v)
  configure : ∀ (s t : State) (L : Line), R s t → R (s.configure L) (t.configure L)
  settle : ∀ s t : State, R s t → R s.settle t.settle
  delay : ∀ (s t : State) (n : Nat), R s t → R (s.delay n) (t.delay n)
  yieldPoint : ∀ s t : State, R s t → R s.yieldPoint t.yieldPoint
  setRegs : ∀ (s t : State) (f : Regs → Regs), R s t → R (s.setRegs f) (t.setRegs f)
  setSeq : ∀ (s t : State) (q : List Position), R s t → R (s.setSeq q) (t.setSeq q)
  /-- Either related states stand at one sequencer position, or the position does not matter. -/
  seq : (∀ s t : State, R s t → s.seq = t.seq) ∨
    ∀ (s t : State) (q r : List Position), R s t → R (s.setSeq q) (t.setSeq r)
  setReady : ∀ (s t : State) (b : Bool), R s t → R (s.setReady b) (t.setReady b)
  setStatus : ∀ (s t : State) (v : Status), R s t → R (s.setStatus v) (t.setStatus v)
  cfgRead : ∀ s t : State, R s t → R s.cfgRead t.cfgRead

namespace Related

variable {R : State → State → Prop} (c : Related R)
include c

theorem lvlData {s t : State} (h : R s t) : s.params.lvlData = t.params.lvlData := by
  simp [Params.lvlData, c.lvlCmd s t h]

theorem lvlRstIdle {s t : State} (h : R s t) : s.params.lvlRstIdle = t.params.lvlRstIdle := by
  simp [Params.lvlRstIdle, c.lvlRst s t h]

theorem glyphRead {s t : State} (h : R s t) (ch : Byte) (row : Nat) : s.glyphRead ch row = t.glyphRead ch row := by
  simp [State.glyphRead, c.glyphRom s t h]

/-- A sequencer position computed from the state's own. -/
theorem moveSeq {s t : State} (g : List Position → List Position) (h : R s t) :
    R (s.setSeq (g s.seq)) (t.setSeq (g t.seq)) := by
  rcases c.seq with hq | hq
  · rw [hq s t h]; exact c.setSeq _ _ _ h
  · exact hq _ _ _ _ h

theorem runStatements {body : List (State → State)} (hb : ∀ f ∈ body, ∀ s t, R s t → R (f s) (f t)) :
    ∀ (k : Nat) (s t : State), R s t → R (runStatements k body s) (runStatements k body t) := by
  induction body with
  | nil => intro k s t h; exact h
  | cons f rest ih =>
    intro k s t h
    exact ih (fun g hg => hb g (List.mem_cons_of_mem _ hg)) (k + 1) _ _
      (hb f List.mem_cons_self _ _ (c.moveSeq (atPhase k) h))

/-- An operation comes back to the sequencer position it was called from, whatever its statements did to it. -/
theorem operation (op : OpName) {body : List (State → State)} (hb : ∀ f ∈ body, ∀ s t, R s t → R (f s) (f t))
    {s t : State} (h : R s t) : R (s.operation op body) (t.operation op body) := by
  have h1 := c.runStatements hb 0 _ _ (c.moveSeq (fun q => ⟨op, 0⟩ :: q) h)
  rcases c.seq with hq | hq
  · have e := hq s t h
    unfold State.operation
    rw [e] at h1 ⊢
    exact c.setSeq _ _ _ h1
  · exact hq _ _ _ _ h1

theorem sendBits (v : Byte) : ∀ (i : Nat) (s t : State), R s t → R (s.sendBits v i) (t.sendBits v i) := by
  intro i
  induction i with
  | zero => intro s t h; exact h
  | succ i ih =>
    intro s t h
    exact ih _ _ (c.setRegs _ _ _ (c.settle _ _ (c.line _ _ _ _ (c.settle _ _ (c.line _ _ _ _ (c.line _ _ _ _ h))))))

theorem sendByte (v : Byte) (s t : State) (h : R s t) : R (s.sendByte v) (t.sendByte v) :=
  c.operation _ (by
    simp only [List.forall_mem_cons, List.not_mem_nil, false_implies, implies_true, and_true]
    exact ⟨fun s t h => c.setRegs _ _ _ h, fun s t h => c.sendBits _ _ _ _ h⟩) h

theorem sendWord (v : Word) (s t : State) (h : R s t) : R (s.sendWord v) (t.sendWord v) :=
  c.operation _ (by
    simp only [List.forall_mem_cons, List.not_mem_nil, false_implies, implies_true, and_true]
    exact ⟨fun s t h => c.setRegs _ _ _ h, fun s t h => c.sendByte _ _ _ h, fun s t h => c.sendByte _ _ _ h⟩) h

theorem lineCmd (s t : State) (h : R s t) : R (s.line .dc s.params.lvlCmd) (t.line .dc t.params.lvlCmd) := by
  rw [c.lvlCmd s t h]; exact c.line _ _ _ _ h

theorem lineData (s t : State) (h : R s t) : R (s.line .dc s.params.lvlData) (t.line .dc t.params.lvlData) := by
  rw [c.lvlData h]; exact c.line _ _ _ _ h

theorem sendCommand (o : Byte) (s t : State) (h : R s t) : R (s.sendCommand o) (t.sendCommand o) :=
  c.operation _ (by
    simp only [List.forall_mem_cons, List.not_mem_nil, false_implies, implies_true, and_true]
    exact ⟨c.lineCmd, fun s t h => c.sendByte _ _ _ h, c.lineData⟩) h

theorem sendDataByte (v : Byte) (s t : State) (h : R s t) : R (s.sendDataByte v) (t.sendDataByte v) :=
  c.operation _ (by
    simp only [List.forall_mem_cons, List.not_mem_nil, false_implies, implies_true, and_true]
    exact ⟨c.lineData, fun s t h => c.sendByte _ _ _ h⟩) h

theorem sendDataWord (v : Word) (s t : State) (h : R s t) : R (s.sendDataWord v) (t.sendDataWord v) :=
  c.operation _ (by
    simp only [List.forall_mem_cons, List.not_mem_nil, false_implies, implies_true, and_true]
    exact ⟨c.lineData, fun s t h => c.sendWord _ _ _ h⟩) h

theorem setWindow (x y w h : Word) (s t : State) (hs : R s t) : R (s.setWindow x y w h) (t.setWindow x y w h) :=
  c.operation _ (by
    simp only [List.forall_mem_cons, List.not_mem_nil, false_implies, implies_true, and_true]
    exact ⟨fun s t h => c.setRegs _ _ _ h, fun s t h => c.setRegs _ _ _ h, fun s t h => c.sendCommand _ _ _ h,
      fun s t h => c.sendDataWord _ _ _ h, fun s t h => c.sendDataWord _ _ _ h, fun s t h => c.sendCommand _ _ _ h,
      fun s t h => c.sendDataWord _ _ _ h, fun s t h => c.sendDataWord _ _ _ h,
      fun s t h => c.sendCommand _ _ _ h⟩) hs

theorem fillWords (col : Word) : ∀ (n : Nat) (s t : State), R s t → R (s.fillWords col n) (t.fillWords col n) := by
  intro n
  induction n with
  | zero => intro s t h; exact h
  | succ n ih =>
    intro s t h
    have ht := c.setRegs _ _ (fun r => { r with pixcnt := some (BitVec.ofNat 16 n) }) (c.sendDataWord col s t h)
    simp only [State.fillWords]
    apply ih
    split
    · exact ht
    · exact c.yieldPoint _ _ ht

theorem fillRect (x y w h col : Word) (s t : State) (hs : R s t) :
    R (s.fillRect x y w h col) (t.fillRect x y w h col) := by
  unfold State.fillRect
  split
  · refine c.operation _ ?_ hs
    simp only [List.forall_mem_cons, List.not_mem_nil, false_implies, implies_true, and_true]
    exact ⟨fun s t h => c.setWindow _ _ _ _ _ _ h, fun s t h => c.setRegs _ _ _ h, fun s t h => c.setRegs _ _ _ h,
      fun s t h => c.fillWords _ _ _ _ h⟩
  · exact hs

theorem drawPixel (x y col : Word) (s t : State) (hs : R s t) : R (s.drawPixel x y col) (t.drawPixel x y col) := by
  unfold State.drawPixel
  split
  · refine c.operation _ ?_ hs
    simp only [List.forall_mem_cons, List.not_mem_nil, false_implies, implies_true, and_true]
    exact fun s t h => c.fillRect _ _ _ _ _ _ _ h
  · exact hs

theorem clear (col : Word) (s t : State) (hs : R s t) : R (s.clear col) (t.clear col) :=
  c.operation _ (by
    simp only [List.forall_mem_cons, List.not_mem_nil, false_implies, implies_true, and_true]
    exact fun s t h => c.fillRect _ _ _ _ _ _ _ h) hs

omit c in
theorem foldl {f : State → Nat → State} (hf : ∀ s t k, R s t → R (f s k) (f t k)) :
    ∀ (l : List Nat) (s t : State), R s t → R (l.foldl f s) (l.foldl f t) := by
  intro l
  induction l with
  | nil => intro s t h; exact h
  | cons k l ih => intro s t h; exact ih _ _ (hf _ _ _ h)

theorem drawColumn (g : Byte) (row : Nat) (fg bg : Word) (s t : State) (col : Nat) (h : R s t) :
    R (State.drawColumn g row fg bg s col) (State.drawColumn g row fg bg t col) := by
  have ht := c.sendDataWord (pixelColor g col fg bg) _ _
    (c.setRegs s t (fun r => { r with col := some (BitVec.ofNat 3 col) }) h)
  unfold State.drawColumn
  split
  · exact ht
  · exact c.yieldPoint _ _ ht

theorem drawRow (ch : Byte) (fg bg : Word) (s t : State) (row : Nat) (h : R s t) :
    R (State.drawRow ch fg bg s row) (State.drawRow ch fg bg t row) := by
  unfold State.drawRow
  rw [c.glyphRead h]
  exact foldl (fun s t k h => c.drawColumn _ _ _ _ s t k h) _ _ _ (c.setRegs _ _ _ h)

theorem drawRows (ch : Byte) (fg bg : Word) (s t : State) (h : R s t) : R (s.drawRows ch fg bg) (t.drawRows ch fg bg) :=
  foldl (fun s t k h => c.drawRow _ _ _ s t k h) _ _ _ h

theorem drawChar (x y : Word) (ch : Byte) (fg bg : Word) (s t : State) (h : R s t) :
    R (s.drawChar x y ch fg bg) (t.drawChar x y ch fg bg) := by
  refine c.operation _ ?_ h
  simp only [List.forall_mem_cons]
  refine ⟨fun s t h => c.setRegs _ _ _ h, ?_⟩
  split
  · simp only [List.forall_mem_cons, List.not_mem_nil, false_implies, implies_true, and_true]
    exact ⟨fun s t h => c.setWindow _ _ _ _ _ _ h, fun s t h => c.drawRows _ _ _ _ _ h⟩
  · simp

theorem afterChar (rest : List Byte) (cur : BitVec 32 × BitVec 32) (s t : State) (h : R s t) :
    R (s.afterChar rest cur) (t.afterChar rest cur) := by
  unfold State.afterChar
  split
  · exact c.setRegs _ _ _ h
  · exact c.yieldPoint _ _ (c.setRegs _ _ _ h)

theorem drawText (x0 fg bg : Word) : ∀ (text : List Byte) (ti : Nat) (cur : BitVec 32 × BitVec 32) (s t : State),
    R s t → R (s.drawText x0 fg bg text ti cur) (t.drawText x0 fg bg text ti cur) := by
  intro text
  induction text with
  | nil => intro ti cur s t h; exact h
  | cons b rest ih =>
    intro ti cur s t h
    obtain ⟨cx, cy⟩ := cur
    have h1 := c.setRegs s t (fun r => { r with ti := some (BitVec.ofNat 16 (ti + 1)) }) h
    simp only [State.drawText]
    split
    · exact ih _ _ _ _ (c.afterChar _ _ _ _ h1)
    split
    · exact ih _ _ _ _ (c.afterChar _ _ _ _ h1)
    split
    · exact h1
    apply ih
    apply c.afterChar
    split
    · exact h1
    · exact c.drawChar _ _ _ _ _ _ _ h1

theorem drawString (x y : Word) (text : List Byte) (fg bg : Word) (s t : State) (h : R s t) :
    R (s.drawString x y text fg bg) (t.drawString x y text fg bg) :=
  c.operation _ (by
    simp only [List.forall_mem_cons, List.not_mem_nil, false_implies, implies_true, and_true]
    exact ⟨fun s t h => c.setRegs _ _ _ h, fun s t h => c.setRegs _ _ _ h, fun s t h => c.setRegs _ _ _ h,
      fun s t h => c.drawText _ _ _ _ _ _ _ _ h⟩) h

theorem lineRst (s t : State) (h : R s t) : R (s.line .rst s.params.lvlRstActive) (t.line .rst t.params.lvlRstActive) := by
  rw [c.lvlRst s t h]; exact c.line _ _ _ _ h

theorem lineRstIdle (s t : State) (h : R s t) : R (s.line .rst s.params.lvlRstIdle) (t.line .rst t.params.lvlRstIdle) := by
  rw [c.lvlRstIdle h]; exact c.line _ _ _ _ h

theorem hwResetPulse (s t : State) (h : R s t) : R s.hwResetPulse t.hwResetPulse :=
  c.operation _ (by
    simp only [List.forall_mem_cons, List.not_mem_nil, false_implies, implies_true, and_true]
    exact ⟨c.lineRstIdle, c.lineRst, fun s t h => c.delay _ _ _ h, c.lineRstIdle, fun s t h => c.delay _ _ _ h⟩) h

theorem configureLines (s t : State) (h : R s t) : R s.configureLines t.configureLines := by
  unfold State.configureLines
  rw [c.lvlData h, c.lvlBl s t h]
  exact c.line _ _ _ _ (c.line _ _ _ _ (c.line _ _ _ _ (c.line _ _ _ _ (c.configure _ _ _ (c.configure _ _ _
    (c.configure _ _ _ (c.configure _ _ _ (c.configure _ _ _ h))))))))

theorem initClear' (s t : State) (h : R s t) : R s.initClear t.initClear := by
  unfold State.initClear
  rw [c.initClear s t h]
  split
  · exact h
  · exact c.fillRect _ _ _ _ _ _ _ h

theorem initSequence {f : State → State} (hf : f ∈ Machine.initSequence) (s t : State) (h : R s t) : R (f s) (f t) := by
  have key : ∀ f ∈ Machine.initSequence, ∀ s t : State, R s t → R (f s) (f t) := by
    simp only [Machine.initSequence, List.forall_mem_cons, List.not_mem_nil, false_implies, implies_true, and_true]
    refine ⟨fun s t h => c.hwResetPulse _ _ h, fun s t h => c.delay _ _ _ (c.sendCommand _ _ _ h),
      fun s t h => c.delay _ _ _ (c.sendCommand _ _ _ h), fun s t h => ?_,
      fun s t h => c.sendDataByte _ _ _ (c.sendCommand _ _ _ h), fun s t h => ?_, fun s t h => ?_, fun s t h => ?_⟩
    · rw [c.tShort s t h]; exact c.delay _ _ _ (c.sendDataByte _ _ _ (c.sendCommand _ _ _ h))
    · rw [c.tShort s t h]; exact c.delay _ _ _ (c.sendCommand _ _ _ h)
    · rw [c.tShort s t h]; exact c.delay _ _ _ (c.sendCommand _ _ _ h)
    · rw [c.tLong s t h]; exact c.delay _ _ _ (c.sendCommand _ _ _ h)
  exact key f hf s t h

theorem initialise (s t : State) (h : R s t) : R s.initialise t.initialise := by
  unfold State.initialise
  rw [c.cfgOk s t h]
  refine c.operation _ ?_ h
  simp only [List.forall_mem_cons]
  refine ⟨fun s t h => c.setReady _ _ _ (c.cfgRead _ _ h), ?_⟩
  split
  · simp only [List.forall_mem_cons, List.forall_mem_append, List.not_mem_nil, false_implies, implies_true, and_true]
    exact ⟨c.configureLines, fun f hf => c.initSequence hf, c.initClear', fun s t h => c.setReady _ _ _ h,
      fun s t h => c.setStatus _ _ _ h⟩
  · simp only [List.forall_mem_cons, List.not_mem_nil, false_implies, implies_true, and_true]
    exact fun s t h => c.setStatus _ _ _ h

end Related

/-- States that differ in the sequencer position only stay so under every operation. -/
theorem seq_related : Related fun s t => s.setSeq [] = t.setSeq [] where
  lvlCmd s t h := by have e := congrArg (fun u : State => u.params.lvlCmd) h; exact e
  lvlRst s t h := by have e := congrArg (fun u : State => u.params.lvlRstActive) h; exact e
  lvlBl s t h := by have e := congrArg (fun u : State => u.params.lvlBlOn) h; exact e
  tShort s t h := by have e := congrArg (fun u : State => u.params.tShort) h; exact e
  tLong s t h := by have e := congrArg (fun u : State => u.params.tLong) h; exact e
  initClear s t h := by have e := congrArg (fun u : State => u.params.initClear) h; exact e
  glyphRom s t h := by have e := congrArg (fun u : State => u.glyphRom) h; exact e
  cfgOk s t h := by have e := congrArg (fun u : State => u.cfgOk) h; exact e
  line s t L v h := by have e := congrArg (fun u : State => (u.line L v)) h; exact e
  configure s t L h := by have e := congrArg (fun u : State => (u.configure L)) h; exact e
  settle s t h := by have e := congrArg (fun u : State => u.settle) h; exact e
  delay s t n h := by have e := congrArg (fun u : State => (u.delay n)) h; exact e
  yieldPoint s t h := by have e := congrArg (fun u : State => u.yieldPoint) h; exact e
  setRegs s t f h := by have e := congrArg (fun u : State => (u.setRegs f)) h; exact e
  setSeq s t q h := h
  seq := .inr fun s t q r h => h
  setReady s t b h := by have e := congrArg (fun u : State => (u.setReady b)) h; exact e
  setStatus s t v h := by have e := congrArg (fun u : State => (u.setStatus v)) h; exact e
  cfgRead s t h := by have e := congrArg (fun u : State => u.cfgRead) h; exact e

/-- An operation of one statement that comes back to its sequencer position is that statement. -/
theorem State.operation_one (op : OpName) {f : State → State}
    (hf : ∀ s t : State, s.setSeq [] = t.setSeq [] → (f s).setSeq [] = (f t).setSeq [])
    (hq : ∀ s, (f s).seq = s.seq) (s : State) : s.operation op [f] = f s := by
  have h := hf ((s.setSeq (⟨op, 0⟩ :: s.seq)).setSeq (atPhase 0 (⟨op, 0⟩ :: s.seq))) s rfl
  have h2 := congrArg (fun u : State => u.setSeq s.seq) h
  simp only [State.operation, runStatements]
  have e1 : ((f s).setSeq []).setSeq s.seq = f s := by
    conv_rhs => rw [show f s = (f s).setSeq (f s).seq from rfl, hq]
    rfl
  rw [e1] at h2
  exact h2

/-- `fill_rect` comes back to the sequencer position it was called from. -/
theorem State.fillRect_seq (x y w h c : Word) (s : State) : (s.fillRect x y w h c).seq = s.seq := by
  unfold State.fillRect; split <;> rfl

/-- An operation whose one statement is a `fill_rect` is that `fill_rect` (42_window_fill.md R126, R128). -/
theorem State.operation_fillRect (op : OpName) (x y w h c : Word) (s : State) :
    s.operation op [fun t => t.fillRect x y w h c] = s.fillRect x y w h c :=
  State.operation_one op (fun s t h' => seq_related.fillRect x y w h c s t h') (State.fillRect_seq x y w h c) s

end Sys2Proof.Machine
end

