-- ==== Sys2Proof/Laws/Pins.lean ====
section
/-! SUPPORT. Laws/Pins.lean: what an operation does to the block does not depend on the wire or the panel; and the pin
trace of every operation. -/

namespace Sys2Proof.Machine

/-! ### The block does not see the wire or the panel -/

/-- The state with an idle wire, no frame trace and a panel at power-on: what is left is the block. -/
def State.blockPart (s : State) : State :=
  { s with wire := { acc := 0, n := 0 }, frameLog := [], panel := Panel.powerOn }

/-- States with the same block stay so under every operation (40_transport.md R100: the transport reads no line back). -/
theorem blockPart_related : Related fun s t => s.blockPart = t.blockPart where
  lvlCmd s t h := by have e := congrArg (fun u : State => u.params.lvlCmd) h; exact e
  lvlRst s t h := by have e := congrArg (fun u : State => u.params.lvlRstActive) h; exact e
  lvlBl s t h := by have e := congrArg (fun u : State => u.params.lvlBlOn) h; exact e
  tShort s t h := by have e := congrArg (fun u : State => u.params.tShort) h; exact e
  tLong s t h := by have e := congrArg (fun u : State => u.params.tLong) h; exact e
  initClear s t h := by have e := congrArg (fun u : State => u.params.initClear) h; exact e
  glyphRom s t h := by have e := congrArg (fun u : State => u.glyphRom) h; exact e
  cfgOk s t h := by have e := congrArg (fun u : State => u.cfgOk) h; exact e
  line s t L v h := by have e := congrArg (fun u : State => (u.line L v).blockPart) h; exact e
  configure s t L h := by have e := congrArg (fun u : State => (u.configure L).blockPart) h; exact e
  settle s t h := by have e := congrArg (fun u : State => u.settle.blockPart) h; exact e
  delay s t n h := by have e := congrArg (fun u : State => (u.delay n).blockPart) h; exact e
  yieldPoint s t h := by have e := congrArg (fun u : State => u.yieldPoint.blockPart) h; exact e
  setRegs s t f h := by have e := congrArg (fun u : State => (u.setRegs f).blockPart) h; exact e
  setSeq s t q h := by have e := congrArg (fun u : State => (u.setSeq q).blockPart) h; exact e
  seq := .inl fun s t h => by have e := congrArg (fun u : State => u.seq) h; exact e
  setReady s t b h := by have e := congrArg (fun u : State => (u.setReady b).blockPart) h; exact e
  setStatus s t v h := by have e := congrArg (fun u : State => (u.setStatus v).blockPart) h; exact e
  cfgRead s t h := by have e := congrArg (fun u : State => u.cfgRead.blockPart) h; exact e

theorem State.blockPart_idem (s : State) : s.blockPart = s.blockPart.blockPart := rfl

/-- A state is its block with its own wire, frame trace and panel. -/
theorem State.eq_of_blockPart {t u : State} (h : t.blockPart = u.blockPart) :
    t = { u with wire := t.wire, frameLog := t.frameLog, panel := t.panel } := by
  have e := congrArg (fun r : State => { r with wire := t.wire, frameLog := t.frameLog, panel := t.panel }) h
  exact e

/-- What an operation on the block says of the pin trace and of the rest of the block. -/
theorem State.pins_of_block {s t : State} {rg : Regs} {ln : Lines} {es : List Event}
    (h : t.blockPart = State.blockPart { s with regs := rg, lines := ln, pinLog := es.reverse ++ s.pinLog }) :
    t.pinTrace = s.pinTrace ++ es ∧ t = { s with
      regs := rg, lines := ln, pinLog := t.pinLog, wire := t.wire, frameLog := t.frameLog, panel := t.panel } := by
  have hp : t.pinLog = es.reverse ++ s.pinLog := congrArg State.pinLog h
  refine ⟨by simp [State.pinTrace, hp], ?_⟩
  rw [hp]; exact State.eq_of_blockPart h

/-- The same of an operation issued from outside, and of the registers as it returns. -/
theorem State.issue_of_block {s : State} {f : State → State} {rg : Regs} {ln : Lines} {es : List Event}
    (h : (f s).blockPart = State.blockPart { s with regs := rg, lines := ln, pinLog := es.reverse ++ s.pinLog }) :
    (f s).regs = rg ∧ (s.issue f).pinTrace = s.pinTrace ++ es ∧ s.issue f = { s with
      regs := Regs.noValue, lines := ln, pinLog := (s.issue f).pinLog, wire := (s.issue f).wire,
      frameLog := (s.issue f).frameLog, panel := (s.issue f).panel } := by
  obtain ⟨h1, h2⟩ := State.pins_of_block h
  simp only [State.issue]
  generalize f s = t at h1 h2 ⊢
  exact ⟨congrArg State.regs h2, h1, congrArg (State.setRegs fun _ => Regs.noValue) h2⟩

theorem State.sendByte_block (s : State) (v : Byte) : (s.sendByte v).blockPart = State.blockPart { s with
    regs := { s.regs with sr := some v, bc := some 0 }
    lines := { s.lines with sck := { s.lines.sck with lvl := some true },
                            sda := { s.lines.sda with lvl := some (v.getLsbD 0) } }
    pinLog := (byteEvents s.params.policy v).reverse ++ s.pinLog } := by
  rw [blockPart_related.sendByte v s s.blockPart s.blockPart_idem, State.sendByte_eq _ v rfl]
  rfl

theorem State.sendWord_block (s : State) (v : Word) : (s.sendWord v).blockPart = State.blockPart { s with
    regs := { s.regs with wr := some v, sr := some (loByte v), bc := some 0 }
    lines := { s.lines with sck := { s.lines.sck with lvl := some true },
                            sda := { s.lines.sda with lvl := some ((loByte v).getLsbD 0) } }
    pinLog := (wordEvents s.params.policy v).reverse ++ s.pinLog } := by
  rw [blockPart_related.sendWord v s s.blockPart s.blockPart_idem, State.sendWord_eq _ v rfl]
  rfl

theorem State.sendCommand_block (s : State) (o : Byte) : (s.sendCommand o).blockPart = State.blockPart { s with
    regs := { s.regs with sr := some o, bc := some 0 }
    lines := { s.lines with sck := { s.lines.sck with lvl := some true },
                            sda := { s.lines.sda with lvl := some (o.getLsbD 0) },
                            dc := { s.lines.dc with lvl := some s.params.lvlData } }
    pinLog := (commandEvents s.params o).reverse ++ s.pinLog } := by
  rw [blockPart_related.sendCommand o s s.blockPart s.blockPart_idem, State.sendCommand_eq _ o rfl]
  rfl

theorem State.sendDataByte_block (s : State) (v : Byte) : (s.sendDataByte v).blockPart = State.blockPart { s with
    regs := { s.regs with sr := some v, bc := some 0 }
    lines := { s.lines with sck := { s.lines.sck with lvl := some true },
                            sda := { s.lines.sda with lvl := some (v.getLsbD 0) },
                            dc := { s.lines.dc with lvl := some s.params.lvlData } }
    pinLog := (dataByteEvents s.params v).reverse ++ s.pinLog } := by
  rw [blockPart_related.sendDataByte v s s.blockPart s.blockPart_idem, State.sendDataByte_eq _ v rfl]
  rfl

theorem State.sendDataWord_block (s : State) (v : Word) : (s.sendDataWord v).blockPart = State.blockPart { s with
    regs := { s.regs with wr := some v, sr := some (loByte v), bc := some 0 }
    lines := { s.lines with sck := { s.lines.sck with lvl := some true },
                            sda := { s.lines.sda with lvl := some ((loByte v).getLsbD 0) },
                            dc := { s.lines.dc with lvl := some s.params.lvlData } }
    pinLog := (dataWordEvents s.params v).reverse ++ s.pinLog } := by
  rw [blockPart_related.sendDataWord v s s.blockPart s.blockPart_idem, State.sendDataWord_eq _ v rfl]
  rfl

theorem State.setWindow_block (s : State) (x y w h : Word) : (s.setWindow x y w h).blockPart = State.blockPart { s with
    regs := { s.regs with x := some x, y := some y, w := some w, h := some h, xe := some (endCoord x w),
                          ye := some (endCoord y h), wr := some (endCoord y h), sr := some 0x2C, bc := some 0 }
    lines := { s.lines with sck := { s.lines.sck with lvl := some true },
                            sda := { s.lines.sda with lvl := some false },
                            dc := { s.lines.dc with lvl := some s.params.lvlData } }
    pinLog := (windowEvents s.params x y w h).reverse ++ s.pinLog } := by
  rw [blockPart_related.setWindow x y w h s s.blockPart s.blockPart_idem, State.setWindow_eq _ x y w h rfl]
  rfl

theorem loByte_bit0 (v : Word) : (loByte v).getLsbD 0 = v.getLsbD 0 := by simp [loByte]

/-! ### The pin trace of a stream -/

/-- From `s` to `t` the pin trace has grown by `es`, `k` places where a yield may fall have gone by, and no byte is half
sent. -/
structure Pinned (s t : State) (es : List Event) (k : Nat) : Prop where
  pins : t.pinLog = es.reverse ++ s.pinLog
  places : t.yieldPoints = s.yieldPoints + k
  params : t.params = s.params
  glyphRom : t.glyphRom = s.glyphRom
  wire_n : t.wire.n = 0

namespace Pinned

variable {s t u : State} {es fs : List Event} {j k : Nat}

theorem refl (hn : s.wire.n = 0) : Pinned s s [] 0 := ⟨rfl, rfl, rfl, rfl, hn⟩

theorem trans (h : Pinned s t es j) (g : Pinned t u fs k) : Pinned s u (es ++ fs) (j + k) :=
  ⟨by rw [g.pins, h.pins]; simp, by rw [g.places, h.places]; omega, g.params.trans h.params,
    g.glyphRom.trans h.glyphRom, g.wire_n⟩

theorem setRegs (h : Pinned s t es k) (f : Regs → Regs) : Pinned s (t.setRegs f) es k := { h with }
theorem setSeq (h : Pinned s t es k) (q : List Position) : Pinned s (t.setSeq q) es k := { h with }
theorem of_setRegs {f : Regs → Regs} (h : Pinned (s.setRegs f) t es k) : Pinned s t es k := { h with }
theorem of_setSeq {q : List Position} (h : Pinned (s.setSeq q) t es k) : Pinned s t es k := { h with }

theorem pinTrace (h : Pinned s t es k) : t.pinTrace = s.pinTrace ++ es := by
  simp [State.pinTrace, h.pins]

end Pinned

theorem State.sendCommand_pinned (s : State) (o : Byte) (hn : s.wire.n = 0) :
    Pinned s (s.sendCommand o) (commandEvents s.params o) 0 := by
  rw [State.sendCommand_eq s o hn]; exact ⟨rfl, rfl, rfl, rfl, rfl⟩

theorem State.sendDataByte_pinned (s : State) (v : Byte) (hn : s.wire.n = 0) :
    Pinned s (s.sendDataByte v) (dataByteEvents s.params v) 0 := by
  rw [State.sendDataByte_eq s v hn]; exact ⟨rfl, rfl, rfl, rfl, rfl⟩

theorem State.sendDataWord_pinned (s : State) (v : Word) (hn : s.wire.n = 0) :
    Pinned s (s.sendDataWord v) (dataWordEvents s.params v) 0 := by
  rw [State.sendDataWord_eq s v hn]; exact ⟨rfl, rfl, rfl, rfl, rfl⟩

theorem State.setWindow_pinned (s : State) (x y w h : Word) (hn : s.wire.n = 0) :
    Pinned s (s.setWindow x y w h) (windowEvents s.params x y w h) 0 := by
  rw [State.setWindow_eq s x y w h hn]; exact ⟨rfl, rfl, rfl, rfl, rfl⟩

theorem State.delay_pinned (s : State) (n : Nat) (hn : s.wire.n = 0) : Pinned s (s.delay n) [.wait n] 0 :=
  ⟨rfl, rfl, rfl, rfl, hn⟩

theorem State.yieldPoint_pinned (s : State) (hn : s.wire.n = 0) :
    Pinned s s.yieldPoint (yieldEvents s.params s.yieldPoints) 1 :=
  ⟨by simp only [State.yieldPoint, yieldEvents]; split <;> rfl, rfl, rfl, rfl, hn⟩

theorem State.fillWords_pinned (c : Word) (n : Nat) : ∀ s : State, s.wire.n = 0 →
    Pinned s (s.fillWords c n) (streamEvents s.params s.yieldPoints (List.replicate n c)) (n - 1) := by
  induction n with
  | zero => intro s hn; exact Pinned.refl hn
  | succ n ih =>
    intro s hn
    have h1 := (s.sendDataWord_pinned c hn).setRegs fun r => { r with pixcnt := some (BitVec.ofNat 16 n) }
    cases n with
    | zero => exact h1
    | succ n =>
      have h2 := h1.trans (State.yieldPoint_pinned _ h1.wire_n)
      have h3 := h2.trans (ih _ h2.wire_n)
      rw [h2.params, h2.places, h1.params, h1.places] at h3
      simp only [List.replicate_succ, streamEvents] at h3 ⊢
      rw [State.fillWords, if_neg (by omega)]
      have e : 0 + 1 + (n + 1 - 1) = n + 1 + 1 - 1 := by omega
      rw [e] at h3
      exact h3

/-- From every state with the ROM and the parameters of `r`, no byte half sent and `k` places gone by, `f` puts `es` on
the pins. -/
def Pins (r : State) (k : Nat) (f : State → State) (es : List Event) (j : Nat) : Prop :=
  ∀ s : State, s.wire.n = 0 → s.glyphRom = r.glyphRom → s.params = r.params → s.yieldPoints = k →
    Pinned s (f s) es j

theorem Pins.setRegs (r : State) (k : Nat) (f : Regs → Regs) : Pins r k (State.setRegs f) [] 0 :=
  fun _ hn _ _ _ => (Pinned.refl hn).setRegs f

/-- A list of statements at successive yield places. -/
def PinsAll (r : State) : Nat → List ((State → State) × List Event × Nat) → Prop
  | _, [] => True
  | k, p :: rest => Pins r k p.1 p.2.1 p.2.2 ∧ PinsAll r (k + p.2.2) rest

theorem PinsAll.runStatements {r : State} : ∀ {body : List ((State → State) × List Event × Nat)} {k : Nat},
    PinsAll r k body → ∀ ph, Pins r k (runStatements ph (body.map fun p => p.1)) (body.map fun p => p.2.1).flatten
      (body.map fun p => p.2.2).sum := by
  intro body
  induction body with
  | nil => intro k _ ph s hn _ _ _; exact Pinned.refl hn
  | cons p rest ih =>
    intro k h ph s hn hr hp hk
    have h1 := Pinned.of_setSeq (h.1 (s.setSeq (atPhase ph s.seq)) hn hr hp hk)
    have h2 := ih h.2 (ph + 1) _ h1.wire_n (h1.glyphRom.trans hr) (h1.params.trans hp) (by rw [h1.places, hk])
    exact h1.trans h2

theorem PinsAll.operation {r : State} (op : OpName) {body : List ((State → State) × List Event × Nat)} {k : Nat}
    (h : PinsAll r k body) : Pins r k (State.operation op (body.map fun p => p.1)) (body.map fun p => p.2.1).flatten
      (body.map fun p => p.2.2).sum :=
  fun s hn hr hp hk =>
    Pinned.setSeq (Pinned.of_setSeq (h.runStatements 0 (s.setSeq (⟨op, 0⟩ :: s.seq)) hn hr hp hk)) s.seq

theorem State.fillRect_pinned (s : State) (x y w h c : Word) (hn : s.wire.n = 0) (hv : validRect x y w h = true) :
    Pinned s (s.fillRect x y w h c) (windowEvents s.params x y w h ++
      streamEvents s.params s.yieldPoints (List.replicate (w.toNat * h.toNat) c)) (w.toNat * h.toNat - 1) := by
  have key := PinsAll.operation (r := s) (k := s.yieldPoints) .fillRect (body := [
    (State.setWindow x y w h, windowEvents s.params x y w h, 0),
    (State.setRegs fun r => { r with color := some c }, [], 0),
    (State.setRegs fun r => { r with pixcnt := some (BitVec.ofNat 16 (pixelCount w h)) }, [], 0),
    (State.fillWords c (pixelCount w h), streamEvents s.params s.yieldPoints (List.replicate (pixelCount w h) c),
      pixelCount w h - 1)]) (by
      simp only [PinsAll, Nat.add_zero, and_true]
      refine ⟨fun t hn _ hp _ => hp ▸ t.setWindow_pinned x y w h hn, Pins.setRegs _ _ _, Pins.setRegs _ _ _,
        fun t hn _ hp hk => ?_⟩
      have := State.fillWords_pinned c (pixelCount w h) t hn
      rw [hp, hk] at this
      exact this)
  have := key s hn rfl rfl rfl
  rw [State.fillRect, if_pos hv]
  simpa [pixelCount] using this

/-- Words each followed by a place where a yield may fall. -/
def openStream (p : Params) : Nat → List Word → List Event
  | _, [] => []
  | k, c :: cs => dataWordEvents p c ++ yieldEvents p k ++ openStream p (k + 1) cs

theorem openStream_append (p : Params) (a b : List Word) : ∀ k, openStream p k (a ++ b) =
    openStream p k a ++ openStream p (k + a.length) b := by
  induction a with
  | nil => intro k; rfl
  | cons c a ih =>
    intro k
    simp only [List.cons_append, openStream, ih, List.append_assoc, List.length_cons]
    rw [show k + 1 + a.length = k + (a.length + 1) by omega]

theorem streamEvents_snoc (p : Params) (c : Word) (a : List Word) : ∀ k, streamEvents p k (a ++ [c]) =
    openStream p k a ++ dataWordEvents p c := by
  induction a with
  | nil => intro k; rfl
  | cons d a ih =>
    intro k
    cases a with
    | nil => simp [streamEvents, openStream]
    | cons e a =>
      have := ih (k + 1)
      simp only [List.cons_append, streamEvents, openStream, List.append_assoc] at this ⊢
      rw [this]

theorem State.drawColumns_pinned (g : Byte) (row : Nat) (fg bg : Word) : ∀ (l : List Nat) (s : State),
    (∀ c ∈ l, ¬(row = 7 ∧ c = 7)) → s.wire.n = 0 → Pinned s (l.foldl (State.drawColumn g row fg bg) s)
      (openStream s.params s.yieldPoints (l.map fun c => pixelColor g c fg bg)) l.length := by
  intro l
  induction l with
  | nil => intro s _ hn; exact Pinned.refl hn
  | cons c l ih =>
    intro s hl hn
    have h1 := Pinned.of_setRegs (State.sendDataWord_pinned (s.setRegs fun r => { r with col := some (BitVec.ofNat 3 c) })
      (pixelColor g c fg bg) hn)
    have h2 := h1.trans (State.yieldPoint_pinned _ h1.wire_n)
    have h3 := h2.trans (ih _ (fun d hd => hl d (List.mem_cons_of_mem _ hd)) h2.wire_n)
    rw [h2.params, h2.places, h1.params, h1.places] at h3
    have e : State.drawColumn g row fg bg s c = ((s.setRegs fun r => { r with col := some (BitVec.ofNat 3 c) }).sendDataWord
        (pixelColor g c fg bg)).yieldPoint := by
      rw [State.drawColumn, if_neg (hl c List.mem_cons_self)]
    simp only [List.foldl_cons, e, List.map_cons, openStream, List.length_cons]
    have e2 : 0 + 1 + l.length = l.length + 1 := by omega
    rw [e2] at h3
    exact h3

/-- The words of one glyph row. -/
def rowWords (g : Byte) (fg bg : Word) : List Word := [0, 1, 2, 3, 4, 5, 6, 7].map fun c => pixelColor g c fg bg

theorem State.drawRowsOpen_pinned (ch : Byte) (fg bg : Word) (r : State) : ∀ (l : List Nat) (s : State),
    (∀ k ∈ l, k ≠ 7) → s.wire.n = 0 → s.glyphRom = r.glyphRom → Pinned s (l.foldl (State.drawRow ch fg bg) s)
      (openStream s.params s.yieldPoints (l.flatMap fun k => rowWords (r.glyphRead ch k) fg bg)) (8 * l.length) := by
  intro l
  induction l with
  | nil => intro s _ hn _; exact Pinned.refl hn
  | cons k l ih =>
    intro s hl hn hr
    have hg : s.glyphRead ch k = r.glyphRead ch k := by simp [State.glyphRead, hr]
    have hk : k ≠ 7 := hl k List.mem_cons_self
    have h1 : Pinned s (State.drawRow ch fg bg s k) _ _ := Pinned.of_setRegs (State.drawColumns_pinned (s.glyphRead ch k) k fg bg
      [0, 1, 2, 3, 4, 5, 6, 7] (s.setRegs fun q => { q with row := some (BitVec.ofNat 3 k), grow := some (s.glyphRead ch k) })
      (fun c _ h => hk h.1) hn)
    have h2 := h1.trans (ih _ (fun d hd => hl d (List.mem_cons_of_mem _ hd)) h1.wire_n (h1.glyphRom.trans hr))
    rw [h1.params, h1.places, hg] at h2
    simp only [List.foldl_cons, List.flatMap_cons, openStream_append, List.length_cons]
    have e2 : [0, 1, 2, 3, 4, 5, 6, 7].length + 8 * l.length = 8 * (l.length + 1) := by simp; omega
    rw [e2] at h2
    exact h2

theorem State.drawColumn_last (g : Byte) (fg bg : Word) (q : State) (hn : q.wire.n = 0) :
    Pinned q ([7].foldl (State.drawColumn g 7 fg bg) q) (dataWordEvents q.params (pixelColor g 7 fg bg)) 0 := by
  rw [List.foldl_cons, List.foldl_nil, State.drawColumn, if_pos ⟨rfl, rfl⟩]
  exact Pinned.of_setRegs (State.sendDataWord_pinned (q.setRegs
    fun r => { r with col := some (BitVec.ofNat 3 7) }) (pixelColor g 7 fg bg) hn)

theorem State.lastRow_pinned (ch : Byte) (fg bg : Word) (s : State) (hn : s.wire.n = 0) :
    Pinned s (State.drawRow ch fg bg s 7) (openStream s.params s.yieldPoints
      ([0, 1, 2, 3, 4, 5, 6].map fun c => pixelColor (s.glyphRead ch 7) c fg bg) ++
      dataWordEvents s.params (pixelColor (s.glyphRead ch 7) 7 fg bg)) 7 := by
  have h1 := Pinned.of_setRegs (State.drawColumns_pinned (s.glyphRead ch 7) 7 fg bg [0, 1, 2, 3, 4, 5, 6]
    (s.setRegs fun q => { q with row := some (BitVec.ofNat 3 7), grow := some (s.glyphRead ch 7) }) (by decide) hn)
  have e : [0, 1, 2, 3, 4, 5, 6, 7] = [0, 1, 2, 3, 4, 5, 6] ++ [7] := rfl
  have el : [0, 1, 2, 3, 4, 5, 6].length = 7 := rfl
  rw [State.drawRow, e, List.foldl_append]
  rw [State.setRegs_params, State.setRegs_yieldPoints, el] at h1
  generalize List.foldl (State.drawColumn (s.glyphRead ch 7) 7 fg bg) _ _ = q at h1 ⊢
  generalize openStream s.params s.yieldPoints _ = a at h1 ⊢
  have h2 := State.drawColumn_last (s.glyphRead ch 7) fg bg q h1.wire_n
  rw [h1.params] at h2
  exact h1.trans h2

theorem State.drawRows_pinned (ch : Byte) (fg bg : Word) (s : State) (hn : s.wire.n = 0) :
    Pinned s (s.drawRows ch fg bg) (streamEvents s.params s.yieldPoints (glyphWords (s.glyphRead ch) fg bg)) 63 := by
  have h1 := State.drawRowsOpen_pinned ch fg bg s [0, 1, 2, 3, 4, 5, 6] s (by decide) hn rfl
  have e : [0, 1, 2, 3, 4, 5, 6, 7] = [0, 1, 2, 3, 4, 5, 6] ++ [7] := rfl
  rw [State.drawRows, e, List.foldl_append]
  generalize List.foldl (State.drawRow ch fg bg) s [0, 1, 2, 3, 4, 5, 6] = q at h1 ⊢
  rw [List.foldl_cons, List.foldl_nil]
  have hg : q.glyphRead ch 7 = s.glyphRead ch 7 := by simp [State.glyphRead, h1.glyphRom]
  have h2 := h1.trans (State.lastRow_pinned ch fg bg q h1.wire_n)
  rw [h1.params, h1.places, hg] at h2
  have e5 : glyphWords (s.glyphRead ch) fg bg =
      (([0, 1, 2, 3, 4, 5, 6].flatMap fun k => rowWords (s.glyphRead ch k) fg bg) ++
      ([0, 1, 2, 3, 4, 5, 6].map fun c => pixelColor (s.glyphRead ch 7) c fg bg)) ++
      [pixelColor (s.glyphRead ch 7) 7 fg bg] := rfl
  have el : ([0, 1, 2, 3, 4, 5, 6].flatMap fun k => rowWords (s.glyphRead ch k) fg bg).length = 56 := rfl
  have em : 8 * [0, 1, 2, 3, 4, 5, 6].length = 56 := rfl
  rw [e5, streamEvents_snoc, openStream_append, List.append_assoc, el]
  rw [em] at h2
  exact h2

/-- Three statements of which the first puts nothing on the pins. -/
theorem Pins.three {r : State} {k j : Nat} (op : OpName) {f g h : State → State} {a b : List Event}
    (hf : Pins r k f [] 0) (hg : Pins r k g a 0) (hh : Pins r k h b j) :
    Pins r k (State.operation op [f, g, h]) (a ++ b) j := by
  have := PinsAll.operation (r := r) (k := k) op (body := [(f, [], 0), (g, a, 0), (h, b, j)]) ⟨hf, hg, hh, trivial⟩
  simpa using this

theorem State.drawChar_pinned (s : State) (x y : Word) (ch : Byte) (fg bg : Word) (hn : s.wire.n = 0)
    (hc : printable ch = true) : Pinned s (s.drawChar x y ch fg bg) (windowEvents s.params x y 8 8 ++
      streamEvents s.params s.yieldPoints (glyphWords (s.glyphRead ch) fg bg)) 63 := by
  rw [State.drawChar, if_pos hc]
  refine Pins.three (r := s) (k := s.yieldPoints) .drawChar (Pins.setRegs _ _ _)
    (fun t hn _ hp _ => hp ▸ t.setWindow_pinned x y 8 8 hn) (fun t hn hr hp hk => ?_) s hn rfl rfl rfl
  have := State.drawRows_pinned ch fg bg t hn
  have hg : s.glyphRead ch = t.glyphRead ch := by funext r; simp [State.glyphRead, hr]
  rw [hp, hk, ← hg] at this
  exact this

/-! ### The pin trace of a text -/

/-- A character that is not printable puts nothing on the pins. -/
theorem State.drawChar_dropped_pinned (s : State) (x y : Word) (ch : Byte) (fg bg : Word) (hn : s.wire.n = 0)
    (hc : printable ch = false) : Pinned s (s.drawChar x y ch fg bg) [] 0 := by
  have := PinsAll.operation (r := s) (k := s.yieldPoints) .drawChar (body := [
    (State.setRegs fun r => { r with ch := some ch, fg := some fg, bg := some bg }, [], 0)])
    ⟨Pins.setRegs s s.yieldPoints fun r => { r with ch := some ch, fg := some fg, bg := some bg }, trivial⟩ s hn rfl rfl rfl
  simpa [State.drawChar, hc] using this

/-- The place after a character. -/
theorem State.afterChar_pinned (s : State) (rest : List Byte) (cur : BitVec 32 × BitVec 32) (hn : s.wire.n = 0) :
    Pinned s (s.afterChar rest cur) (gapEvents s.params s.yieldPoints rest) (if rest.isEmpty then 0 else 1) := by
  unfold State.afterChar gapEvents
  split
  · exact (Pinned.refl hn).setRegs _
  · exact Pinned.of_setRegs (State.yieldPoint_pinned (s.setCursor cur) hn)

/-- After the last character it does not matter how the places are numbered. -/
theorem textEvents_places (s : State) (fg bg : Word) (x0 : Nat) (rest : List Byte) (k cx cy : Nat) :
    textEvents s fg bg x0 rest (k + if rest.isEmpty then 0 else 1) cx cy = textEvents s fg bg x0 rest (k + 1) cx cy := by
  cases rest <;> rfl

/-- The events depend on the state by its parameters and glyphs only. -/
theorem textEvents_congr {s t : State} (hp : t.params = s.params) (hg : t.glyphRom = s.glyphRom) (fg bg : Word)
    (x0 : Nat) (text : List Byte) : ∀ k cx cy, textEvents t fg bg x0 text k cx cy = textEvents s fg bg x0 text k cx cy := by
  have hr : ∀ c : Byte, (fun row => t.glyphRead c row) = fun row => s.glyphRead c row := by
    intro c; funext r; simp [State.glyphRead, hg]
  induction text with
  | nil => intro k cx cy; rfl
  | cons c rest ih => intro k cx cy; simp only [textEvents, hp, hr, ih]

/-- The loop of `draw_string` puts the events of its layout on the pins. -/
theorem State.drawText_pinned (x0 fg bg : Word) (text : List Byte) : ∀ (ti : Nat) (cx cy : BitVec 32) (s : State),
    s.wire.n = 0 → cx.toNat < 2 ^ 31 → cy.toNat + 10 * text.length < 2 ^ 32 →
    ∃ j, Pinned s (s.drawText x0 fg bg text ti (cx, cy))
      (textEvents s fg bg x0.toNat text s.yieldPoints cx.toNat cy.toNat) j := by
  induction text with
  | nil => intro ti cx cy s hn _ _; exact ⟨0, Pinned.refl hn⟩
  | cons c rest ih =>
    intro ti cx cy s hn hx hy
    simp only [List.length_cons] at hy
    have hx0 := x0.isLt
    have hz : (zext32 x0).toNat < 2 ^ 31 := by rw [zext32_toNat]; omega
    have hdown : (cy + BitVec.ofNat 32 Config.lineAdvance).toNat = cy.toNat + 10 := by
      simp only [Config.lineAdvance, BitVec.toNat_add, BitVec.toNat_ofNat]; omega
    have hright : (cx + BitVec.ofNat 32 Config.charAdvance).toNat = cx.toNat + 9 := by
      simp only [Config.charAdvance, BitVec.toNat_add, BitVec.toNat_ofNat]; omega
    -- one character, then the rest of the text
    have step : ∀ {u : State} {es : List Event} {k : Nat} (cur : BitVec 32 × BitVec 32), Pinned s u es k →
        cur.1.toNat < 2 ^ 31 → cur.2.toNat + 10 * rest.length < 2 ^ 32 →
        ∃ j, Pinned s ((u.afterChar rest cur).drawText x0 fg bg rest (ti + 1) cur)
          (es ++ gapEvents s.params (s.yieldPoints + k) rest ++
            textEvents s fg bg x0.toNat rest (s.yieldPoints + k + 1) cur.1.toNat cur.2.toNat) j := by
      intro u es k cur h h1 h2
      have g := h.trans (u.afterChar_pinned rest cur h.wire_n)
      obtain ⟨j, hj⟩ := ih (ti + 1) cur.1 cur.2 _ g.wire_n h1 h2
      have := g.trans hj
      rw [textEvents_congr g.params g.glyphRom, g.places, h.params, h.places, ← Nat.add_assoc, textEvents_places] at this
      exact ⟨_, this⟩
    have h0 : Pinned s (s.setRegs fun r => { r with ti := some (BitVec.ofNat 16 (ti + 1)) }) [] 0 :=
      (Pinned.refl hn).setRegs _
    simp only [State.drawText, textEvents]
    split
    · have := step (zext32 x0, cy + BitVec.ofNat 32 Config.lineAdvance) h0 hz (by rw [hdown]; omega)
      rw [zext32_toNat, hdown] at this
      exact this
    split
    · have := step (zext32 x0, cy) h0 hz (by dsimp only; omega)
      rw [zext32_toNat] at this
      exact this
    simp only [pastEdge_iff]
    split
    · exact ⟨0, h0⟩
    have hcell : Pinned s (if 240 < cx.toNat + 8 then s.setRegs fun r => { r with ti := some (BitVec.ofNat 16 (ti + 1)) }
        else (s.setRegs fun r => { r with ti := some (BitVec.ofNat 16 (ti + 1)) }).drawChar (trunc16 cx) (trunc16 cy) c
          fg bg) (if decide (cx.toNat + 8 ≤ 240 ∧ 32 ≤ c.toNat ∧ c.toNat ≤ 126) then
            charEvents s.params s.yieldPoints (s.glyphRead c) (BitVec.ofNat 16 cx.toNat) (BitVec.ofNat 16 cy.toNat) fg bg
          else []) (if decide (cx.toNat + 8 ≤ 240 ∧ 32 ≤ c.toNat ∧ c.toNat ≤ 126) then 63 else 0) := by
      by_cases hfit : 240 < cx.toNat + 8
      · rw [if_pos hfit, decide_eq_false (by omega)]; exact h0
      · rw [if_neg hfit]
        by_cases hc : printable c = true
        · have hc' : 32 ≤ c.toNat ∧ c.toNat ≤ 126 := (printable_iff c).mp hc
          rw [decide_eq_true ⟨by omega, hc'⟩]
          exact Pinned.of_setRegs (State.drawChar_pinned
            (s.setRegs fun r => { r with ti := some (BitVec.ofNat 16 (ti + 1)) }) (trunc16 cx) (trunc16 cy) c fg bg hn hc)
        · have hc' : ¬(32 ≤ c.toNat ∧ c.toNat ≤ 126) := fun h => hc ((printable_iff c).mpr h)
          rw [decide_eq_false (fun h => hc' h.2)]
          exact Pinned.of_setRegs (State.drawChar_dropped_pinned
            (s.setRegs fun r => { r with ti := some (BitVec.ofNat 16 (ti + 1)) }) _ _ c fg bg hn (by simpa using hc))
    have hnext : (if decide (cx.toNat + 8 ≤ 240 ∧ 32 ≤ c.toNat ∧ c.toNat ≤ 126) = true then s.yieldPoints + 63
        else s.yieldPoints) =
        s.yieldPoints + if decide (cx.toNat + 8 ≤ 240 ∧ 32 ≤ c.toNat ∧ c.toNat ≤ 126) = true then 63 else 0 := by
      split <;> rfl
    simp only [hnext, advanceCursor, pastEdge_iff, hright]
    split
    · have := step (zext32 x0, cy + BitVec.ofNat 32 Config.lineAdvance) hcell hz (by rw [hdown]; omega)
      rw [zext32_toNat, hdown] at this
      exact this
    · have := step (cx + BitVec.ofNat 32 Config.charAdvance, cy) hcell (by rw [hright]; omega) (by dsimp only; omega)
      rw [hright] at this
      exact this

/-- `draw_string` puts the events of its layout on the pins (43_text.md R141, 42_window_fill.md R129). -/
theorem State.drawString_pinned (s : State) (x y : Word) (text : List Byte) (fg bg : Word) (hn : s.wire.n = 0)
    (ht : text.length < 65536) : ∃ j, Pinned s (s.drawString x y text fg bg)
      (textEvents s fg bg x.toNat text s.yieldPoints x.toNat y.toNat) j := by
  have hx := x.isLt
  have hy := y.isLt
  have key : ∀ t : State, t.wire.n = 0 → ∃ j, Pinned t (t.drawText x fg bg text 0 (zext32 x, zext32 y))
      (textEvents t fg bg x.toNat text t.yieldPoints x.toNat y.toNat) j := by
    intro t hn
    have := State.drawText_pinned x fg bg text 0 (zext32 x) (zext32 y) t hn (by rw [zext32_toNat]; omega)
      (by rw [zext32_toNat]; omega)
    rwa [zext32_toNat, zext32_toNat] at this
  simp only [State.drawString, State.operation, runStatements]
  generalize hu : State.setSeq _ (State.setRegs _ (State.setSeq _ (State.setCursor _ _))) = u
  have h1 : Pinned s u [] 0 := by subst hu; exact ⟨rfl, rfl, rfl, rfl, hn⟩
  obtain ⟨j, hj⟩ := key u h1.wire_n
  have := h1.trans hj
  rw [textEvents_congr h1.params h1.glyphRom, h1.places] at this
  exact ⟨_, this.setSeq _⟩

/-! ### The pin trace of init -/

/-- The events of steps 3 to 9 of `init` (44_init.md R156 to R162). -/
def initCommandEvents (p : Params) : List Event :=
  commandEvents p 0x01 ++ [.wait 150] ++ commandEvents p 0x11 ++ [.wait 255] ++
  commandEvents p 0x3A ++ dataByteEvents p 0x55 ++ [.wait p.tShort] ++ commandEvents p 0x36 ++ dataByteEvents p 0x00 ++
  commandEvents p 0x21 ++ [.wait p.tShort] ++ commandEvents p 0x13 ++ [.wait p.tShort] ++
  commandEvents p 0x29 ++ [.wait p.tLong]

/-- How many places where a yield may fall step 10 of `init` goes by. -/
def initClearPlaces (p : Params) : Nat := if p.initClear = none then 0 else (240#16).toNat * (240#16).toNat - 1

theorem State.initClear_pinned (s : State) (hn : s.wire.n = 0) :
    Pinned s s.initClear (initClearEvents s.params s.yieldPoints) (initClearPlaces s.params) := by
  cases h : s.params.initClear with
  | none => simpa [State.initClear, initClearEvents, initClearPlaces, h] using Pinned.refl hn
  | some c =>
    have := State.fillRect_pinned s 0 0 240 240 c hn (by decide)
    rw [State.initClear, initClearEvents, initClearPlaces, h]
    exact this

theorem Pinned.delay {s t : State} {es : List Event} {k : Nat} (h : Pinned s t es k) (n : Nat) : Pinned s (t.delay n) (es ++ [.wait n]) k :=
  h.trans (t.delay_pinned n h.wire_n)

theorem initRest_pins (r : State) : Pins r r.yieldPoints (runStatements 3 (initSequence.tail ++ [State.initClear]))
    (initCommandEvents r.params ++ initClearEvents r.params r.yieldPoints) (initClearPlaces r.params) := by
  have hcmd : ∀ (s : State) (o : Byte), s.wire.n = 0 → s.params = r.params → Pinned s (s.sendCommand o) (commandEvents r.params o) 0 :=
    fun s o hn hp => hp ▸ s.sendCommand_pinned o hn
  have hdat : ∀ (s : State) (o : Byte), s.wire.n = 0 → s.params = r.params → Pinned s (s.sendDataByte o) (dataByteEvents r.params o) 0 :=
    fun s o hn hp => hp ▸ s.sendDataByte_pinned o hn
  have key := PinsAll.runStatements (r := r) (k := r.yieldPoints) (body := ([
    (fun t => (t.sendCommand (wireOpcode .swreset)).delay Config.tSwreset, commandEvents r.params 0x01 ++ [Event.wait 150], 0),
    (fun t => (t.sendCommand (wireOpcode .slpout)).delay Config.tSlpout, commandEvents r.params 0x11 ++ [Event.wait 255], 0),
    (fun t => ((t.sendCommand (wireOpcode .colmod)).sendDataByte 0x55).delay t.params.tShort,
      commandEvents r.params 0x3A ++ dataByteEvents r.params 0x55 ++ [Event.wait r.params.tShort], 0),
    (fun t => (t.sendCommand (wireOpcode .madctl)).sendDataByte 0x00,
      commandEvents r.params 0x36 ++ dataByteEvents r.params 0x00, 0),
    (fun t => (t.sendCommand (wireOpcode .invon)).delay t.params.tShort,
      commandEvents r.params 0x21 ++ [Event.wait r.params.tShort], 0),
    (fun t => (t.sendCommand (wireOpcode .noron)).delay t.params.tShort,
      commandEvents r.params 0x13 ++ [Event.wait r.params.tShort], 0),
    (fun t => (t.sendCommand (wireOpcode .dispon)).delay t.params.tLong,
      commandEvents r.params 0x29 ++ [Event.wait r.params.tLong], 0),
    (State.initClear, initClearEvents r.params r.yieldPoints, initClearPlaces r.params)] :
      List ((State → State) × List Event × Nat))) (by
      simp only [PinsAll, Nat.add_zero, and_true]
      refine ⟨fun s hn _ hp _ => (hcmd s 0x01 hn hp).delay 150, fun s hn _ hp _ => (hcmd s 0x11 hn hp).delay 255,
        fun s hn _ hp _ => ?_, fun s hn _ hp _ => ?_, fun s hn _ hp _ => ?_, fun s hn _ hp _ => ?_, fun s hn _ hp _ => ?_,
        fun s hn _ hp hk => ?_⟩
      · have h1 := hcmd s 0x3A hn hp
        have h2 := (h1.trans (hdat _ 0x55 h1.wire_n (h1.params.trans hp))).delay s.params.tShort
        rw [hp] at h2; simp only [hp]; exact h2
      · have h1 := hcmd s 0x36 hn hp
        exact h1.trans (hdat _ 0x00 h1.wire_n (h1.params.trans hp))
      · have h2 := (hcmd s 0x21 hn hp).delay s.params.tShort
        rw [hp] at h2; simp only [hp]; exact h2
      · have h2 := (hcmd s 0x13 hn hp).delay s.params.tShort
        rw [hp] at h2; simp only [hp]; exact h2
      · have h2 := (hcmd s 0x29 hn hp).delay s.params.tLong
        rw [hp] at h2; simp only [hp]; exact h2
      · have := s.initClear_pinned hn
        rwa [hp, hk] at this) 3
  intro s hn hr hp hk
  have := key s hn hr hp hk
  simpa [initSequence, initCommandEvents] using this

/-- A successful `init` in closed form: from `s` with its lines configured and the reset pulse done, the rest of the
sequence is sent, to `u`, and READY and STATUS are written (44_init.md R150 to R166). -/
theorem State.initialise_ok (s : State) (hok : s.cfgOk = true) (hs : s.lines.sck.lvl ≠ some false)
    (hr : s.lines.rst.lvl ≠ some s.params.lvlRstActive) : ∃ u : State,
    Sent ((s.cfgRead.setReady false).configureLines.hwResetPulse) u
      ((initElems s.params).drop 4 ++ initClearElems s.params) ∧
    Pinned ((s.cfgRead.setReady false).configureLines.hwResetPulse) u
      (initCommandEvents s.params ++ initClearEvents s.params s.yieldPoints) (initClearPlaces s.params) ∧
    u.LinesRest ∧ s.initialise = ((u.setReady true).setStatus .ok).setSeq s.seq := by
  obtain ⟨q, he⟩ := State.initialise_eq s hok hr
  have hc := State.configurePulse_eq (s.cfgRead.setReady false) hs hr
  have hn : ((s.cfgRead.setReady false).configureLines.hwResetPulse).wire.n = 0 := by rw [hc]
  have hp : ((s.cfgRead.setReady false).configureLines.hwResetPulse).params = s.params := by rw [hc]; rfl
  have hy : ((s.cfgRead.setReady false).configureLines.hwResetPulse).yieldPoints = s.yieldPoints := by rw [hc]; rfl
  have hrest : ((s.cfgRead.setReady false).configureLines.hwResetPulse).LinesRest := by rw [hc]; exact ⟨rfl, rfl⟩
  generalize (s.cfgRead.setReady false).configureLines.hwResetPulse = c at hn hp hy hrest he ⊢
  have h1 : Sent c _ _ := Sent.of_setSeq (initRest_sends (c.setSeq q) (c.setSeq q) hn rfl rfl)
  have h2 : Pinned c _ _ _ := Pinned.of_setSeq (initRest_pins (c.setSeq q) (c.setSeq q) hn rfl rfl rfl)
  have hp' : (c.setSeq q).params = s.params := hp
  have hy' : (c.setSeq q).yieldPoints = s.yieldPoints := hy
  rw [hp'] at h1
  rw [hp', hy'] at h2
  exact ⟨_, h1, h2, h1.rest hrest, he⟩

end Sys2Proof.Machine
end

