-- ==== Sys2Proof/Laws/Receiver.lean ====
section
/-! SUPPORT. Laws/Receiver.lean: a wire command as an instruction: it goes on with the panel that has taken its frames,
or stops with what has stopped the receiver. -/

namespace Sys2Proof.Machine

theorem State.wireCommand_next (s : State) (op : WireOp) (bs : List Byte)
    (h : (s.panel.takeAll (elems (commandFrames op bs))).stop = none) :
    s.wireCommand op bs = .next { s with panel := s.panel.takeAll (elems (commandFrames op bs)) } := by
  unfold State.wireCommand State.atReceiver
  simp only [elems] at h
  simp only [h, elems]

/-- A command that takes no operand. -/
theorem State.wireCommand_begin (s : State) (op : WireOp) (h : s.panel.hears = true)
    (hb : (s.panel.begin op).stop = none) : s.wireCommand op [] = .next { s with panel := s.panel.begin op } := by
  have e : s.panel.takeAll (elems (commandFrames op [])) = s.panel.begin op := by
    simp [commandFrames, elems, Panel.take_command h]
  rw [State.wireCommand_next s op [] (by rw [e]; exact hb), e]

/-- The outcome a stop of the receiver gives. -/
def Stop.outcome (r : Stop) : Host.Outcome State Fault Refusal :=
  match r with
  | .fault f => .fault f
  | .refused f => .refused f

theorem State.wireCommand_stop (s : State) (op : WireOp) (bs : List Byte) (r : Stop)
    (h : s.panel.takeAll (elems (commandFrames op bs)) = Panel.halted r) : s.wireCommand op bs = r.outcome := by
  unfold State.wireCommand State.atReceiver
  simp only [elems] at h
  rw [h]; cases r <;> rfl

theorem State.wireCommand_cases {s t : State} {op : WireOp} {bs : List Byte} (h : s.wireCommand op bs = .next t) :
    t = { s with panel := s.panel.takeAll (elems (commandFrames op bs)) } ∧
      (s.panel.takeAll (elems (commandFrames op bs))).stop = none := State.atReceiver_cases h

/-- The panel after steps 2 to 9 of `init` (44_init.md R152, R156 to R162). -/
def Panel.initialised : Panel :=
  { Panel.powerOn with mode := some .idle, sleep := some .awake, colmod := some 0x55, madctl := some 0x00,
                       inv := some .on, norm := some .on, disp := some .on }

/-- The reset pulse and its two waits, at a receiver that owes no more than these waits together. -/
theorem Panel.takeAll_pulse {p : Panel} (hs : p.stop = none) (ho : p.owed ≤ 130) :
    p.takeAll [Elem.hwReset, Elem.wait 10, Elem.hwRelease, Elem.wait 120] =
      { Panel.powerOn with mode := some .idle } := by
  have h1 : p.take .hwReset = p.resetPulse := by simp [Panel.take, hs, Panel.receive]
  have h2 : p.resetPulse.take (.wait 10) = { p.resetPulse with holdOwed := 0, owed := p.owed - 10 } := by
    simp [Panel.take, Panel.receive, Panel.resetPulse, Panel.powerOn, Config.tRstHold]
  have h3 : ({ p.resetPulse with holdOwed := 0, owed := p.owed - 10 } : Panel).take .hwRelease =
      { Panel.powerOn with mode := some .idle, owed := max (p.owed - 10) Config.tRstBoot } := by
    simp [Panel.take, Panel.receive, Panel.release, Panel.resetPulse, Panel.powerOn]
  have h4 : ({ Panel.powerOn with mode := some .idle, owed := max (p.owed - 10) Config.tRstBoot } : Panel).take
      (.wait 120) = { Panel.powerOn with mode := some .idle, owed := max (p.owed - 10) Config.tRstBoot - 120 } := by
    simp [Panel.take, Panel.receive, Panel.powerOn]
  rw [Panel.takeAll_cons, h1, Panel.takeAll_cons, h2, Panel.takeAll_cons, h3, Panel.takeAll_cons, h4, Panel.takeAll_nil,
    show max (p.owed - 10) Config.tRstBoot - 120 = 0 by simp only [Config.tRstBoot]; omega]
  rfl

theorem Panel.takeAll_init {p : Panel} (hs : p.stop = none) (ho : p.owed ≤ 130) (q : Params) :
    p.takeAll (initElems q) = Panel.initialised := by
  have hw : ∀ (n : Nat) (r : Panel) (es : List Elem), r.stop = none → r.holdOwed = 0 → r.owed = 0 →
      r.takeAll (.wait n :: es) = r.takeAll es := by
    intro n r es h1 h2 h3
    have : r.take (.wait n) = r := by
      cases r; simp_all [Panel.take, Panel.receive]
    rw [Panel.takeAll_cons, this]
  have happ : ∀ (es fs : List Elem) (r t : Panel), r.takeAll es = t → r.takeAll (es ++ fs) = t.takeAll fs := by
    intro es fs r t h; rw [Panel.takeAll_append, h]
  rw [initElems]
  refine (happ [Elem.hwReset, Elem.wait 10, Elem.hwRelease, Elem.wait 120] _ _ _ (Panel.takeAll_pulse hs ho)).trans ?_
  refine (happ [Elem.frame (cmdFrame 0x01), Elem.wait 150,
    Elem.frame (cmdFrame 0x11), Elem.wait 255, Elem.frame (cmdFrame 0x3A), Elem.frame (dataFrame 0x55)] _ _
    { Panel.powerOn with mode := some .idle, sleep := some .awake, colmod := some 0x55 } (by decide)).trans ?_
  rw [hw _ _ _ rfl rfl rfl]
  refine (happ [Elem.frame (cmdFrame 0x36), Elem.frame (dataFrame 0x00), Elem.frame (cmdFrame 0x21)] _ _
    { Panel.powerOn with mode := some .idle, sleep := some .awake, colmod := some 0x55, madctl := some 0x00,
                         inv := some .on } (by decide)).trans ?_
  rw [hw _ _ _ rfl rfl rfl]
  refine (happ [Elem.frame (cmdFrame 0x13)] _ _
    { Panel.powerOn with mode := some .idle, sleep := some .awake, colmod := some 0x55, madctl := some 0x00,
                         inv := some .on, norm := some .on } (by decide)).trans ?_
  rw [hw _ _ _ rfl rfl rfl]
  refine (happ [Elem.frame (cmdFrame 0x29)] _ _ Panel.initialised (by decide)).trans ?_
  rw [hw _ _ _ rfl rfl rfl, Panel.takeAll_nil]

end Sys2Proof.Machine
end

