-- ==== Sys2Proof/Laws/Requests.lean ====
section
/-! SUPPORT. Laws/Requests.lean: what each drawing request sends, in one law, and what any instruction
that goes on has done. -/

namespace Sys2Proof.Machine

/-- A host request that answers a next state was admitted and has run to its return (60_exceptions.md R196). -/
theorem State.hostRequest_cases {b : Bool} {run : State → State} {s t : State} (h : s.hostRequest b run = .next t) :
    t = (run s).setRegs (fun _ => Regs.noValue) ∧ s.seq = [] ∧ s.ready = b := by
  unfold State.hostRequest State.admits at h
  split at h
  · rename_i h'
    cases h; exact ⟨rfl, by simpa using h'⟩
  · cases h

/-- The frame trace of a drawing request (42_window_fill.md R124, R126, R128; 43_text.md R136, R149). -/
def requestElems (s : State) : Instr → List Elem
  | .clear c => fillElems 0 0 240 240 c
  | .drawPixel x y c => if onPanel x y then fillElems x y 1 1 c else []
  | .fillRect x y w h c => if validRect x y w h then fillElems x y w h c else []
  | .drawChar x y ch fg bg => if printable ch then charElems (s.glyphRead ch) x y fg bg else []
  | .drawString x y text fg bg => textElems s fg bg (textCells x.toNat text x.toNat y.toNat)
  | _ => []

theorem State.fillRect_sent_or (s : State) (x y w h c : Word) (hn : s.wire.n = 0) :
    Sent s (s.fillRect x y w h c) (if validRect x y w h then fillElems x y w h c else []) := by
  cases hv : validRect x y w h with
  | true => exact State.fillRect_sent s x y w h c hn hv
  | false => rw [State.fillRect_dropped s x y w h c hv]; exact Sent.refl hn

/-- One pixel on the panel is a valid rectangle (42_window_fill.md R126). -/
theorem validRect_pixel {x y : Word} (h : onPanel x y = true) : validRect x y 1 1 = true := by
  have h1 : (1 : Word).toNat = 1 := rfl
  have h : x.toNat < 240 ∧ y.toNat < 240 := of_decide_eq_true h
  exact (validRect_iff x y 1 1).mpr (by rw [h1]; omega)

/-- A drawing request that answers a next state was admitted, and has sent its frames. -/
theorem exec_drawing_sent {i : Instr} {s t : State} (hi : hostIssued i = true) (hne : i ≠ .init)
    (hw : i.wellFormed = true) (hn : s.wire.n = 0) (he : exec i s = .next t) :
    s.seq = [] ∧ s.ready = true ∧ t.seq = [] ∧ t.regs = Regs.noValue ∧ Sent s t (requestElems s i) := by
  have key : ∀ {run : State → State}, (run s).seq = s.seq → Sent s (run s) (requestElems s i) →
      s.hostRequest true run = .next t →
      s.seq = [] ∧ s.ready = true ∧ t.seq = [] ∧ t.regs = Regs.noValue ∧ Sent s t (requestElems s i) := by
    intro run hq hs hh
    obtain ⟨h1, h2, h3⟩ := State.hostRequest_cases hh
    subst h1
    exact ⟨h2, h3, hq.trans h2, rfl, hs.setRegs _⟩
  cases i with
  | clear c =>
    refine key ?_ ?_ he
    · rw [State.clear, State.operation_fillRect]; exact State.fillRect_seq _ _ _ _ _ _
    · rw [State.clear, State.operation_fillRect]; exact State.fillRect_sent s 0 0 240 240 c hn (by decide)
  | drawPixel x y c =>
    refine key ?_ ?_ he
    · rw [State.drawPixel]
      split
      · rw [State.operation_fillRect]; exact State.fillRect_seq _ _ _ _ _ _
      · rfl
    · rw [State.drawPixel, requestElems]
      split
      · rename_i h
        rw [State.operation_fillRect]; exact State.fillRect_sent s x y 1 1 c hn (validRect_pixel h)
      · exact Sent.refl hn
  | fillRect x y w h c => exact key (State.fillRect_seq _ _ _ _ _ _) (State.fillRect_sent_or s x y w h c hn) he
  | drawChar x y ch fg bg =>
    refine key rfl ?_ he
    rw [requestElems]
    split
    · rename_i h; exact State.drawChar_sent s x y ch fg bg hn h
    · rename_i h; exact State.drawChar_dropped s x y ch fg bg hn (by simpa using h)
  | drawString x y text fg bg =>
    exact key rfl (State.drawString_sent s x y text fg bg hn (by simpa [Instr.wellFormed] using hw)) he
  | _ => simp [hostIssued] at hi hne

/-- An operation comes back to the sequencer position it was called from (10_state.md R20). -/
theorem State.operation_seq (op : OpName) (body : List (State → State)) (s : State) :
    (s.operation op body).seq = s.seq := rfl

theorem State.drawPixel_seq (x y c : Word) (s : State) : (s.drawPixel x y c).seq = s.seq := by
  unfold State.drawPixel
  split
  · exact State.operation_seq _ _ _
  · rfl

/-- What an instruction that answers a next state has done: it has issued an operation of the block, which came back to
the sequencer position it was called from, or it has changed the panel alone. -/
theorem exec_cases {i : Instr} {s t : State} (h : exec i s = .next t) :
    (∃ f : State → State, t = s.issue f ∧ (f s).seq = s.seq) ∨ ∃ p : Panel, t = { s with panel := p } ∧ p.stop = none := by
  have host : ∀ {b : Bool} (f : State → State), (f s).seq = s.seq → s.hostRequest b f = .next t →
      (∃ f : State → State, t = s.issue f ∧ (f s).seq = s.seq) ∨
        ∃ p : Panel, t = { s with panel := p } ∧ p.stop = none :=
    fun f hf he => .inl ⟨f, (State.hostRequest_cases he).1, hf⟩
  have block : ∀ f : State → State, (f s).seq = s.seq →
      (Host.Outcome.next (s.issue f) : Host.Outcome State Fault Refusal) = .next t →
      (∃ f : State → State, t = s.issue f ∧ (f s).seq = s.seq) ∨
        ∃ p : Panel, t = { s with panel := p } ∧ p.stop = none :=
    fun f hf he => .inl ⟨f, (Host.Outcome.next.inj he).symm, hf⟩
  have wire : ∀ (op : WireOp) (bs : List Byte), s.wireCommand op bs = .next t →
      (∃ f : State → State, t = s.issue f ∧ (f s).seq = s.seq) ∨
        ∃ p : Panel, t = { s with panel := p } ∧ p.stop = none :=
    fun op bs he => .inr ⟨_, State.atReceiver_cases he⟩
  cases i with
  | init => exact host State.initialise (State.operation_seq _ _ _) h
  | clear c => exact host (State.clear c) (State.operation_seq _ _ _) h
  | drawPixel x y c => exact host (State.drawPixel x y c) (State.drawPixel_seq _ _ _ _) h
  | fillRect x y w hh c => exact host (State.fillRect x y w hh c) (State.fillRect_seq _ _ _ _ _ _) h
  | drawChar x y ch fg bg => exact host (State.drawChar x y ch fg bg) (State.operation_seq _ _ _) h
  | drawString x y text fg bg => exact host (State.drawString x y text fg bg) (State.operation_seq _ _ _) h
  | sendByte v => exact block (State.sendByte v) (State.operation_seq _ _ _) h
  | sendWord v => exact block (State.sendWord v) (State.operation_seq _ _ _) h
  | sendCommand o => exact block (State.sendCommand o) (State.operation_seq _ _ _) h
  | sendDataByte v => exact block (State.sendDataByte v) (State.operation_seq _ _ _) h
  | sendDataWord v => exact block (State.sendDataWord v) (State.operation_seq _ _ _) h
  | setWindow x y w hh => exact block (State.setWindow x y w hh) (State.operation_seq _ _ _) h
  | swreset => exact wire _ _ h
  | slpout => exact wire _ _ h
  | noron => exact wire _ _ h
  | invon => exact wire _ _ h
  | dispon => exact wire _ _ h
  | caset xs xe => exact wire _ _ h
  | raset ys ye => exact wire _ _ h
  | ramwr ws => exact wire _ _ h
  | madctl m => exact wire _ _ h
  | colmod m => exact wire _ _ h

end Sys2Proof.Machine
end

