-- ==== Sys2Proof/Tests/Slice0.lean ====
section
/-! SUPPORT. Tests/Slice0.lean: the model's own tests. Expected values come from spec/95_test_vectors.md (vector names
V<n>, S<n>, P<n> in the comments) or are worked out by hand from the encoding rules; the witness theorems show, for each
statement with hypotheses, values that meet them all. -/

set_option maxRecDepth 100000

namespace Sys2Proof.Tests

open Sys2Proof.Machine

/-! ### Helpers -/

/-- A command frame. -/
def C (b : Byte) : Elem := .frame ⟨.command, b⟩

/-- A data frame. -/
def D (b : Byte) : Elem := .frame ⟨.data, b⟩

/-- The panel after vector V71. -/
def panelReady : Panel :=
  { Panel.powerOn with mode := some .idle, sleep := some .awake, colmod := some 0x55, madctl := some 0x00,
                       inv := some .on, norm := some .on, disp := some .on }

/-- The glyph rows of 'A' and 'B' from the synthetic table TG of 95_test_vectors.md. -/
def romAB : Memory :=
  [(264, 0x41), (265, 0x51), (266, 0x61), (267, 0x71), (268, 0x81), (269, 0x91), (270, 0xA1), (271, 0xB1),
   (272, 0x42), (273, 0x52), (274, 0x62), (275, 0x72), (276, 0x82), (277, 0x92), (278, 0xA2), (279, 0xB2)]

/-- The machine after vector V71, its traces emptied, with the glyphs of TG for 'A' and 'B'. -/
def ready : State :=
  { State.reset with
    lines := { sck := ⟨true, some true⟩, sda := ⟨true, some true⟩, dc := ⟨true, some true⟩, rst := ⟨true, some true⟩,
               bl := ⟨true, some true⟩ }
    ready := true, status := some .ok, panel := panelReady, glyphRom := romAB }

/-- Before an `init` without the final clear, the environment's answer being `b`. -/
def before (b : Bool) : State :=
  { State.reset with params := { Params.default with initClear := none }, cfgAnswers := [b] }

/-- Before an `init` with the final clear, lines being granted. -/
def beforeClear : State := { State.reset with cfgAnswers := [true] }

/-- The ready machine with an input waiting. -/
def input (i : Input) : State := { ready with inbox := [i] }

/-- The ready machine with another panel. -/
def withPanel (p : Panel) : State := { ready with panel := p }

/-- The panel with a window of columns `xs` to `xe` and rows `ys` to `ye`. -/
def panelWindow (xs xe ys ye : Word) : Panel :=
  { panelReady with xs := some xs, xe := some xe, ys := some ys, ye := some ye }

/-- A view of the state an outcome goes on with. -/
def after {α : Type} (f : State → α) : Host.Outcome State Fault Refusal → Option α
  | .next t => some (f t)
  | .fault _ => none
  | .refused _ => none

/-- The fault of an outcome. -/
def faultOf : Host.Outcome State Fault Refusal → Option Fault
  | .next _ => none
  | .fault f => some f
  | .refused _ => none

/-- The refusal of an outcome. -/
def refusalOf : Host.Outcome State Fault Refusal → Option Refusal
  | .next _ => none
  | .fault _ => none
  | .refused r => some r

/-! ### WellFormed: the one check refuses an ill-formed term -/

theorem test_wellFormed_refuses_a_text_of_65536_bytes :
    (Instr.drawString 0 0 (List.replicate 65536 0x41) 0 0).wellFormed = false := by
  simp only [Instr.wellFormed, List.length_replicate]; decide

theorem test_wellFormed_admits_a_text_of_65535_bytes :
    (Instr.drawString 0 0 (List.replicate 65535 0x41) 0 0).wellFormed = true := by
  simp only [Instr.wellFormed, List.length_replicate]; decide

/-! ### Decode: words written out from 30_encoding.md R76, R86, R89 -/

theorem test_decode_init : decode (.request [0x01]) = .instr .init := by decide
theorem test_decode_clear : decode (.request [0x02, 0xF8, 0x01]) = .instr (.clear 0xF801) := by decide
theorem test_decode_draw_pixel : decode (.request [0x03, 0x00, 0x0B, 0x00, 0x14, 0xF8, 0x00]) =
    .instr (.drawPixel 11 20 0xF800) := by decide
theorem test_decode_fill_rect : decode (.request [0x04, 0x00, 0x0A, 0x00, 0x14, 0x00, 0x03, 0x00, 0x02, 0x07, 0xE0]) =
    .instr (.fillRect 10 20 3 2 0x07E0) := by decide
theorem test_decode_draw_char : decode (.request [0x05, 0x00, 0xEC, 0x00, 0x00, 0x41, 0xFF, 0xFF, 0x00, 0x00]) =
    .instr (.drawChar 236 0 0x41 0xFFFF 0x0000) := by decide
theorem test_decode_draw_string : decode (.request [0x06, 0x00, 0x00, 0x00, 0x00, 0x00, 0x03, 0x41, 0x0A, 0x42, 0xFF,
    0xFF, 0x00, 0x00]) = .instr (.drawString 0 0 [0x41, 0x0A, 0x42] 0xFFFF 0x0000) := by decide
theorem test_decode_send_byte : decode (.bare [0xA5]) = .instr (.sendByte 0xA5) := by decide
theorem test_decode_send_word : decode (.bare [0x12, 0x34]) = .instr (.sendWord 0x1234) := by decide
theorem test_decode_send_command : decode (.framed [0b000101100]) = .instr (.sendCommand 0x2C) := by decide
theorem test_decode_send_data_byte : decode (.framed [0b101010101]) = .instr (.sendDataByte 0x55) := by decide
theorem test_decode_send_data_word : decode (.framed [0b111111000, 0b100000000]) = .instr (.sendDataWord 0xF800) := by
  decide
theorem test_decode_set_window : decode (.framed [0b000101010, 0b100000000, 0b100001010, 0b100000000, 0b100100111,
    0b000101011, 0b100000000, 0b100010100, 0b100000000, 0b100111011, 0b000101100]) = .instr (.setWindow 10 20 30 40) := by
  decide
theorem test_decode_swreset : decode (.wire [0b000000001]) = .instr .swreset := by decide
theorem test_decode_slpout : decode (.wire [0b000010001]) = .instr .slpout := by decide
theorem test_decode_noron : decode (.wire [0b000010011]) = .instr .noron := by decide
theorem test_decode_invon : decode (.wire [0b000100001]) = .instr .invon := by decide
theorem test_decode_dispon : decode (.wire [0b000101001]) = .instr .dispon := by decide
theorem test_decode_caset : decode (.wire [0b000101010, 0b100000000, 0b100001010, 0b100000000, 0b100100111]) =
    .instr (.caset 10 39) := by decide
theorem test_decode_raset : decode (.wire [0b000101011, 0b100000000, 0b100010100, 0b100000000, 0b100111011]) =
    .instr (.raset 20 59) := by decide
theorem test_decode_ramwr : decode (.wire [0b000101100, 0b110101011, 0b111001101]) = .instr (.ramwr [0xABCD]) := by
  decide
theorem test_decode_madctl : decode (.wire [0b000110110, 0b100000000]) = .instr (.madctl 0x00) := by decide
theorem test_decode_colmod : decode (.wire [0b000111010, 0b101010101]) = .instr (.colmod 0x55) := by decide

/-- P4 request 2. -/
theorem test_decode_rejects_opsel_9 : decode (.request [0x09]) = .rejected (.unknownOpsel 0x09) := by decide
/-- 0x28 is not assigned (V87). -/
theorem test_decode_rejects_opcode_28 : decode (.wire [0b000101000]) = .rejected (.unknownOpcode 0x28) := by decide
theorem test_decode_rejects_a_long_request : decode (.request [0x01, 0x00]) = .rejected .wrongLength := by decide
theorem test_decode_rejects_half_a_word : decode (.wire [0b000101100, 0b110101011]) = .rejected .tornStream := by decide
theorem test_table_word_set_window : decodeTableWord 104 (0x02A * 2 ^ 90 + 0x100 * 2 ^ 81 + 0x100 * 2 ^ 72 +
    0x100 * 2 ^ 63 + 0x100 * 2 ^ 54 + 0x02B * 2 ^ 45 + 0x100 * 2 ^ 36 + 0x100 * 2 ^ 27 + 0x100 * 2 ^ 18 +
    0x100 * 2 ^ 9 + 0x02C) = some (.setWindow 0 0 1 1) := by decide

/-- One word for each pattern of R89 that is no other row's word. -/
theorem test_table_words_of_the_patterns : decodeTableWord 8 0xA5 = some (.sendByte 0xA5) ∧
    decodeTableWord 16 0x1234 = some (.sendWord 0x1234) ∧ decodeTableWord 16 0x0FF = some (.sendCommand 0xFF) ∧
    decodeTableWord 16 0x155 = some (.sendDataByte 0x55) ∧
    decodeTableWord 24 (0x1F8 * 512 + 0x100) = some (.sendDataWord 0xF800) := by decide

/-! ### The transport and the framing -/

/-- V1. -/
theorem test_send_byte_pins : after State.pinTrace (exec (.sendByte 0xA5) ready) = some
    [.set .sda true, .set .sck false, .set .sck true, .set .sda false, .set .sck false, .set .sck true,
     .set .sda true, .set .sck false, .set .sck true, .set .sda false, .set .sck false, .set .sck true,
     .set .sda false, .set .sck false, .set .sck true, .set .sda true, .set .sck false, .set .sck true,
     .set .sda false, .set .sck false, .set .sck true, .set .sda true, .set .sck false, .set .sck true] := by decide

/-- V2: five events a bit cell under the conservative policy. -/
theorem test_send_byte_conservative : after (fun t => (t.pinTrace.take 5, t.pinTrace.length, t.pinTrace.count .settle))
    (exec (.sendByte 0xA5) { ready with params := { Params.default with policy := .conservative } }) = some
    ([.set .sda true, .set .sck false, .settle, .set .sck true, .settle], 40, 16) := by decide

/-- V4, R19: SR, BC and WR at the return, then none of them, and SDA. -/
theorem test_send_word_registers : (let t := ready.sendWord 0x1234
      (t.regs.wr, t.regs.sr, t.regs.bc)) = (some 0x1234, some 0x34, some 0) ∧
    after (fun t => (t.regs, t.lines.sda.lvl)) (exec (.sendWord 0x1234) ready) = some (Regs.noValue, some false) := by decide

/-- V5: high byte first. -/
theorem test_send_word_frames : after State.frameTrace (exec (.sendWord 0x00FF) ready) = some [D 0x00, D 0xFF] := by
  decide

/-- V10. -/
theorem test_send_command : after (fun t => (t.pinTrace.head?, t.pinTrace.getLast?, t.pinTrace.length, t.frameTrace))
    (exec (.sendCommand 0x2C) ready) = some (some (.set .dc false), some (.set .dc true), 26, [C 0x2C]) := by decide

/-- V11. -/
theorem test_send_data_byte : after (fun t => (t.pinTrace.head?, t.pinTrace.length)) (exec (.sendDataByte 0x55) ready) =
    some (some (.set .dc true), 25) := by decide

/-- V12: one write of DC, not two. -/
theorem test_send_data_word : after (fun t => (t.pinTrace.length, t.pinTrace.count (.set .dc true), t.lines.sda.lvl))
    (exec (.sendDataWord 0xF800) ready) = some (49, 1, some false) := by decide

/-! ### Window, fill, pixel -/

/-- V20. -/
theorem test_set_window : (let t := ready.setWindow 10 20 30 40
      (t.regs.xe, t.regs.ye)) = (some 39, some 59) ∧
    after (fun t => (t.regs, t.pinTrace.length, t.frameTrace)) (exec (.setWindow 10 20 30 40) ready) =
      some (Regs.noValue, 274, [C 0x2A, D 0x00, D 0x0A, D 0x00, D 0x27, C 0x2B, D 0x00, D 0x14, D 0x00, D 0x3B, C 0x2C]) := by decide

/-- V22: the frames. -/
theorem test_fill_rect_frames : after State.frameTrace (exec (.fillRect 10 20 3 2 0x07E0) ready) = some
    [C 0x2A, D 0x00, D 0x0A, D 0x00, D 0x0C, C 0x2B, D 0x00, D 0x14, D 0x00, D 0x15, C 0x2C, D 0x07, D 0xE0, D 0x07,
     D 0xE0, D 0x07, D 0xE0, D 0x07, D 0xE0, D 0x07, D 0xE0, D 0x07, D 0xE0] := by decide

/-- V22: the six elements, and one beside them. -/
theorem test_fill_rect_paints : after (fun t => ([(10, 20), (11, 20), (12, 20), (10, 21), (11, 21), (12, 21)].map
    fun c => fbRead c.1 c.2 t.panel.fb, fbRead 13 20 t.panel.fb, t.panel.mode)) (exec (.fillRect 10 20 3 2 0x07E0) ready) =
    some (List.replicate 6 (some 0x07E0), none, some .exhausted) := by decide

/-- S2. -/
theorem test_draw_pixel_frames : after State.frameTrace (exec (.drawPixel 239 239 0xFFFF) ready) = some
    [C 0x2A, D 0x00, D 0xEF, D 0x00, D 0xEF, C 0x2B, D 0x00, D 0xEF, D 0x00, D 0xEF, C 0x2C, D 0xFF, D 0xFF] := by decide

/-- V26. -/
theorem test_draw_pixel_dropped : after (fun t => t.pinLog) (exec (.drawPixel 240 0 0xFFFF) ready) = some [] := by decide

/-- P4 request 4. -/
theorem test_clear_refused_before_init : refusalOf (exec (.clear 0x0000) State.reset) = some .notAdmitted := by decide

/-! ### Text -/

/-- V40: rows 0 and 4 of the picture, and the length. -/
theorem test_draw_char_picture : after (fun t => ((List.range 8).map fun c => fbRead c 0 t.panel.fb,
    (List.range 8).map fun c => fbRead c 4 t.panel.fb, t.frameTrace.length)) (exec (.drawChar 0 0 65 0xFFFF 0x0000) ready) =
    some ([some 0xFFFF, some 0, some 0, some 0, some 0, some 0, some 0xFFFF, some 0],
      [some 0xFFFF, some 0, some 0, some 0, some 0, some 0, some 0, some 0xFFFF], 139) := by decide

/-- V45: the panel stops with PanelWindow, the block goes on to the end. -/
theorem test_draw_char_outside : after (fun t => (t.panel.stop, t.frameTrace.length, t.ready))
    (exec (.drawChar 233 0 65 0xFFFF 0x0000) ready) = some (some (.fault .panelWindow), 139, true) := by decide

/-- V50: where the two cells are, and the number of frames. -/
theorem test_draw_string_newline : after (fun t => (t.frameTrace.take 11, (t.frameTrace.drop 139).take 11,
    t.frameTrace.length)) (exec (.drawString 0 0 [0x41, 0x0A, 0x42] 0xFFFF 0x0000) ready) = some
    ([C 0x2A, D 0x00, D 0x00, D 0x00, D 0x07, C 0x2B, D 0x00, D 0x00, D 0x00, D 0x07, C 0x2C],
     [C 0x2A, D 0x00, D 0x00, D 0x00, D 0x07, C 0x2B, D 0x00, D 0x0A, D 0x00, D 0x11, C 0x2C], 278) := by decide

/-- R129: a yield may fall between a line break and the next character, and before the line break too. -/
theorem test_draw_string_yields : after (fun t => (t.pinTrace.take 2, t.pinTrace.count .yield))
    (exec (.drawString 0 0 [10, 13, 0x07] 0 0) { ready with params := { Params.default with yieldAt := [0, 1, 2] } }) =
    some ([.yield, .yield], 2) := by decide

/-- V54, V62, V63: nothing fits, nothing is sent. -/
theorem test_draw_string_off_the_right_edge : (after (fun t => t.pinLog) (exec (.drawString 233 0 [0x61, 0x62] 0 0) ready),
    after (fun t => t.pinLog) (exec (.drawString 65535 0 [0x41] 0 0) ready),
    after (fun t => t.pinLog) (exec (.drawString 0 240 [0x07, 0x41] 0 0) ready)) = (some [], some [], some []) := by decide

/-- V52, V60, V58: the layout. -/
theorem test_layout : (textCells 0 (List.replicate 27 0x78) 0 0).getLast? = some ⟨0, 10, 0x78⟩ ∧
    (textCells 0 (List.replicate 26 0x78 ++ [10, 0x42]) 0 0).getLast? = some ⟨0, 20, 0x42⟩ ∧
    textCells 0 [0x41, 0x07, 0x42] 0 0 = [⟨0, 0, 0x41⟩, ⟨18, 0, 0x42⟩] ∧
    textCells 230 [0x61, 0x62] 230 0 = [⟨230, 0, 0x61⟩, ⟨230, 10, 0x62⟩] ∧
    textCells 0 [0x61, 10, 0x62] 0 230 = [⟨0, 230, 0x61⟩] := by decide

/-! ### Initialisation -/

/-- V71, P1: the frame trace and the beginning of the pin trace. -/
theorem test_init_traces : after (fun t => (t.frameTrace, t.pinTrace.take 15, t.pinTrace.length)) (exec .init (before true)) =
    some ([.hwReset, .wait 10, .hwRelease, .wait 120, C 0x01, .wait 150, C 0x11, .wait 255, C 0x3A, D 0x55, .wait 10,
      C 0x36, D 0x00, C 0x21, .wait 10, C 0x13, .wait 10, C 0x29, .wait 100],
     [.cfg .sck, .cfg .sda, .cfg .dc, .cfg .rst, .cfg .bl, .set .sck true, .set .sda false, .set .dc true, .set .bl true,
      .set .rst true, .set .rst false, .wait 10, .set .rst true, .wait 120, .set .dc false], 252) := by decide

/-- V71, P1: the end state. -/
theorem test_init_end_state : after (fun t => (t.status, t.ready, t.lines, t.panel)) (exec .init (before true)) =
    some (some .ok, true, ready.lines, panelReady) := by decide

/-- V70. -/
theorem test_init_fails : after (fun t => (t.status, t.ready, t.pinLog, t.lines)) (exec .init (before false)) =
    some (some .configFail, false, [], State.reset.lines) := by decide

/-- V74. -/
theorem test_init_refused_when_ready : refusalOf (exec .init ready) = some .notAdmitted := by decide

/-! ### The receiver -/

/-- V80. -/
theorem test_caset_raset : after (fun t => (t.panel.xs, t.panel.xe)) (exec (.caset 10 39) ready) = some (some 10, some 39) ∧
    after (fun t => (t.panel.ys, t.panel.ye)) (exec (.raset 20 59) ready) = some (some 20, some 59) := by decide

/-- V82: rows inside, columns fastest. -/
theorem test_ramwr_rows : after (fun t => ([(10, 20), (11, 20), (10, 21), (11, 21)].map fun c => fbRead c.1 c.2 t.panel.fb,
    t.panel.mode)) (exec (.ramwr [1, 2, 3, 4]) (withPanel (panelWindow 10 11 20 21))) =
    some ([some 1, some 2, some 3, some 4], some .exhausted) := by decide

/-- V83. -/
theorem test_ramwr_overrun : faultOf (exec (.ramwr [1, 2]) (withPanel (panelWindow 7 7 9 9))) = some .panelOverrun := by
  decide

/-- V88: a wait one unit short, and waits that add up. -/
theorem test_slpout_waits :
    (panelReady.takeAll [C 0x11, .wait 254, C 0x3A]).stop = some (.fault .panelTiming) ∧
    (panelReady.takeAll [C 0x11, .wait 100, .wait 155, C 0x3A]).stop = none := by decide

/-- R172 and V88: after SWRESET the format is gone, and 150 units are owed. -/
theorem test_swreset : after (fun t => (t.panel.colmod, t.panel.mode, t.panel.owed)) (exec .swreset ready) =
    some (none, some .idle, 150) := by decide

theorem test_slpout : after (fun t => (t.panel.sleep, t.panel.owed)) (exec .slpout (withPanel { Panel.powerOn with
    mode := some .idle })) = some (some .awake, 255) := by decide

theorem test_noron_invon_dispon : (after (fun t => t.panel.norm) (exec .noron (withPanel { Panel.powerOn with
      mode := some .idle })),
    after (fun t => t.panel.inv) (exec .invon (withPanel { Panel.powerOn with mode := some .idle })),
    after (fun t => t.panel.disp) (exec .dispon (withPanel { Panel.powerOn with mode := some .idle }))) =
    (some (some .on), some (some .on), some (some .on)) := by decide

theorem test_madctl_colmod : (after (fun t => t.panel.madctl) (exec (.madctl 0x60) ready),
    after (fun t => t.panel.colmod) (exec (.colmod 0x66) ready)) = (some (some 0x60), some (some 0x66)) := by decide

/-- V84, V86, V87: stops of the receiver on bare frames. -/
theorem test_receiver_stops :
    (panelReady.takeAll [C 0x2A, D 0x00, C 0x2B]).stop = some (.fault .panelTruncatedCommand) ∧
    (panelReady.takeAll [C 0x3A, C 0x36]).stop = some (.fault .panelTruncatedCommand) ∧
    (panelReady.takeAll [D 0x00]).stop = some (.fault .panelStrayData) ∧
    (panelReady.takeAll [C 0x2D]).stop = some (.refused (.unknownOpcode 0x2D)) := by decide

/-- V85, V90: half a word is torn; a second RAMWR puts the cursor back. -/
theorem test_receiver_pixel_mode :
    ((panelWindow 10 39 20 59).takeAll [C 0x2C, D 0xF8, C 0x2A]).stop = some (.fault .panelTornWord) ∧
    (let p := (panelWindow 10 39 20 59).takeAll [C 0x2C, D 0xF8, D 0x00, C 0x2C]
     (p.px, p.py, p.mode, fbRead 10 20 p.fb) = (some 10, some 20, some (.pixel none), some 0xF800)) := by decide

/-- V89: pixel data before the format is set. -/
theorem test_receiver_needs_the_format :
    (Panel.powerOn.takeAll [.hwReset, .wait 10, .hwRelease, .wait 120, C 0x2A, D 0x00, D 0x00, D 0x00, D 0x00, C 0x2B,
      D 0x00, D 0x00, D 0x00, D 0x00, C 0x2C, D 0x00]).stop = some (.refused .panelNotInitialised) := by decide

/-! ### The step and the host's entry -/

/-- The first instruction after reset, put there as an opcode-table word. -/
theorem test_withFetchWord_runs : after (fun t => t.frameTrace)
    (step ((before true).withFetchWord 8 0x01)) = after (fun t => t.frameTrace) (exec .init (before true)) := by decide

/-- R186: a HwReset does not end the wait owed after SLPOUT (log 26). -/
theorem test_reset_keeps_the_owed_wait :
    (panelReady.takeAll [C 0x11, .hwReset, .wait 10, .hwRelease, .wait 244, C 0x01]).stop = some (.fault .panelTiming) ∧
    (panelReady.takeAll [C 0x11, .hwReset, .wait 10, .hwRelease, .wait 245, C 0x01]).stop = none := by decide

/-- V88: a short hold of the reset line, element by element. -/
theorem test_step_takes_an_element : faultOf (step { ready with
    inbox := [.element .hwRelease], panel := { Panel.powerOn.resetPulse with holdOwed := 1 } }) = some .panelTiming := by decide

/-! ### Witnesses: values that meet the hypotheses of the statements, clause by clause -/

theorem ready_safe : ready.Safe :=
  ⟨rfl, rfl, by decide, by decide, by decide, fun _ => ⟨⟨rfl, rfl, rfl, rfl, rfl, by decide⟩, rfl⟩⟩

theorem before_safe (b : Bool) : (before b).Safe :=
  ⟨rfl, rfl, by cases b <;> decide, by cases b <;> decide, rfl, fun h => by cases h⟩

theorem beforeClear_safe : beforeClear.Safe := ⟨rfl, rfl, by decide, by decide, rfl, fun h => by cases h⟩

theorem before_dcBetweenBytes : dcBetweenBytes (before true).params (before true).pinTrace := by
  intro b a v h
  simp [before, State.pinTrace, State.reset] at h

/-- O3. -/
theorem witness_DecodeGivesBackWhatWasEncoded :
    (Instr.drawString 5 7 [0x41, 0x0A] 0xFFFF 0x0000).wellFormed = true ∧ Instr.init.wellFormed = true := by decide

/-- O4. -/
theorem witness_OnlyEncodingsDecode : decode (.wire [0b000101100, 0b110101011, 0b111001101]) = .instr (.ramwr [0xABCD]) ∧
    decode (.request [0x02, 0xF8, 0x01]) = .instr (.clear 0xF801) := by decide

/-- O5: both ends of what is not assigned. -/
theorem witness_UnknownOpselIsRefused :
    ((0x00 : Byte).toNat = 0 ∨ 6 < (0x00 : Byte).toNat) ∧ ((0x07 : Byte).toNat = 0 ∨ 6 < (0x07 : Byte).toNat) ∧
    (input (.packet (.request [0x00]))).inbox = [.packet (.request [0x00])] ∧
    (input (.packet (.request [0x07]))).inbox = [.packet (.request [0x07])] := by decide

/-- O6: a packet, a rejected packet, an element, no input. -/
theorem witness_StepRunsTheDecodedInstruction :
    (input (.packet (.bare [0xA5]))).inbox = [.packet (.bare [0xA5])] ∧ decode (.bare [0xA5]) = .instr (.sendByte 0xA5) ∧
    (input (.packet (.request [0x01, 0x00]))).inbox = [.packet (.request [0x01, 0x00])] ∧
    decode (.request [0x01, 0x00]) = .rejected .wrongLength ∧
    (input (.element (.wait 10))).inbox = [.element (.wait 10)] ∧
    ((input (.element (.wait 10))).panel.take (.wait 10)).stop = none ∧ ready.inbox = [] := by decide

/-- O7 to O12, O14: no byte is half sent; for O14 the panel takes commands. -/
theorem witness_SendByteShiftsOutEightBits : ready.wire.n = 0 := rfl
theorem witness_SendWordSendsHighByteFirst : ready.wire.n = 0 := rfl
theorem witness_SendCommandFramesOneByte : State.reset.wire.n = 0 := rfl
theorem witness_SendDataByteFramesOneByte : State.reset.wire.n = 0 := rfl
theorem witness_SendDataWordFramesOneWord : ready.wire.n = 0 := rfl
theorem witness_DataWordIsTwoDataBytesOnTheWire : ready.wire.n = 0 := rfl
theorem witness_SetWindowSendsElevenFrames : ready.wire.n = 0 ∧ ready.panel.hears = true := by decide

/-- O13: the six clauses, and both policies. -/
theorem witness_InternalOperationsAppendTheStatedEvents :
    (∃ v : Byte, Instr.sendByte 0 = .sendByte v ∧ 24 = 24 ∧ 1 = 1) ∧
    (∃ v : Word, Instr.sendWord 0 = .sendWord v ∧ 48 = 48 ∧ 2 = 2) ∧
    (∃ o : Byte, Instr.sendCommand 0 = .sendCommand o ∧ 26 = 26 ∧ 1 = 1) ∧
    (∃ v : Byte, Instr.sendDataByte 0 = .sendDataByte v ∧ 25 = 25 ∧ 1 = 1) ∧
    (∃ v : Word, Instr.sendDataWord 0 = .sendDataWord v ∧ 49 = 49 ∧ 2 = 2) ∧
    (∃ x y w h : Word, Instr.setWindow 0 0 0 0 = .setWindow x y w h ∧ 274 = 274 ∧ 11 = 11) ∧
    ready.params.policy = .fast ∧ ({ Params.default with policy := .conservative } : Params).policy = .conservative :=
  ⟨⟨0, rfl, rfl, rfl⟩, ⟨0, rfl, rfl, rfl⟩, ⟨0, rfl, rfl, rfl⟩, ⟨0, rfl, rfl, rfl⟩, ⟨0, rfl, rfl, rfl⟩,
    ⟨0, 0, 0, 0, rfl, rfl, rfl⟩, rfl, rfl⟩

/-- O15 and O17: the last pixel and the whole panel. -/
theorem witness_FillRectStreamsTheColor : ready.Safe ∧ ready.ready = true ∧
    (1 ≤ (1 : Word).toNat ∧ (239 : Word).toNat + (1 : Word).toNat ≤ 240) ∧
    (1 ≤ (240 : Word).toNat ∧ (0 : Word).toNat + (240 : Word).toNat ≤ 240) := ⟨ready_safe, rfl, by decide, by decide⟩
theorem witness_FillRectPaintsItsRectangle : ready.Safe ∧ ready.ready = true ∧ ready.panel.ready = true ∧
    (1 ≤ (1 : Word).toNat ∧ (239 : Word).toNat + (1 : Word).toNat ≤ 240) ∧
    (1 ≤ (240 : Word).toNat ∧ (0 : Word).toNat + (240 : Word).toNat ≤ 240) := ⟨ready_safe, rfl, rfl, by decide, by decide⟩

/-- O16: each clause at its boundary. -/
theorem witness_OutOfRangeCoordinatesAreDropped : ready.Drawable ∧
    (240 ≤ (240 : Word).toNat ∨ 240 ≤ (0 : Word).toNat) ∧ (240 ≤ (0 : Word).toNat ∨ 240 ≤ (240 : Word).toNat) ∧
    ((0 : Word).toNat = 0 ∨ (5 : Word).toNat = 0 ∨ 240 < (0 : Word).toNat + (0 : Word).toNat ∨
      240 < (0 : Word).toNat + (5 : Word).toNat) ∧
    ((2 : Word).toNat = 0 ∨ (1 : Word).toNat = 0 ∨ 240 < (239 : Word).toNat + (2 : Word).toNat ∨
      240 < (0 : Word).toNat + (1 : Word).toNat) ∧
    (240 < (233 : Word).toNat + 8 ∨ 240 < (0 : Word).toNat + 8) ∧ (240 < (0 : Word).toNat + 8 ∨ 240 < (233 : Word).toNat + 8) :=
  ⟨⟨rfl, rfl⟩, by decide⟩

/-- O18, O19. -/
theorem witness_DrawPixelIsAOnePixelFill : ready.Safe ∧ ready.ready = true ∧ (239 : Word).toNat < 240 ∧
    (0 : Word).toNat < 240 := ⟨ready_safe, rfl, by decide, by decide⟩
theorem witness_ClearFillsThePanel : ready.Safe ∧ ready.ready = true ∧ ready.panel.ready = true := ⟨ready_safe, rfl, rfl⟩

/-- O20: the first and the last printable code. -/
theorem witness_DrawCharStreamsItsGlyph : ready.Safe ∧ ready.ready = true ∧
    (32 ≤ (32 : Byte).toNat ∧ (32 : Byte).toNat ≤ 126) ∧ (32 ≤ (126 : Byte).toNat ∧ (126 : Byte).toNat ≤ 126) :=
  ⟨ready_safe, rfl, by decide, by decide⟩

/-- O21: the codes beside the printable ones, and the last gap that does not wrap. -/
theorem witness_UnprintableCharactersAreDropped : ready.Drawable ∧
    ((31 : Byte).toNat < 32 ∨ 126 < (31 : Byte).toNat) ∧ ((127 : Byte).toNat < 32 ∨ 126 < (127 : Byte).toNat) ∧
    ((31 : Byte) ≠ 10 ∧ (31 : Byte) ≠ 13) ∧ ready.Safe ∧ ready.ready = true ∧ [(65 : Byte)].length < 65535 ∧
    (232 : Word).toNat + 8 ≤ 240 ∧ (223 : Word).toNat + 17 ≤ 240 ∧ 240 < (224 : Word).toNat + 17 ∧
    32 ≤ (65 : Byte).toNat ∧ (65 : Byte).toNat ≤ 126 :=
  ⟨⟨rfl, rfl⟩, by decide, by decide, by decide, ready_safe, rfl, by decide⟩

/-- O22, O23: the last box that fits, and the first that does not. -/
theorem witness_DrawCharPaintsItsCell : ready.Safe ∧ ready.ready = true ∧ ready.panel.ready = true ∧
    32 ≤ (126 : Byte).toNat ∧ (126 : Byte).toNat ≤ 126 ∧ (232 : Word).toNat + 8 ≤ 240 :=
  ⟨ready_safe, rfl, rfl, by decide⟩
theorem witness_DrawCharOutsideThePanelStopsThePanel : ready.Safe ∧ ready.ready = true ∧ ready.panel.ready = true ∧
    32 ≤ (32 : Byte).toNat ∧ (32 : Byte).toNat ≤ 126 ∧
    (240 < (233 : Word).toNat + 8 ∨ 240 < (0 : Word).toNat + 8) ∧
    (240 < (0 : Word).toNat + 8 ∨ 240 < (65535 : Word).toNat + 8) := ⟨ready_safe, rfl, rfl, by decide⟩

/-- O24, O25: a text whose last cell is covered by none. -/
theorem witness_DrawStringSendsItsCells : ready.Safe ∧ ready.ready = true ∧ [(0x41 : Byte), 0x0A, 0x42].length < 65536 :=
  ⟨ready_safe, rfl, by decide⟩
theorem witness_DrawStringPaintsItsCells : ready.Safe ∧ ready.ready = true ∧ ready.panel.ready = true ∧
    [(0x41 : Byte), 0x0A, 0x42].length < 65536 ∧
    textCells 0 [0x41, 0x0A, 0x42] 0 0 = [] ++ ⟨0, 0, 0x41⟩ :: [⟨0, 10, 0x42⟩] ∧
    ∀ l ∈ [(⟨0, 10, 0x42⟩ : TextCell)], ¬ l.covers (0 + 7) (0 + 7) :=
  ⟨ready_safe, rfl, rfl, by decide, by decide, by simp [TextCell.covers]⟩

/-- O26, O27, O28: both answers of the environment, with and without the final clear. -/
theorem witness_InitReportsConfigurationFailure : (before false).Startable ∧ (before false).cfgOk = false ∧
    hostIssued (.clear 0) = true ∧ Instr.clear 0 ≠ .init := ⟨⟨rfl, rfl⟩, by decide⟩
theorem witness_InitRunsTheTenSteps : (before true).Safe ∧ (before true).ready = false ∧ (before true).cfgOk = true ∧
    (before true).params.initClear = none ∧ beforeClear.Safe ∧ beforeClear.ready = false ∧ beforeClear.cfgOk = true ∧
    beforeClear.params.initClear = some 0x0000 :=
  ⟨before_safe true, rfl, rfl, rfl, beforeClear_safe, rfl, rfl, rfl⟩
theorem witness_InitLeavesThePanelInitialised : (before true).Safe ∧ (before true).ready = false ∧
    (before true).cfgOk = true ∧ (before true).panel.stop = none ∧ (before true).panel.owed ≤ 130 ∧
    (before true).params.initClear = none ∧ beforeClear.Safe ∧ beforeClear.ready = false ∧ beforeClear.cfgOk = true ∧
    beforeClear.panel.stop = none ∧ beforeClear.panel.owed ≤ 130 ∧ beforeClear.params.initClear = some 0x0000 :=
  ⟨before_safe true, rfl, rfl, rfl, by decide, rfl, beforeClear_safe, rfl, rfl, rfl, by decide, rfl⟩

/-- O29: the defaults, and the ends of the range. -/
theorem witness_SleepOutWaitIsStrictlyTheLongest : (before true).Safe ∧ (before true).ready = false ∧
    (before true).cfgOk = true ∧ (before true).params.waitsOk = true ∧
    ({ Params.default with tShort := 1, tLong := 254 } : Params).waitsOk = true :=
  ⟨before_safe true, rfl, rfl, by decide, by decide⟩

/-- O30: an operation in progress, READY at `init`, no READY at a drawing request. -/
theorem witness_RequestsAreAdmittedOnlyWhenDue : hostIssued .init = true ∧ hostIssued (.clear 0) = true ∧
    ({ ready with seq := [⟨.clear, 0⟩] } : State).seq ≠ [] ∧ ready.ready = true ∧ Instr.clear 0 ≠ .init ∧
    State.reset.ready = false := by decide

/-- O31. -/
theorem witness_DrawingRequestsKeepTheRest : hostIssued (.drawPixel 0 0 0) = true ∧ Instr.drawPixel 0 0 0 ≠ .init ∧
    ready.Drawable := ⟨rfl, by decide, rfl, rfl⟩

/-- O32 to O37, O40, O41, O45: a receiver that takes commands, in each of the three modes. -/
theorem witness_SwresetClearsTheRegisters : ready.panel.hears = true := by decide
theorem witness_SlpoutWakesThePanel : (withPanel { Panel.powerOn with mode := some .idle }).panel.hears = true := by decide
theorem witness_NoronInvonDisponTurnOn : ready.panel.hears = true := by decide
theorem witness_CasetSetsTheColumns : (withPanel { panelReady with mode := some .exhausted }).panel.hears = true := by decide
theorem witness_RasetSetsTheRows : ready.panel.hears = true := by decide
theorem witness_RamwrStartsAtTheWindowsOrigin : (withPanel { panelReady with mode := some (.pixel none) }).panel.hears = true := by
  decide
theorem witness_MadctlRecordsItsOperand : ready.panel.hears = true ∧ (0x60 : Byte) ≠ 0x00 := by decide
theorem witness_ColmodRecordsItsOperand : ready.panel.hears = true ∧ (0x66 : Byte) ≠ 0x55 := by decide
theorem witness_MandatoryWaitsAreSums : panelReady.hears = true ∧ [4, 5].sum < 10 ∧ ¬[4, 6].sum < 10 := by decide

/-- O38: the last pixel, a full and a partial stream. -/
theorem witness_RamwrPaintsItsStream :
    (withPanel (panelWindow 239 239 239 239)).panel.ready = true ∧ (239 : Word).toNat ≤ (239 : Word).toNat ∧
    (239 : Word).toNat < 240 ∧ [(0xABCD : Word)].length ≤ (239 - 239 + 1) * (239 - 239 + 1) ∧
    (withPanel (panelWindow 0 239 0 239)).panel.ready = true ∧ (0 : Word).toNat ≤ (239 : Word).toNat ∧
    [(0xABCD : Word)].length ≤ (239 - 0 + 1) * (239 - 0 + 1) := by decide

/-- O39: each clause. -/
theorem witness_RamwrStopsOnBadFormatWindowOrLength :
    ((withPanel { panelReady with colmod := none }).panel.hears = true ∧
      (withPanel { panelReady with colmod := none }).panel.formatOk = false) ∧
    ((withPanel (panelWindow 0 240 0 0)).panel.hears = true ∧ (withPanel (panelWindow 0 240 0 0)).panel.formatOk = true ∧
      (withPanel (panelWindow 0 240 0 0)).panel.windowOk = false) ∧
    ((withPanel (panelWindow 7 7 9 9)).panel.hears = true ∧ (withPanel (panelWindow 7 7 9 9)).panel.formatOk = true ∧
      (7 - 7 + 1) * (9 - 9 + 1) < [(1 : Word), 2].length) := by decide

/-- O42: a wire command, one that goes on, and a receiver that has seen no HwReset. -/
theorem witness_WireCommandsLeaveTheBlockAlone : encode .noron = .wire [0x013] ∧
    after (fun t => t.panel.norm) (exec .noron ready) = some (some .on) ∧ State.reset.panel.stop = none ∧
    State.reset.panel.mode = none := by decide

/-- O43: each clause. -/
theorem witness_ReceiverStopsOnUndefinedFrames :
    (withPanel Panel.powerOn).panel.mode = none ∧
    ((withPanel Panel.powerOn.resetPulse).panel.mode ≠ none ∧ (withPanel Panel.powerOn.resetPulse).panel.held = true) ∧
    (withPanel { panelReady with owed := 1 }).panel.owed = 1 ∧
    (withPanel { panelReady with mode := some (.operands .caset [0]) }).panel.held = false ∧
    (withPanel { panelReady with mode := some (.pixel (some 0)) }).panel.owed = 0 ∧
    ((withPanel panelReady).panel.hears = true ∧ (0x28 : Byte) ∉ tenOpcodes) ∧
    (withPanel panelReady).panel.mode = some .idle ∧
    (withPanel { panelReady with mode := some .exhausted }).panel.mode = some .exhausted ∧
    (input (.element (C 0x28))).inbox = [.element (C 0x28)] ∧ ready.panel.stop = none := by decide

/-- O44: each clause. -/
theorem witness_ResetMarkersActOnTheReceiver : ready.panel.stop = none ∧
    (input (.element .hwReset)).inbox = [.element .hwReset] ∧
    (input (.element .hwRelease)).inbox = [.element .hwRelease] ∧ panelReady.resetPulse.stop = none ∧
    0 < panelReady.resetPulse.holdOwed ∧ (panelReady.resetPulse.take (.wait 10)).holdOwed = 0 ∧
    (panelReady.resetPulse.take (.wait 10)).stop = none ∧
    (input (.element (.wait 0))).inbox = [.element (.wait 0)] := by decide

/-- O47, O50, O51: a safe state, its traces agreeing, from which a step goes on. -/
theorem witness_EveryStepKeepsSafe : ready.Safe ∧ step ready = .next ready := ⟨ready_safe, rfl⟩
theorem witness_EveryStepKeepsTheFrameTrace : (before true).TraceAgrees ∧
    after (fun t => t.frameTrace.length) (step ((before true).withFetchWord 8 0x01)) = some 19 := ⟨rfl, by decide⟩
theorem witness_DcIsWrittenOnlyBetweenBytes : (before true).Safe ∧ (before true).TraceAgrees ∧
    dcBetweenBytes (before true).params (before true).pinTrace ∧
    after (fun t => t.frameTrace.length) (step ((before true).withFetchWord 8 0x01)) = some 19 :=
  ⟨before_safe true, rfl, before_dcBetweenBytes, by decide⟩
theorem witness_ParametersGlyphsAndConfigurationStay : step ready = .next ready ∧ (ready.lines.get .sck).cfg = true := by
  exact ⟨rfl, rfl⟩

/-- O52, O53: requests that the host may make, and go on. -/
theorem witness_HostRequestsSendOnlyTheTenOpcodes : hostIssued (.drawPixel 239 239 0) = true ∧
    (Instr.drawPixel 239 239 0).wellFormed = true ∧ ready.Safe ∧
    after (fun t => t.frameTrace.length) (exec (.drawPixel 239 239 0) ready) = some 13 :=
  ⟨rfl, rfl, ready_safe, by decide⟩
theorem witness_HostRequestsPassTheReceiver : hostIssued (.drawChar 232 232 65 0xFFFF 0) = true ∧
    hostKeeps (.drawChar 232 232 65 0xFFFF 0) = true ∧ (Instr.drawChar 232 232 65 0xFFFF 0).wellFormed = true ∧
    hostKeeps (.drawChar 233 0 31 0 0) = true ∧ hostKeeps (.drawChar 233 0 65 0 0) = false ∧
    ready.Safe ∧ ready.panel.stop = none ∧ ready.panel.owed ≤ 130 ∧ (ready.ready = true → ready.panel.ready = true) ∧
    after (fun t => t.frameTrace.length) (exec (.drawChar 232 232 65 0xFFFF 0) ready) = some 139 :=
  ⟨rfl, by decide, rfl, by decide, by decide, ready_safe, rfl, by decide, fun _ => rfl, by decide⟩

/-- O54. -/
theorem witness_PolicyDoesNotShowOnTheWire : after (fun t => t.frameTrace) (exec (.sendByte 0xA5) ready) = some [D 0xA5] := by
  decide

/-- O55: an idle block whose registers hold no value, from which an operation that writes registers goes on. -/
theorem witness_RegistersHoldNoValueWhenIdle : (input (.packet (.bare [0xA5]))).seq = [] ∧
    (input (.packet (.bare [0xA5]))).regs = Regs.noValue ∧
    after (fun t => t.frameTrace) (step (input (.packet (.bare [0xA5])))) = some [D 0xA5] := by decide

/-- O56. -/
theorem witness_PinsAreDistinct : Config.pin .sck = Config.pin .sck := rfl

end Sys2Proof.Tests
end

section
/-! The pins of the five lines (00_scope.md R5, decision D32). -/

namespace Sys2Proof.Config

/-- The number of a line, before `pinNumbering` renames it. -/
def lineNumber : Line → Nat
  | .sck => 0
  | .sda => 1
  | .dc => 2
  | .rst => 3
  | .bl => 4

/-- The line that has a number; every number above 3 is given to the back light. -/
def lineOfNumber : Nat → Line
  | 0 => .sck
  | 1 => .sda
  | 2 => .dc
  | 3 => .rst
  | _ => .bl

theorem pin_eq_pinNumbering_comp_lineNumber : pin = pinNumbering ∘ lineNumber := by
  funext L
  cases L <;> rfl

@[simp] theorem lineOfNumber_lineNumber (L : Line) : lineOfNumber (lineNumber L) = L := by
  cases L <;> rfl

theorem lineNumber_injective : Function.Injective lineNumber :=
  Function.LeftInverse.injective lineOfNumber_lineNumber

/-- The renumbering keeps distinct numbers distinct, whatever it is. -/
theorem pin_injective : Function.Injective pin := by
  rw [pin_eq_pinNumbering_comp_lineNumber]
  exact pinNumbering.injective.comp lineNumber_injective

end Sys2Proof.Config

namespace Sys2Proof

/-- Settles O56: `PIN` is the line's number under a permutation, and the five numbers are distinct. -/
theorem pinsAreDistinct : Obligations.PinsAreDistinct := by
  intro L M h
  exact Config.pin_injective h

end Sys2Proof
end

section
/-! The reset state: every field at the value of 10_state.md R26, and the traces empty. -/

namespace Sys2Proof

open Sys2Proof.Machine

/-- Settles O1: `State.reset` writes the table out, and an empty ROM image answers every read with the parameter. -/
theorem resetIsTheResetTable : Obligations.ResetIsTheResetTable := by
  refine ⟨fun L => ?_, rfl, rfl, rfl, rfl, rfl, rfl, fun _ _ => rfl⟩
  cases L <;> exact ⟨rfl, rfl⟩

/-- Settles O46: no line has a level at reset, FB is empty, and READY is 0. -/
theorem resetIsSafe : Obligations.ResetIsSafe :=
  ⟨rfl, rfl, (Option.some_ne_none _).symm, (Option.some_ne_none _).symm, rfl, Bool.noConfusion⟩

/-- Settles O48: at reset the pass is at its start, and the pin trace holds no event at all. -/
theorem resetTracesAgree : Obligations.ResetTracesAgree :=
  ⟨rfl, fun _ _ _ h => absurd h (by simp [State.pinTrace, State.reset])⟩

end Sys2Proof
end

section
/-! What every step keeps of the sequencer and the working registers (10_state.md R19, R20). -/

namespace Sys2Proof.Machine

/-- An instruction comes back to the sequencer position it was issued at, and gives no working register a value. -/
theorem exec_seq_regs {i : Instr} {s t : State} (h : exec i s = .next t) :
    t.seq = s.seq ∧ (t.regs = Regs.noValue ∨ t.regs = s.regs) := by
  rcases exec_cases h with ⟨f, rfl, hq⟩ | ⟨p, rfl, -⟩
  · exact ⟨hq, .inl rfl⟩
  · exact ⟨rfl, .inr rfl⟩

/-- So does a step, which is one instruction or leaves the block alone. -/
theorem step_seq_regs {s t : State} (h : step s = .next t) :
    t.seq = s.seq ∧ (t.regs = Regs.noValue ∨ t.regs = s.regs) := by
  rcases step_cases h with ⟨-, rfl⟩ | ⟨_, rest, i, -, -, he⟩ | ⟨_, _, -, rfl, -⟩
  · exact ⟨rfl, .inr rfl⟩
  · exact exec_seq_regs (s := { s with inbox := rest }) he
  · exact ⟨rfl, .inr rfl⟩

end Sys2Proof.Machine

namespace Sys2Proof

open Sys2Proof.Machine

/-- Settles O55: a step comes back to the idle position, the registers without value or as they were. -/
theorem registersHoldNoValueWhenIdle : Obligations.RegistersHoldNoValueWhenIdle := by
  intro s t hseq hregs h
  obtain ⟨hq, hr⟩ := step_seq_regs h
  exact ⟨hq.trans hseq, hr.elim id (·.trans hregs)⟩

end Sys2Proof
end

section
/-! What every step keeps between bytes: a property of the wire, the clock and the frame memory that `send_byte` and
every primitive but a falling clock keep (40_transport.md R104, 70_reset_and_hazards.md R227, R230). -/

namespace Sys2Proof.Machine

/-- No byte is half sent, the clock does not rest low, and FB is in its canonical form. -/
structure State.BetweenBytes (s : State) : Prop where
  wire_n : s.wire.n = 0
  sck : s.lines.sck.lvl ≠ some false
  fb : s.panel.fb.wf fbBytes = true

/-- A write of a line takes a bit at a rising edge only, and a clock that is not low has none. -/
theorem State.BetweenBytes.line {s : State} (h : s.BetweenBytes) (L : Line) (v : Level) (hv : L = .sck → v = true) :
    (s.line L v).BetweenBytes where
  wire_n := by
    cases L with
    | sck => simp [sensedWire, h.sck, h.wire_n]
    | rst => simp only [State.line_wire, sensedWire]; split <;> simp [h.wire_n]
    | _ => exact h.wire_n
  sck := by
    cases L with
    | sck => simp [hv rfl]
    | _ => exact h.sck
  fb := Panel.takeAll_wf _ h.fb

/-- A whole byte leaves the wire between bytes and the clock high. -/
theorem State.BetweenBytes.sendByte {s : State} (h : s.BetweenBytes) (v : Byte) : (s.sendByte v).BetweenBytes := by
  rw [State.sendByte_eq s v h.wire_n]
  exact ⟨rfl, by simp, Panel.take_wf _ h.fb⟩

theorem betweenBytes_byteClosed : ByteClosed State.BetweenBytes where
  sendByte _ v h := h.sendByte v
  lineDc _ v h := h.line .dc v (by simp)
  line _ L v hv h := h.line L v hv
  delay _ _ h := ⟨h.wire_n, h.sck, Panel.take_wf _ h.fb⟩
  configure _ L h := ⟨h.wire_n, by simpa using h.sck, h.fb⟩
  yieldPoint _ h := ⟨h.wire_n, h.sck, h.fb⟩
  setRegs _ _ h := ⟨h.wire_n, h.sck, h.fb⟩
  setSeq _ _ h := ⟨h.wire_n, h.sck, h.fb⟩
  setReady _ _ h := ⟨h.wire_n, h.sck, h.fb⟩
  setStatus _ _ h := ⟨h.wire_n, h.sck, h.fb⟩
  cfgRead _ h := ⟨h.wire_n, h.sck, h.fb⟩

theorem step_keeps_betweenBytes {s t : State} (h : s.BetweenBytes) (hn : step s = .next t) : t.BetweenBytes :=
  step_closed betweenBytes_byteClosed (fun _ es h => ⟨h.wire_n, h.sck, Panel.takeAll_wf es h.fb⟩)
    (fun _ _ h => ⟨h.wire_n, h.sck, h.fb⟩) h hn

end Sys2Proof.Machine
end

section
/-! What the decoder answers is well-formed: the one operand with a bound, the text of `draw_string`, is as long as its
16-bit TLEN says (20_memory.md R43). -/

namespace Sys2Proof

/-- A decoded `draw_string` has a text of at most TLEN bytes. -/
theorem decodeRequest_drawString_length {bytes : List Byte} {x y fg bg : Word} {text : List Byte}
    (h : decodeRequest bytes = .instr (.drawString x y text fg bg)) : text.length < 65536 := by
  unfold decodeRequest at h
  dsimp only at h
  repeat' split at h
  all_goals cases h
  exact (List.length_take_le _ _).trans_lt (BitVec.isLt _)

/-- The other ports answer no `draw_string`. -/
theorem decode_drawString_request {p : Packet} {x y fg bg : Word} {text : List Byte}
    (h : decode p = .instr (.drawString x y text fg bg)) : ∃ bytes, p = .request bytes := by
  cases p with
  | request bytes => exact ⟨bytes, rfl⟩
  | bare bytes =>
    simp only [decode] at h
    unfold decodeBare at h
    split at h <;> cases h
  | framed codes =>
    simp only [decode] at h
    unfold decodeFramed at h
    repeat' split at h
    all_goals cases h
  | wire codes =>
    simp only [decode] at h
    unfold decodeWire wireInstr at h
    repeat' split at h
    all_goals cases h

theorem decode_wellFormed {p : Packet} {i : Instr} (h : decode p = .instr i) : i.wellFormed = true := by
  cases i with
  | drawString x y text fg bg =>
    obtain ⟨bytes, rfl⟩ := decode_drawString_request h
    exact decide_eq_true (decodeRequest_drawString_length h)
  | _ => rfl

end Sys2Proof
end

section
/-! What every step keeps of the lines and the status: RST is not left active, and READY means the lines of an
initialised block and STATUS OK (10_state.md R11, 70_reset_and_hazards.md R216). -/

namespace Sys2Proof.Machine

/-- RST is not left active, and a block that is READY is initialised with STATUS OK. -/
structure State.ReadyMeansRest (s : State) : Prop where
  rst : s.lines.rst.lvl ≠ some s.params.lvlRstActive
  ready : s.ready = true → s.Initialised ∧ s.status = some .ok

/-- A safe state is idle, between bytes, and its READY means rest. -/
theorem State.safe_iff (s : State) : s.Safe ↔ s.seq = [] ∧ s.BetweenBytes ∧ s.ReadyMeansRest := by
  constructor
  · rintro ⟨hq, hn, hs, hr, hf, hd⟩
    exact ⟨hq, ⟨hn, hs, hf⟩, ⟨hr, hd⟩⟩
  · rintro ⟨hq, ⟨hn, hs, hf⟩, ⟨hr, hd⟩⟩
    exact ⟨hq, hn, hs, hr, hf, hd⟩

theorem lvlRstIdle_ne_active (p : Params) : p.lvlRstIdle ≠ p.lvlRstActive := Bool.not_ne_self _

theorem State.Initialised.linesRest {s : State} (h : s.Initialised) : s.LinesRest := by
  obtain ⟨hsck, hdc, -⟩ := h
  exact ⟨by rw [hsck], by rw [hdc]⟩

theorem State.Initialised.rst_lvl {s : State} (h : s.Initialised) :
    s.lines.rst.lvl ≠ some s.params.lvlRstActive := by
  obtain ⟨-, -, hrst, -⟩ := h
  rw [hrst]
  exact fun h => lvlRstIdle_ne_active s.params (Option.some.inj h)

/-- Sending elements from an initialised block leaves it initialised. -/
theorem Sent.initialised {s t : State} {es : List Elem} (g : Sent s t es) (h : s.Initialised) : t.Initialised := by
  obtain ⟨hsck, hdc⟩ := g.rest h.linesRest
  obtain ⟨isck, idc, irst, ibl, isda, ilvl⟩ := h
  have line : ∀ {l : LineState} {b : Bool} {v : Option Level}, l.cfg = b → l.lvl = v → l = ⟨b, v⟩ := by
    rintro l _ _ rfl rfl
    rfl
  refine ⟨line (g.sck_cfg.trans (by rw [isck])) hsck, line (g.dc_cfg.trans (by rw [idc])) hdc, ?_, ?_,
    g.sda_cfg.trans isda, ?_⟩
  · rw [g.rst, g.params, irst]
  · rw [g.bl, g.params, ibl]
  · rw [g.sda_lvl]
    exact sdaAfter_ne_none es _ ilvl

/-- Sending elements changes neither READY nor STATUS nor RST, so READY means rest as before. -/
theorem Sent.readyMeansRest {s t : State} {es : List Elem} (g : Sent s t es) (h : s.ReadyMeansRest) :
    t.ReadyMeansRest where
  rst := by rw [g.rst, g.params]; exact h.rst
  ready hr := by
    obtain ⟨hi, hs⟩ := h.ready (g.ready ▸ hr)
    exact ⟨g.initialised hi, g.status.trans hs⟩

theorem State.sendByte_sent (s : State) (v : Byte) (hn : s.wire.n = 0) :
    Sent s (s.sendByte v) [.frame ⟨kindOf s.params s.lines.dc.lvl, v⟩] := by
  rw [State.sendByte_eq s v hn]
  constructor <;> simp [State.LinesRest, sdaAfter]

theorem State.sendWord_sent (s : State) (v : Word) (hn : s.wire.n = 0) : Sent s (s.sendWord v)
    [.frame ⟨kindOf s.params s.lines.dc.lvl, hiByte v⟩, .frame ⟨kindOf s.params s.lines.dc.lvl, loByte v⟩] := by
  rw [State.sendWord_eq s v hn]
  constructor <;> simp [State.LinesRest, sdaAfter]

/-- Every instruction but `init` sends elements from the block, or changes the panel alone. -/
theorem exec_sent {i : Instr} {s t : State} (hi : i ≠ .init) (hw : i.wellFormed = true) (hn : s.wire.n = 0)
    (h : exec i s = .next t) : (∃ es, Sent s t es) ∨ ∃ p : Panel, t = { s with panel := p } := by
  by_cases hh : hostIssued i = true
  · obtain ⟨-, -, -, -, hs⟩ := exec_drawing_sent hh hi hw hn h
    exact .inl ⟨_, hs⟩
  have block : ∀ {f : State → State} {es : List Elem}, Sent s (f s) es →
      (.next (s.issue f) : Host.Outcome State Fault Refusal) = .next t →
      (∃ es, Sent s t es) ∨ ∃ p : Panel, t = { s with panel := p } := by
    intro f es g he
    cases he
    exact .inl ⟨es, g.setRegs _⟩
  have wire : ∀ {op : WireOp} {bs : List Byte}, s.wireCommand op bs = .next t →
      (∃ es, Sent s t es) ∨ ∃ p : Panel, t = { s with panel := p } :=
    fun he => .inr ⟨_, (State.atReceiver_cases he).1⟩
  cases i with
  | sendByte v => exact block (s.sendByte_sent v hn) h
  | sendWord v => exact block (s.sendWord_sent v hn) h
  | sendCommand o => exact block (s.sendCommand_sent o hn) h
  | sendDataByte v => exact block (s.sendDataByte_sent v hn) h
  | sendDataWord v => exact block (s.sendDataWord_sent v hn) h
  | setWindow x y w ht => exact block (s.setWindow_sent x y w ht hn) h
  | swreset => exact wire h
  | slpout => exact wire h
  | noron => exact wire h
  | invon => exact wire h
  | dispon => exact wire h
  | caset xs xe => exact wire h
  | raset ys ye => exact wire h
  | ramwr ws => exact wire h
  | madctl m => exact wire h
  | colmod m => exact wire h
  | _ => exact absurd rfl hh

/-- Steps 1 and 2 of `init` leave all five lines configured and at their rest levels (44_init.md R151, R152). -/
theorem State.configurePulse_initialised (s : State) (hs : s.lines.sck.lvl ≠ some false)
    (hr : s.lines.rst.lvl ≠ some s.params.lvlRstActive) : s.configureLines.hwResetPulse.Initialised := by
  rw [State.configurePulse_eq s hs hr]
  exact ⟨rfl, rfl, rfl, rfl, rfl, Option.some_ne_none _⟩

/-- `init` succeeds with the lines initialised, or fails with READY at 0 and the lines untouched. -/
theorem exec_init_readyMeansRest {s t : State} (hs : s.lines.sck.lvl ≠ some false) (h : s.ReadyMeansRest)
    (he : exec .init s = .next t) : t.ReadyMeansRest := by
  obtain ⟨rfl, -, -⟩ := State.hostRequest_cases he
  cases hok : s.cfgOk with
  | true =>
    obtain ⟨u, hsent, -, -, hu⟩ := State.initialise_ok s hok hs h.rst
    have hi : u.Initialised := hsent.initialised (State.configurePulse_initialised _ hs h.rst)
    rw [hu]
    exact ⟨hi.rst_lvl, fun _ => ⟨hi, rfl⟩⟩
  | false =>
    rw [State.initialise_failed s hok]
    exact ⟨h.rst, Bool.noConfusion⟩

theorem exec_readyMeansRest {i : Instr} {s t : State} (hw : i.wellFormed = true) (hb : s.BetweenBytes)
    (h : s.ReadyMeansRest) (he : exec i s = .next t) : t.ReadyMeansRest := by
  by_cases hi : i = .init
  · subst hi
    exact exec_init_readyMeansRest hb.sck h he
  · rcases exec_sent hi hw hb.wire_n he with ⟨_, hs⟩ | ⟨_, rfl⟩
    · exact hs.readyMeansRest h
    · exact ⟨h.rst, h.ready⟩

theorem step_keeps_readyMeansRest {s t : State} (hb : s.BetweenBytes) (h : s.ReadyMeansRest)
    (hn : step s = .next t) : t.ReadyMeansRest := by
  rcases step_cases hn with ⟨-, rfl⟩ | ⟨_, rest, i, -, hd, he⟩ | ⟨_, _, -, rfl, -⟩
  · exact h
  · exact exec_readyMeansRest (s := { s with inbox := rest }) (decode_wellFormed hd)
      ⟨hb.wire_n, hb.sck, hb.fb⟩ ⟨h.rst, h.ready⟩ he
  · exact ⟨h.rst, h.ready⟩

end Sys2Proof.Machine

namespace Sys2Proof

open Sys2Proof.Machine

/-- Settles O47: the sequencer, what holds between bytes, and what READY means are each kept by every step. -/
theorem everyStepKeepsSafe : Obligations.EveryStepKeepsSafe := by
  intro s t hs h
  obtain ⟨hseq, hbytes, hready⟩ := s.safe_iff.mp hs
  exact t.safe_iff.mpr ⟨(step_seq_regs h).1.trans hseq, step_keeps_betweenBytes hbytes h,
    step_keeps_readyMeansRest hbytes hready h⟩

end Sys2Proof
end

section
/-! The frame of the drawing requests (10_state.md R11, R13, R21, R24): the part of the state that the pieces they are
made of leave as it is. -/

namespace Sys2Proof.Machine

/-- The state without what drawing may change: the levels of SCK, SDA and DC, the registers, the sequencer, the traces,
the wire, the panel and the count of yield places. -/
def State.undrawn (s : State) : State :=
  { s with
    lines := { s.lines with sck := ⟨s.lines.sck.cfg, none⟩, sda := ⟨s.lines.sda.cfg, none⟩,
                            dc := ⟨s.lines.dc.cfg, none⟩ }
    regs := Regs.noValue, seq := [], pinLog := [], wire := { acc := 0, n := 0 }, frameLog := []
    panel := Panel.powerOn, yieldPoints := 0 }

/-- Two states that agree in it differ in nothing else. -/
theorem State.eq_of_undrawn {s t : State} (h : t.undrawn = s.undrawn) : t = { s with
    lines := { s.lines with sck := ⟨s.lines.sck.cfg, t.lines.sck.lvl⟩, sda := ⟨s.lines.sda.cfg, t.lines.sda.lvl⟩,
                            dc := ⟨s.lines.dc.cfg, t.lines.dc.lvl⟩ }
    regs := t.regs, seq := t.seq, pinLog := t.pinLog, wire := t.wire, frameLog := t.frameLog, panel := t.panel
    yieldPoints := t.yieldPoints } := by
  have e := congrArg (fun r : State => { r with
    lines := { r.lines with sck := ⟨r.lines.sck.cfg, t.lines.sck.lvl⟩, sda := ⟨r.lines.sda.cfg, t.lines.sda.lvl⟩,
                            dc := ⟨r.lines.dc.cfg, t.lines.dc.lvl⟩ }
    regs := t.regs, seq := t.seq, pinLog := t.pinLog, wire := t.wire, frameLog := t.frameLog, panel := t.panel
    yieldPoints := t.yieldPoints }) h
  exact e

theorem State.blockPart_undrawn (s : State) : s.blockPart.undrawn = s.undrawn := rfl

theorem State.sendByte_undrawn (s : State) (v : Byte) : (s.sendByte v).undrawn = s.undrawn := by
  rw [← State.blockPart_undrawn, State.sendByte_block]
  rfl

/-- What drawing is made of leaves this part as it is. -/
theorem undrawn_drawClosed (s : State) : DrawClosed fun t => t.undrawn = s.undrawn where
  sendByte t v h := (t.sendByte_undrawn v).trans h
  lineDc _ _ h := h
  yieldPoint _ h := h
  setRegs _ _ h := h
  setSeq _ _ h := h

/-- A drawing request runs an operation that comes back to its sequencer position and keeps what the pieces of drawing
keep. -/
theorem exec_drawing_closed {i : Instr} (s : State) (hi : hostIssued i = true) (hne : i ≠ .init) :
    ∃ run : State → State, exec i s = s.hostRequest true run ∧ (run s).seq = s.seq ∧
      ∀ P : State → Prop, DrawClosed P → P s → P (run s) := by
  cases i with
  | clear c => exact ⟨_, rfl, State.operation_seq _ _ _, fun _ d => d.clear c s⟩
  | drawPixel x y c => exact ⟨_, rfl, State.drawPixel_seq _ _ _ _, fun _ d => d.drawPixel x y c s⟩
  | fillRect x y w h c => exact ⟨_, rfl, State.fillRect_seq _ _ _ _ _ _, fun _ d => d.fillRect x y w h c s⟩
  | drawChar x y ch fg bg => exact ⟨_, rfl, State.operation_seq _ _ _, fun _ d => d.drawChar x y ch fg bg s⟩
  | drawString x y text fg bg =>
    exact ⟨_, rfl, State.operation_seq _ _ _, fun _ d => d.drawString x y text fg bg s⟩
  | _ => simp [hostIssued] at hi hne

end Sys2Proof.Machine

namespace Sys2Proof

open Sys2Proof.Machine

/-- Settles O31: an admitted request runs to its return, which writes the registers, and what it runs leaves the part of
the state that drawing may not change. -/
theorem drawingRequestsKeepTheRest : Obligations.DrawingRequestsKeepTheRest := by
  intro i s hi hne ⟨hidle, hready⟩
  obtain ⟨run, hexec, hseq, hkeeps⟩ := exec_drawing_closed s hi hne
  have hrun := State.eq_of_undrawn (hkeeps _ (undrawn_drawClosed s) rfl)
  rw [hseq] at hrun
  exact ⟨_, hexec.trans (State.hostRequest_admitted hidle hready run),
    congrArg (State.setRegs fun _ => Regs.noValue) hrun⟩

end Sys2Proof
end

section
/-! What no step takes back (10_state.md R12, R13, R24, R25). -/

namespace Sys2Proof.Machine

@[simp] theorem Lines.drive_get_cfg (L M : Line) (v : Level) (l : Lines) :
    ((l.drive L v).get M).cfg = (l.get M).cfg := by
  cases L <;> cases M <;> rfl

@[simp] theorem Lines.configure_get_cfg (L M : Line) (l : Lines) :
    ((l.configure L).get M).cfg = (decide (M = L) || (l.get M).cfg) := by
  cases L <;> cases M <;> rfl

/-- From `s` to `t` the parameters and the glyph ROM are the same, no line has lost its configuration, and the pin trace
has only grown. -/
structure State.Extends (s t : State) : Prop where
  params : t.params = s.params
  glyphRom : t.glyphRom = s.glyphRom
  cfg : ∀ L : Line, (s.lines.get L).cfg = true → (t.lines.get L).cfg = true
  pinLog : s.pinLog <:+ t.pinLog

theorem State.Extends.refl (s : State) : s.Extends s := ⟨rfl, rfl, fun _ => id, List.suffix_rfl⟩

/-- Each primitive extends what it is applied to: it puts its events, if any, before the older ones. -/
theorem extends_closed (s : State) : Closed s.Extends where
  line _ L v h := ⟨h.params, h.glyphRom, fun M hM => by simpa using h.cfg M hM, h.pinLog.trans (List.suffix_cons _ _)⟩
  configure _ L h := ⟨h.params, h.glyphRom, fun M hM => by simp [h.cfg M hM],
    h.pinLog.trans (List.suffix_cons _ _)⟩
  settle _ h := { h with pinLog := h.pinLog.trans (List.suffix_append _ _) }
  delay _ _ h := { h with pinLog := h.pinLog.trans (List.suffix_cons _ _) }
  yieldPoint _ h := { h with pinLog := h.pinLog.trans (List.suffix_append _ _) }
  setRegs _ _ h := { h with }
  setSeq _ _ h := { h with }
  setReady _ _ h := { h with }
  setStatus _ _ h := { h with }
  cfgRead _ h := { h with }

theorem step_extends {s t : State} (h : step s = .next t) : s.Extends t :=
  step_closed (extends_closed s).toByte (fun _ _ h => { h with }) (fun _ _ h => { h with }) (State.Extends.refl s) h

theorem State.Extends.pinTrace {s t : State} (h : s.Extends t) : ∃ es, t.pinTrace = s.pinTrace ++ es := by
  obtain ⟨es, he⟩ := h.pinLog
  exact ⟨es.reverse, by simp [State.pinTrace, ← he]⟩

end Sys2Proof.Machine

namespace Sys2Proof

open Sys2Proof.Machine

/-- Settles O51: the primitives, the receiver's port and taking an input each extend the state. -/
theorem parametersGlyphsAndConfigurationStay : Obligations.ParametersGlyphsAndConfigurationStay := by
  intro s t h
  have hext := step_extends h
  exact ⟨hext.params, hext.glyphRom, hext.cfg, hext.pinTrace⟩

end Sys2Proof
end

section
/-! The pass of 30_encoding.md R73 stands where the state does, and DC is written only where it has no bit of a byte
(20_memory.md R56, 70_reset_and_hazards.md R220). -/

namespace Sys2Proof.Machine

/-! ### The pass and the primitives -/

/-- Where the pass stands if it agrees with the state: the state's own levels, ACC, N and frame trace. -/
def State.pass (s : State) : Pass :=
  { sck := s.lines.sck.lvl, sda := s.lines.sda.lvl, dc := s.lines.dc.lvl, rst := s.lines.rst.lvl,
    acc := s.wire.acc, n := s.wire.n, out := s.frameLog }

theorem State.traceAgrees_iff (s : State) : s.TraceAgrees ↔ passOver s.params s.pinTrace = s.pass := Iff.rfl

/-- The pass over the pin trace takes the newest event last. -/
theorem State.passOver_pinTrace (s : State) (p : Params) :
    passOver p s.pinTrace = s.pinLog.foldr (fun e q => Pass.event p q e) Pass.start := List.foldl_reverse

theorem State.TraceAgrees.wire_n {s : State} (h : s.TraceAgrees) : (passOver s.params s.pinTrace).n = s.wire.n :=
  congrArg Pass.n h

/-- The traces agree still when the state has moved as the pass does over the events put before the older ones. -/
theorem State.TraceAgrees.grow {s t : State} (h : s.TraceAgrees) (es : List Event) (hp : t.params = s.params)
    (hlog : t.pinLog = es ++ s.pinLog) (ht : t.pass = es.foldr (fun e q => Pass.event s.params q e) s.pass) :
    t.TraceAgrees := by
  rw [State.traceAgrees_iff, State.passOver_pinTrace] at h ⊢
  rw [hp, hlog, List.foldr_append, h, ht]

/-- A bit taken at a rising edge is what the wire makes of it. -/
theorem State.pass_bit (s : State) (b : Level) : s.pass.bit s.params b = { s.pass with
    acc := (wireShift b s.wire).acc, n := (wireShift b s.wire).n,
    out := cellElems (kindOf s.params s.lines.dc.lvl) s.wire b ++ s.frameLog } := by
  by_cases h7 : s.wire.n = 7 <;> simp [State.pass, Pass.bit, wireShift, cellElems, shiftIn, kindOf, h7]

/-- A write of a line moves the state as it moves the pass: a rising edge (R73 a), a reset marker (R73 b), a level
(R73 d). -/
theorem State.line_pass (s : State) (L : Line) (v : Level) :
    (s.line L v).pass = Pass.event s.params s.pass (.set L v) := by
  cases L with
  | sck =>
    by_cases hedge : v = true ∧ s.lines.sck.lvl = some false
    · obtain ⟨rfl, hlow⟩ := hedge
      cases hsda : s.lines.sda.lvl with
      | none => simp [State.pass, Pass.event, sensed, sensedWire, hlow, hsda]
      | some b =>
        have hbit : Pass.event s.params s.pass (.set .sck true) =
            { s.pass.bit s.params b with sck := some true } := by
          simp [Pass.event, State.pass, hlow, hsda]
        rw [hbit, s.pass_bit b]
        simp [State.pass, sensed, sensedWire, cellElems, hlow, hsda]
    · simp [State.pass, Pass.event, sensed, sensedWire, hedge]
  | rst =>
    by_cases hv : v = s.params.lvlRstActive <;> by_cases hr : s.lines.rst.lvl = some s.params.lvlRstActive <;>
      simp [State.pass, Pass.event, sensed, sensedWire, hv, hr]
  | _ => rfl

theorem foldr_settleEvents (p : Params) (t : TimingPolicy) (q : Pass) :
    (settleEvents t).foldr (fun e q => Pass.event p q e) q = q := by
  cases t <;> rfl

theorem foldr_yieldEvents (p : Params) (k : Nat) (q : Pass) :
    (yieldEvents p k).foldr (fun e q => Pass.event p q e) q = q := by
  unfold yieldEvents; split <;> rfl

/-- The ten primitives keep the agreement of the traces. -/
theorem traceAgrees_closed : Closed State.TraceAgrees where
  line s L v h := h.grow [.set L v] rfl rfl (s.line_pass L v)
  configure s L h := h.grow [.cfg L] rfl rfl (by simp [State.pass, Pass.event])
  settle _ h := h.grow _ rfl rfl (foldr_settleEvents _ _ _).symm
  delay _ n h := h.grow [.wait n] rfl rfl rfl
  yieldPoint _ h := h.grow _ rfl rfl (foldr_yieldEvents _ _ _).symm
  setRegs _ _ h := h
  setSeq _ _ h := h
  setReady _ _ h := h
  setStatus _ _ h := h
  cfgRead _ h := h

/-! ### Where DC is written -/

/-- Events appended to a trace keep DC between bytes when each write of DC among them finds the pass without a bit. -/
theorem dcBetweenBytes.append {p : Params} {tr es : List Event} (h : dcBetweenBytes p tr)
    (hes : ∀ pre post v, es = pre ++ .set .dc v :: post → (passOver p (tr ++ pre)).n = 0) :
    dcBetweenBytes p (tr ++ es) := by
  intro before after v he
  rcases List.append_eq_append_iff.mp he with ⟨pre, rfl, hpre⟩ | ⟨mid, htr, hmid⟩
  · exact hes pre after v hpre
  · cases mid with
    | nil =>
      rw [List.append_nil] at htr
      simpa [htr] using hes [] after v hmid.symm
    | cons e mid =>
      obtain ⟨rfl, -⟩ := List.cons.inj hmid
      exact h before mid v htr

/-- Events that do not write DC. -/
theorem dcBetweenBytes.append_quiet {p : Params} {tr es : List Event} (h : dcBetweenBytes p tr)
    (hes : ∀ v, .set .dc v ∉ es) : dcBetweenBytes p (tr ++ es) :=
  h.append fun _ _ v he => absurd (he ▸ List.mem_append_right _ List.mem_cons_self) (hes v)

/-- An event of any kind, where the pass has no bit. -/
theorem dcBetweenBytes.concat {p : Params} {tr : List Event} (h : dcBetweenBytes p tr) (hn : (passOver p tr).n = 0)
    (e : Event) : dcBetweenBytes p (tr ++ [e]) := by
  refine h.append fun pre post v he => ?_
  cases pre with
  | nil => rwa [List.append_nil]
  | cons _ pre => simp at he

/-- The transport does not touch DC (40_transport.md R100). -/
theorem set_dc_notMem_byteEvents (t : TimingPolicy) (b : Byte) (v : Level) : .set .dc v ∉ byteEvents t b := by
  cases t <;> simp [byteEvents, cellEvents]

theorem set_dc_notMem_yieldEvents (p : Params) (k : Nat) (v : Level) : .set .dc v ∉ yieldEvents p k := by
  unfold yieldEvents; split <;> simp

/-- Between bytes, the traces agreeing, with every write of DC so far between two bytes. -/
structure State.DcKept (s : State) : Prop extends s.BetweenBytes where
  agrees : s.TraceAgrees
  dc : dcBetweenBytes s.params s.pinTrace

/-- Between bytes the pass, which agrees with the wire, has no bit; so an event of any kind keeps DC between bytes. -/
theorem State.DcKept.dc_concat {s : State} (h : s.DcKept) (e : Event) :
    dcBetweenBytes s.params (e :: s.pinLog).reverse := by
  rw [List.reverse_cons]
  exact h.dc.concat (h.agrees.wire_n.trans h.wire_n) e

theorem State.DcKept.dc_sendByte {s : State} (h : s.DcKept) (v : Byte) :
    dcBetweenBytes (s.sendByte v).params (s.sendByte v).pinTrace := by
  rw [State.sendByte_eq s v h.wire_n]
  simpa [State.pinTrace] using h.dc.append_quiet (set_dc_notMem_byteEvents s.params.policy v)

theorem State.DcKept.dc_yieldPoint {s : State} (h : s.DcKept) :
    dcBetweenBytes s.yieldPoint.params s.yieldPoint.pinTrace := by
  have hquiet (v : Level) : .set .dc v ∉ (yieldEvents s.params s.yieldPoints).reverse :=
    fun hv => set_dc_notMem_yieldEvents _ _ v (List.mem_reverse.mp hv)
  simpa [State.pinTrace] using h.dc.append_quiet hquiet

theorem dcKept_byteClosed : ByteClosed State.DcKept where
  sendByte s v h := ⟨h.toBetweenBytes.sendByte v, traceAgrees_closed.sendByte v s h.agrees, h.dc_sendByte v⟩
  lineDc s v h := ⟨h.toBetweenBytes.line .dc v (by simp), traceAgrees_closed.line s .dc v h.agrees, h.dc_concat _⟩
  line s L v hv h := ⟨h.toBetweenBytes.line L v hv, traceAgrees_closed.line s L v h.agrees, h.dc_concat _⟩
  configure s L h := ⟨betweenBytes_byteClosed.configure s L h.toBetweenBytes,
    traceAgrees_closed.configure s L h.agrees, h.dc_concat _⟩
  delay s n h := ⟨betweenBytes_byteClosed.delay s n h.toBetweenBytes,
    traceAgrees_closed.delay s n h.agrees, h.dc_concat _⟩
  yieldPoint s h := ⟨betweenBytes_byteClosed.yieldPoint s h.toBetweenBytes,
    traceAgrees_closed.yieldPoint s h.agrees, h.dc_yieldPoint⟩
  setRegs _ _ h := { h with }
  setSeq _ _ h := { h with }
  setReady _ _ h := { h with }
  setStatus _ _ h := { h with }
  cfgRead _ h := { h with }

theorem step_keeps_dcKept {s t : State} (h : s.DcKept) (hn : step s = .next t) : t.DcKept :=
  step_closed dcKept_byteClosed
    (fun _ es h => { h with fb := Panel.takeAll_wf es h.fb }) (fun _ _ h => { h with }) h hn

end Sys2Proof.Machine

namespace Sys2Proof

open Sys2Proof.Machine

/-- Settles O50: a byte is sent without a write of DC, and between bytes the pass has no bit. -/
theorem dcIsWrittenOnlyBetweenBytes : Obligations.DcIsWrittenOnlyBetweenBytes := by
  intro s t hsafe hagrees hdc h
  obtain ⟨-, hbytes, -⟩ := s.safe_iff.mp hsafe
  exact (step_keeps_dcKept ⟨hbytes, hagrees, hdc⟩ h).dc

end Sys2Proof
end

section
/-! The traces agree after every step: the ten primitives keep it, and the receiver's port and the inbox are no part of
it (30_encoding.md R73). -/

namespace Sys2Proof

open Sys2Proof.Machine

/-- Settles O49: each primitive moves the state as its events move the pass, and every step is made of primitives. -/
theorem everyStepKeepsTheFrameTrace : Obligations.EveryStepKeepsTheFrameTrace := by
  intro s t hagrees h
  exact step_closed traceAgrees_closed.toByte (fun _ _ ha => ha) (fun _ _ ha => ha) hagrees h

end Sys2Proof
end

section
/-! Decoding gives back what was encoded (30_encoding.md R76, R86, R89). -/

namespace Sys2Proof

/-- Settles O3: instruction by instruction, each by its own round trip. -/
theorem decodeGivesBackWhatWasEncoded : Obligations.DecodeGivesBackWhatWasEncoded := by
  intro i
  cases i with
  | init => exact Laws.RoundTrip.init
  | clear c => exact Laws.RoundTrip.clear c
  | drawPixel x y c => exact Laws.RoundTrip.drawPixel x y c
  | fillRect x y w h c => exact Laws.RoundTrip.fillRect x y w h c
  | drawChar x y ch fg bg => exact Laws.RoundTrip.drawChar x y ch fg bg
  | drawString x y text fg bg => exact Laws.RoundTrip.drawString x y text fg bg
  | sendByte v => exact Laws.RoundTrip.sendByte v
  | sendWord v => exact Laws.RoundTrip.sendWord v
  | sendCommand o => exact Laws.RoundTrip.sendCommand o
  | sendDataByte v => exact Laws.RoundTrip.sendDataByte v
  | sendDataWord v => exact Laws.RoundTrip.sendDataWord v
  | setWindow x y w h => exact Laws.RoundTrip.setWindow x y w h
  | swreset => exact Laws.RoundTrip.swreset
  | slpout => exact Laws.RoundTrip.slpout
  | noron => exact Laws.RoundTrip.noron
  | invon => exact Laws.RoundTrip.invon
  | dispon => exact Laws.RoundTrip.dispon
  | caset xs xe => exact Laws.RoundTrip.caset xs xe
  | raset ys ye => exact Laws.RoundTrip.raset ys ye
  | ramwr ws => exact Laws.RoundTrip.ramwr ws
  | madctl m => exact Laws.RoundTrip.madctl m
  | colmod m => exact Laws.RoundTrip.colmod m

end Sys2Proof
end

section
/-! What a packet decodes to is encoded by that packet and by no other, port by port (30_encoding.md R76, R86, R89). -/

namespace Sys2Proof

/-! ### The pieces of a packet, put together again -/

@[simp] theorem wordBytes_joinBytes (hi lo : Byte) : wordBytes (joinBytes hi lo) = [hi, lo] := by
  simp [wordBytes]

@[simp] theorem wordFrames_joinBytes (hi lo : Byte) : wordFrames (joinBytes hi lo) = [dataFrame hi, dataFrame lo] := by
  simp [wordFrames]

theorem map_frameCode_frameOfCode (codes : List (BitVec 9)) :
    (codes.map frameOfCode).map frameCode = codes := by
  simp [Function.comp_def, frameCode_frameOfCode]

/-- The end coordinate is recovered from the width. -/
theorem endCoord_of_end (start stop : Word) : endCoord start (stop - start + 1#16) = stop := by
  simp only [endCoord]; bv_omega

/-- Data frames are the data frames of their bytes. -/
theorem eq_map_dataFrame_of_dataBytes {fs : List Frame} : ∀ {bs : List Byte}, dataBytes fs = some bs →
    fs = bs.map dataFrame := by
  induction fs with
  | nil => intro bs h; cases h; rfl
  | cons f fs ih =>
    intro bs h
    obtain ⟨kind, byte⟩ := f
    cases kind with
    | command => cases h
    | data =>
      obtain ⟨tail, htail, rfl⟩ := Option.map_eq_some_iff.mp h
      rw [ih htail]
      rfl

/-- A pixel stream is the stream of its color words. -/
theorem streamBytes_of_streamWords (bs : List Byte) : ∀ {ws : List Word}, streamWords bs = some ws →
    streamBytes ws = bs := by
  induction bs using streamWords.induct with
  | case1 => intro ws h; cases h; rfl
  | case2 b => intro ws h; cases h
  | case3 hi lo rest ih =>
    intro ws h
    obtain ⟨tail, htail, rfl⟩ := Option.map_eq_some_iff.mp h
    simpa [streamBytes] using ih htail

/-! ### The four ports -/

/-- When something stands after the text operand, TLEN is the length of the text, and the two make up the rest of the
request. -/
theorem text_append_colors {n : Nat} {rest colors : List Byte} (h : rest.drop n = colors) (hne : colors ≠ []) :
    n ≤ rest.length ∧ rest.take n ++ colors = rest := by
  subst h
  exact ⟨Nat.le_of_not_ge fun hshort => hne (List.drop_of_length_le hshort), List.take_append_drop n rest⟩

/-- The six selectors in order; every other branch of the decoder rejects. -/
theorem encode_of_decodeRequest {bytes : List Byte} {i : Instr} (h : decodeRequest bytes = .instr i) :
    encode i = .request bytes := by
  unfold decodeRequest at h
  dsimp only at h
  repeat' split at h
  all_goals cases h
  all_goals subst_vars
  · rfl
  · simp [encode]
  · simp [encode]
  · simp [encode]
  · simp [encode]
  · obtain ⟨hlen, htail⟩ := text_append_colors ‹List.drop _ _ = _› (List.cons_ne_nil _ _)
    simp [encode, hlen, htail]

theorem encode_of_decodeBare {bytes : List Byte} {i : Instr} (h : decodeBare bytes = .instr i) :
    encode i = .bare bytes := by
  unfold decodeBare at h
  split at h <;> cases h
  · rfl
  · simp [encode]

theorem encode_of_decodeFramed {codes : List (BitVec 9)} {i : Instr} (h : decodeFramed codes = .instr i) :
    encode i = .framed codes := by
  rw [← map_frameCode_frameOfCode codes]
  unfold decodeFramed at h
  split at h <;> rename_i hframes
  · cases h
  · cases h; rw [hframes]; rfl
  · cases h; rw [hframes]; rfl
  · cases h; rw [hframes]; simp [encode, dataFrame]
  · split at h
    · rename_i hopcodes
      obtain ⟨rfl, rfl, rfl⟩ := hopcodes
      cases h
      rw [hframes]
      simp [encode, windowFrames, endCoord_of_end, dataFrame, cmdFrame]
    · cases h
  · cases h

/-- The ten opcodes in order; every other branch rejects. -/
theorem encode_of_wireInstr {op : WireOp} {operands : List Byte} {i : Instr} (h : wireInstr op operands = .instr i) :
    encode i = wirePacket op operands := by
  unfold wireInstr at h
  repeat' split at h
  all_goals cases h
  · rfl
  · rfl
  · rfl
  · rfl
  · rfl
  · simp [encode]
  · simp [encode]
  · rename_i hwords
    rw [encode, streamBytes_of_streamWords _ hwords]
  · rfl
  · rfl

theorem encode_of_decodeWire {codes : List (BitVec 9)} {i : Instr} (h : decodeWire codes = .instr i) :
    encode i = .wire codes := by
  rw [← map_frameCode_frameOfCode codes]
  unfold decodeWire at h
  split at h
  · cases h
  · cases h
  · rename_i o rest hframes
    split at h
    · cases h
    · rename_i op hop
      split at h
      · cases h
      · rename_i bs hbytes
        rw [encode_of_wireInstr h, hframes, eq_map_dataFrame_of_dataBytes hbytes, ← wireOpcode_of_wireOpOf hop]
        rfl

theorem encode_of_decode {p : Packet} {i : Instr} (h : decode p = .instr i) : encode i = p := by
  cases p with
  | request bytes => exact encode_of_decodeRequest h
  | bare bytes => exact encode_of_decodeBare h
  | framed codes => exact encode_of_decodeFramed h
  | wire codes => exact encode_of_decodeWire h

/-- Settles O4: each port's decoder takes a packet apart into pieces that the encoder puts together again. -/
theorem onlyEncodingsDecode : Obligations.OnlyEncodingsDecode := by
  intro p i h
  exact ⟨decode_wellFormed h, encode_of_decode h⟩

end Sys2Proof
end

section
/-! Every command frame of a host request has one of the ten opcodes (30_encoding.md R75, R82, R90). -/

namespace Sys2Proof.Machine

/-- The opcode of a wire command is one of the ten. -/
theorem wireOpcode_mem_tenOpcodes (op : WireOp) : wireOpcode op ∈ tenOpcodes := by
  cases op <;> decide

@[simp] theorem assigned_dataFrame (b : Byte) : Elem.assigned (.frame (dataFrame b)) = true := rfl

@[simp] theorem assigned_wireOpcode (op : WireOp) : Elem.assigned (.frame (cmdFrame (wireOpcode op))) = true :=
  List.contains_iff_mem.mpr (wireOpcode_mem_tenOpcodes op)

theorem assigned_windowFrames (x y w h : Word) : (elems (windowFrames x y w h)).all Elem.assigned = true := by
  simp [elems, windowFrames, wordFrames]

/-- A stream of color words has data frames only. -/
theorem assigned_streamFrames (ws : List Word) : (elems (streamFrames ws)).all Elem.assigned = true := by
  induction ws with
  | nil => rfl
  | cons w ws ih => rw [streamFrames_cons, elems_append, List.all_append, ih]; simp [elems, wordFrames]

theorem assigned_fillElems (x y w h c : Word) : (fillElems x y w h c).all Elem.assigned = true := by
  rw [fillElems, elems_append, List.all_append, assigned_windowFrames, assigned_streamFrames]; rfl

theorem assigned_charElems (glyph : Nat → Byte) (x y fg bg : Word) :
    (charElems glyph x y fg bg).all Elem.assigned = true := by
  rw [charElems, elems_append, List.all_append, assigned_windowFrames, assigned_streamFrames]; rfl

theorem assigned_textElems (s : State) (fg bg : Word) (cells : List TextCell) :
    (textElems s fg bg cells).all Elem.assigned = true := by
  rw [textElems, List.all_flatMap]
  exact List.all_eq_true.mpr fun k _ => assigned_charElems _ _ _ _ _

theorem assigned_requestElems (s : State) (i : Instr) : (requestElems s i).all Elem.assigned = true := by
  cases i with
  | clear c => exact assigned_fillElems _ _ _ _ _
  | drawPixel x y c => rw [requestElems]; split; exacts [assigned_fillElems _ _ _ _ _, rfl]
  | fillRect x y w h c => rw [requestElems]; split; exacts [assigned_fillElems _ _ _ _ _, rfl]
  | drawChar x y ch fg bg => rw [requestElems]; split; exacts [assigned_charElems _ _ _ _ _, rfl]
  | drawString x y text fg bg => exact assigned_textElems _ _ _ _
  | _ => rfl

theorem assigned_initElems (p : Params) : (initElems p).all Elem.assigned = true := rfl

theorem assigned_initClearElems (p : Params) : (initClearElems p).all Elem.assigned = true := by
  unfold initClearElems; split; exacts [rfl, assigned_fillElems _ _ _ _ _]

/-- What an admitted `init` adds to the frame trace: its ten steps, or nothing without `cfg_ok` (44_init.md R151,
R165). -/
theorem exec_init_frameTrace {s t : State} (hs : s.lines.sck.lvl ≠ some false)
    (hr : s.lines.rst.lvl ≠ some s.params.lvlRstActive) (h : exec .init s = .next t) :
    t.frameTrace = s.frameTrace ++ if s.cfgOk then initElems s.params ++ initClearElems s.params else [] := by
  obtain ⟨rfl, -, -⟩ := State.hostRequest_cases h
  cases hok : s.cfgOk with
  | true =>
    obtain ⟨u, hsent, -, -, hu⟩ := State.initialise_ok s hok hs hr
    have hpulse : ((s.cfgRead.setReady false).configureLines.hwResetPulse).frameTrace =
        s.frameTrace ++ (initElems s.params).take 4 := by
      rw [State.configurePulse_eq (s.cfgRead.setReady false) hs hr]
      simp [State.frameTrace, initElems]
    have hu' : s.initialise.frameTrace = u.frameTrace := by rw [hu]; rfl
    calc s.initialise.frameTrace
        = s.frameTrace ++ (initElems s.params).take 4 ++
            ((initElems s.params).drop 4 ++ initClearElems s.params) := by rw [hu', hsent.frameTrace, hpulse]
      _ = s.frameTrace ++ (initElems s.params ++ initClearElems s.params) := by
          rw [List.append_assoc, ← List.append_assoc (List.take _ _), List.take_append_drop]
  | false =>
    rw [State.initialise_failed s hok]
    exact (List.append_nil _).symm

end Sys2Proof.Machine

namespace Sys2Proof

open Sys2Proof.Machine

/-- Settles O52: `init` and the drawing requests send only frames the spec writes out, whose opcodes are among the
ten. -/
theorem hostRequestsSendOnlyTheTenOpcodes : Obligations.HostRequestsSendOnlyTheTenOpcodes := by
  intro i s t hi hw hsafe h
  obtain ⟨-, hbytes, hready⟩ := s.safe_iff.mp hsafe
  by_cases hinit : i = .init
  · subst hinit
    refine ⟨_, exec_init_frameTrace hbytes.sck hready.rst h, ?_⟩
    split
    · rw [List.all_append, assigned_initElems, assigned_initClearElems]; rfl
    · rfl
  · obtain ⟨-, -, -, -, hsent⟩ := exec_drawing_sent hi hinit hw hbytes.wire_n h
    exact ⟨_, hsent.frameTrace, assigned_requestElems s i⟩

end Sys2Proof
end

section
/-! One step, by what stands first in the inbox, and the packets that are refused (30_encoding.md R87,
70_reset_and_hazards.md R215). -/

namespace Sys2Proof.Machine

theorem step_of_decode_instr {s : State} {p : Packet} {rest : List Input} {i : Instr}
    (hinbox : s.inbox = .packet p :: rest) (hdec : decode p = .instr i) : step s = exec i { s with inbox := rest } := by
  simp [step, hinbox, hdec]

theorem step_of_decode_rejected {s : State} {p : Packet} {rest : List Input} {why : DecodeError}
    (hinbox : s.inbox = .packet p :: rest) (hdec : decode p = .rejected why) :
    step s = .refused (.undecodable why) := by
  simp [step, hinbox, hdec]

theorem step_of_element {s : State} {e : Elem} {rest : List Input} (hinbox : s.inbox = .element e :: rest) :
    step s = State.atReceiver [e] { s with inbox := rest } := by
  simp [step, hinbox]

theorem step_of_inbox_nil {s : State} (hinbox : s.inbox = []) : step s = .next s := by
  simp [step, hinbox]

/-- A receiver that does not stop takes its elements, and nothing else changes. -/
theorem State.atReceiver_of_stop_none {es : List Elem} {s : State} (h : (s.panel.takeAll es).stop = none) :
    s.atReceiver es = .next { s with panel := s.panel.takeAll es } := by
  simp [State.atReceiver, h]

end Sys2Proof.Machine

namespace Sys2Proof

open Sys2Proof.Machine

/-- An OPSEL outside 0x01 to 0x06 is none of the six, whatever the operands are (30_encoding.md R87). -/
theorem decodeRequest_unknownOpsel {opsel : Byte} (h : opsel.toNat = 0 ∨ 6 < opsel.toNat) (operands : List Byte) :
    decodeRequest (opsel :: operands) = .rejected (.unknownOpsel opsel) := by
  have hne (k : Byte) (hk : 1 ≤ k.toNat ∧ k.toNat ≤ 6) : opsel ≠ k := by
    rintro rfl
    omega
  simp only [decodeRequest, hne 0x01 (by decide), hne 0x02 (by decide), hne 0x03 (by decide), hne 0x04 (by decide),
    hne 0x05 (by decide), hne 0x06 (by decide), if_false]

/-- Settles O2: the decoder computes on each word. -/
theorem decodesTheSpecsWords : Obligations.DecodesTheSpecsWords := by
  unfold Obligations.DecodesTheSpecsWords
  decide

/-- Settles O5: the decoder knows no seventh selector, and the step refuses what it rejects. -/
theorem unknownOpselIsRefused : Obligations.UnknownOpselIsRefused := by
  intro s opsel operands rest hopsel hinbox
  exact step_of_decode_rejected hinbox (decodeRequest_unknownOpsel hopsel operands)

/-- Settles O6: the four cases of what stands first in the inbox. -/
theorem stepRunsTheDecodedInstruction : Obligations.StepRunsTheDecodedInstruction :=
  ⟨fun _ _ _ _ => step_of_decode_instr, fun _ _ _ _ => step_of_decode_rejected,
    fun _ _ _ hinbox hstop => (step_of_element hinbox).trans (State.atReceiver_of_stop_none hstop),
    fun _ => step_of_inbox_nil⟩

end Sys2Proof
end

section
/-! The timing policy is seen in the pin trace's `Settle` events and nowhere else (40_transport.md R101, R103). -/

namespace Sys2Proof.Machine

/-- The state as it is seen by one who does not see `Settle`: under the fast policy, and the pin trace without it. -/
def State.untimed (s : State) : State :=
  { s with params := { s.params with policy := .fast }, pinLog := s.pinLog.filter (· ≠ .settle) }

/-- Two states that agree in it differ in the policy and in the `Settle` events of the pin trace alone. -/
theorem State.eq_of_untimed {s t : State} (h : t.untimed = s.untimed) :
    t = { s with params := { s.params with policy := t.params.policy }, pinLog := t.pinLog } ∧
      t.pinLog.filter (· ≠ .settle) = s.pinLog.filter (· ≠ .settle) := by
  exact ⟨(congrArg (fun r : State => { r with
    params := { r.params with policy := t.params.policy }, pinLog := t.pinLog }) h :), (congrArg State.pinLog h :)⟩

theorem State.line_untimed (s : State) (L : Line) (v : Level) : (s.line L v).untimed = s.untimed.line L v := rfl

theorem State.settle_untimed (s : State) : s.settle.untimed = s.untimed := by
  obtain ⟨⟨policy, _⟩, _⟩ := s
  cases policy <;> rfl

theorem filter_yieldEvents (p : Params) (k : Nat) : (yieldEvents p k).filter (· ≠ .settle) = yieldEvents p k := by
  unfold yieldEvents; split <;> rfl

theorem State.yieldPoint_untimed (s : State) : s.yieldPoint.untimed = s.untimed.yieldPoint := by
  simp only [State.untimed, State.yieldPoint, List.filter_append, filter_yieldEvents]
  rfl

/-- Every operation takes states that differ in the timing alone to states that do: no operation reads the policy but
`settle()`, whose only effect is the event. -/
theorem untimed_related : Related fun s t => s.untimed = t.untimed where
  lvlCmd s t h := (congrArg (fun u : State => u.params.lvlCmd) h :)
  lvlRst s t h := (congrArg (fun u : State => u.params.lvlRstActive) h :)
  lvlBl s t h := (congrArg (fun u : State => u.params.lvlBlOn) h :)
  tShort s t h := (congrArg (fun u : State => u.params.tShort) h :)
  tLong s t h := (congrArg (fun u : State => u.params.tLong) h :)
  initClear s t h := (congrArg (fun u : State => u.params.initClear) h :)
  glyphRom s t h := (congrArg (fun u : State => u.glyphRom) h :)
  cfgOk s t h := (congrArg (fun u : State => u.cfgOk) h :)
  line s t L v h := by rw [s.line_untimed, t.line_untimed, h]
  configure s t L h := (congrArg (fun u : State => u.configure L) h :)
  settle s t h := by rw [s.settle_untimed, t.settle_untimed, h]
  delay s t n h := (congrArg (fun u : State => u.delay n) h :)
  yieldPoint s t h := by rw [s.yieldPoint_untimed, t.yieldPoint_untimed, h]
  setRegs s t f h := (congrArg (fun u : State => u.setRegs f) h :)
  setSeq s t q h := (congrArg (fun u : State => u.setSeq q) h :)
  seq := .inl fun s t h => (congrArg (fun u : State => u.seq) h :)
  setReady s t b h := (congrArg (fun u : State => u.setReady b) h :)
  setStatus s t v h := (congrArg (fun u : State => u.setStatus v) h :)
  cfgRead s t h := (congrArg (fun u : State => u.cfgRead) h :)

/-- An operation of the block: it keeps every relation that the primitives keep. -/
def BlockOperation (f : State → State) : Prop :=
  ∀ R : State → State → Prop, Related R → ∀ s t, R s t → R (f s) (f t)

/-- What an instruction is, the same in every state: a host request that runs an operation of the block, such an
operation issued alone, or elements at the receiver. -/
theorem exec_forms (i : Instr) :
    (∃ f, BlockOperation f ∧ ((∃ b, ∀ s, exec i s = s.hostRequest b f) ∨ ∀ s, exec i s = .next (s.issue f))) ∨
      ∃ es, ∀ s, exec i s = s.atReceiver es := by
  cases i with
  | init => exact .inl ⟨_, fun _ c => c.initialise, .inl ⟨_, fun _ => rfl⟩⟩
  | clear col => exact .inl ⟨_, fun _ c => c.clear col, .inl ⟨_, fun _ => rfl⟩⟩
  | drawPixel x y col => exact .inl ⟨_, fun _ c => c.drawPixel x y col, .inl ⟨_, fun _ => rfl⟩⟩
  | fillRect x y w h col => exact .inl ⟨_, fun _ c => c.fillRect x y w h col, .inl ⟨_, fun _ => rfl⟩⟩
  | drawChar x y ch fg bg => exact .inl ⟨_, fun _ c => c.drawChar x y ch fg bg, .inl ⟨_, fun _ => rfl⟩⟩
  | drawString x y text fg bg => exact .inl ⟨_, fun _ c => c.drawString x y text fg bg, .inl ⟨_, fun _ => rfl⟩⟩
  | sendByte v => exact .inl ⟨_, fun _ c => c.sendByte v, .inr fun _ => rfl⟩
  | sendWord v => exact .inl ⟨_, fun _ c => c.sendWord v, .inr fun _ => rfl⟩
  | sendCommand o => exact .inl ⟨_, fun _ c => c.sendCommand o, .inr fun _ => rfl⟩
  | sendDataByte v => exact .inl ⟨_, fun _ c => c.sendDataByte v, .inr fun _ => rfl⟩
  | sendDataWord v => exact .inl ⟨_, fun _ c => c.sendDataWord v, .inr fun _ => rfl⟩
  | setWindow x y w h => exact .inl ⟨_, fun _ c => c.setWindow x y w h, .inr fun _ => rfl⟩
  | swreset => exact .inr ⟨_, fun _ => rfl⟩
  | slpout => exact .inr ⟨_, fun _ => rfl⟩
  | noron => exact .inr ⟨_, fun _ => rfl⟩
  | invon => exact .inr ⟨_, fun _ => rfl⟩
  | dispon => exact .inr ⟨_, fun _ => rfl⟩
  | caset xs xe => exact .inr ⟨_, fun _ => rfl⟩
  | raset ys ye => exact .inr ⟨_, fun _ => rfl⟩
  | ramwr ws => exact .inr ⟨_, fun _ => rfl⟩
  | madctl m => exact .inr ⟨_, fun _ => rfl⟩
  | colmod m => exact .inr ⟨_, fun _ => rfl⟩

/-- States that differ in the timing alone are admitted alike, stand before the same panel, and come to states that
differ in the timing alone. -/
theorem exec_untimed {i : Instr} {s t u : State} (h : s.untimed = t.untimed) (he : exec i s = .next u) :
    ∃ v, exec i t = .next v ∧ u.untimed = v.untimed := by
  have hseq : s.seq = t.seq := (congrArg State.seq h :)
  have hready : s.ready = t.ready := (congrArg State.ready h :)
  have hpanel : s.panel = t.panel := (congrArg State.panel h :)
  rcases exec_forms i with ⟨f, hf, ⟨b, hexec⟩ | hexec⟩ | ⟨es, hexec⟩
  · obtain ⟨rfl, hidle, hb⟩ := State.hostRequest_cases ((hexec s).symm.trans he)
    exact ⟨_, (hexec t).trans (State.hostRequest_admitted (hseq ▸ hidle) (hready ▸ hb) f),
      untimed_related.setRegs _ _ _ (hf _ untimed_related s t h)⟩
  · obtain rfl := Host.Outcome.next.inj ((hexec s).symm.trans he)
    exact ⟨_, hexec t, untimed_related.setRegs _ _ _ (hf _ untimed_related s t h)⟩
  · obtain ⟨rfl, hstop⟩ := State.atReceiver_cases ((hexec s).symm.trans he)
    rw [hpanel] at hstop ⊢
    exact ⟨_, (hexec t).trans (State.atReceiver_of_stop_none hstop),
      (congrArg (fun r : State => { r with panel := t.panel.takeAll es }) h :)⟩

theorem exec_extends {i : Instr} {s t : State} (h : exec i s = .next t) : s.Extends t :=
  exec_closed (extends_closed s).toByte (fun _ _ h => { h with }) (State.Extends.refl s) h

end Sys2Proof.Machine

namespace Sys2Proof

open Sys2Proof.Machine

/-- Settles O54: the two runs differ in the timing alone all along, and no instruction changes a parameter. -/
theorem policyDoesNotShowOnTheWire : Obligations.PolicyDoesNotShowOnTheWire := by
  intro i s t q h
  obtain ⟨t', h', huntimed⟩ := exec_untimed (s := s) (t := { s with params := { s.params with policy := q } }) rfl h
  obtain ⟨heq, hevents⟩ := State.eq_of_untimed huntimed.symm
  rw [(exec_extends h).params, (exec_extends h').params] at heq
  exact ⟨t', h', heq, hevents⟩

end Sys2Proof
end

section
/-! The transport issued alone (40_transport.md R100, R102): the block's side from its law on the block, the wire's from
its law on the elements sent. -/

namespace Sys2Proof

open Sys2Proof.Machine

/-- Settles O7: the law on the block needs no premise; the one frame is what `send_byte` sends between bytes. -/
theorem sendByteShiftsOutEightBits : Obligations.SendByteShiftsOutEightBits := by
  intro s v
  obtain ⟨hregs, htrace, hblock⟩ := State.issue_of_block (s.sendByte_block v)
  refine ⟨_, rfl, hregs, htrace, hblock, fun hn => ?_⟩
  have hsent := (s.sendByte_sent v hn).setRegs fun _ => Regs.noValue
  exact ⟨hsent.wire_n, hsent.frameTrace, hsent.panel⟩

/-- Settles O8: bit 0 of the low byte, which SDA keeps, is bit 0 of the word. -/
theorem sendWordSendsHighByteFirst : Obligations.SendWordSendsHighByteFirst := by
  intro s v
  obtain ⟨hregs, htrace, hblock⟩ := State.issue_of_block (s.sendWord_block v)
  rw [loByte_bit0] at hblock
  refine ⟨_, rfl, hregs, htrace, hblock, fun hn => ?_⟩
  have hsent := (s.sendWord_sent v hn).setRegs fun _ => Regs.noValue
  exact ⟨hsent.wire_n, hsent.frameTrace, hsent.panel⟩

end Sys2Proof
end

section
/-! How many events the internal operations append (40_transport.md R105, 41_framing.md R115, 42_window_fill.md R131):
counted once for a bit cell and for a write of DC, and added up over what an operation is made of. -/

namespace Sys2Proof.Machine

/-- Of the events `es` under `policy`, `sets` set a line and the others are the settling places, two for each of `bits`
bit cells; in each cell the clock falls once and rises once. -/
structure Tally (policy : TimingPolicy) (es : List Event) (sets bits : Nat) : Prop where
  isSet : es.countP Event.isSet = sets
  rises : es.count (.set .sck true) = bits
  falls : es.count (.set .sck false) = bits
  settles : es.count .settle = 2 * (settleEvents policy).length * bits
  length : es.length = sets + 2 * (settleEvents policy).length * bits

namespace Tally

variable {policy : TimingPolicy} {es fs : List Event} {m n j k : Nat}

theorem nil (policy : TimingPolicy) : Tally policy [] 0 0 := ⟨rfl, rfl, rfl, rfl, rfl⟩

theorem append (h : Tally policy es m j) (g : Tally policy fs n k) : Tally policy (es ++ fs) (m + n) (j + k) where
  isSet := by rw [List.countP_append, h.isSet, g.isSet]
  rises := by rw [List.count_append, h.rises, g.rises]
  falls := by rw [List.count_append, h.falls, g.falls]
  settles := by rw [List.count_append, h.settles, g.settles, Nat.mul_add]
  length := by rw [List.length_append, h.length, g.length, Nat.mul_add]; omega

theorem setDc (policy : TimingPolicy) (v : Level) : Tally policy [.set .dc v] 1 0 :=
  ⟨rfl, rfl, rfl, rfl, rfl⟩

theorem cell (policy : TimingPolicy) (b : Level) : Tally policy (cellEvents policy b) 3 1 := by
  cases policy <;> exact ⟨rfl, rfl, rfl, rfl, rfl⟩

theorem cells (policy : TimingPolicy) (v : Byte) (is : List Nat) :
    Tally policy (is.flatMap fun i => cellEvents policy (v.getLsbD i)) (3 * is.length) is.length := by
  induction is with
  | nil => exact nil policy
  | cons i is ih =>
    rw [List.flatMap_cons, List.length_cons, Nat.mul_succ, Nat.add_comm _ 3, Nat.add_comm _ 1]
    exact (cell policy _).append ih

theorem byte (policy : TimingPolicy) (v : Byte) : Tally policy (byteEvents policy v) 24 8 := cells policy v _

theorem word (policy : TimingPolicy) (v : Word) : Tally policy (wordEvents policy v) 48 16 :=
  (byte policy _).append (byte policy _)

theorem command (p : Params) (o : Byte) : Tally p.policy (commandEvents p o) 26 8 :=
  ((setDc _ _).append (byte _ o)).append (setDc _ _)

theorem dataByte (p : Params) (v : Byte) : Tally p.policy (dataByteEvents p v) 25 8 := (setDc _ _).append (byte _ v)

theorem dataWord (p : Params) (v : Word) : Tally p.policy (dataWordEvents p v) 49 16 := (setDc _ _).append (word _ v)

/-- Three commands and four data words. -/
theorem window (p : Params) (x y w h : Word) : Tally p.policy (windowEvents p x y w h) 274 88 :=
  ((((((command p _).append (dataWord p x)).append (dataWord p _)).append (command p _)).append (dataWord p y)).append
    (dataWord p _)).append (command p _)

end Tally

/-- The instruction runs to its return and appends `sets` events that set a line, with the clock's edges and the settling
places of `bytes` bytes. -/
def AppendsEvents (i : Instr) (s : State) (sets bytes : Nat) : Prop :=
  ∃ (t : State) (es : List Event), exec i s = .next t ∧ t.pinTrace = s.pinTrace ++ es ∧
    es.countP Event.isSet = sets ∧ es.count (.set .sck true) = 8 * bytes ∧ es.count (.set .sck false) = 8 * bytes ∧
    (s.params.policy = .fast → es.count .settle = 0 ∧ es.length = sets) ∧
    (s.params.policy = .conservative → es.count .settle = 16 * bytes ∧ es.length = sets + 16 * bytes)

/-- An operation issued alone appends the events of its law on the block. -/
theorem Tally.appendsEvents {i : Instr} {s : State} {f : State → State} {rg : Regs} {ln : Lines} {es : List Event}
    {sets bytes : Nat} (htally : Tally s.params.policy es sets (8 * bytes)) (hexec : exec i s = .next (s.issue f))
    (hblock : (f s).blockPart = State.blockPart { s with regs := rg, lines := ln, pinLog := es.reverse ++ s.pinLog }) :
    AppendsEvents i s sets bytes := by
  obtain ⟨-, htrace, -⟩ := State.issue_of_block hblock
  obtain ⟨hsets, hrises, hfalls, hsettles, hlength⟩ := htally
  refine ⟨_, es, hexec, htrace, hsets, hrises, hfalls, fun hp => ?_, fun hp => ?_⟩
  all_goals simp only [hp, settleEvents, List.length_nil, List.length_singleton] at hsettles hlength; omega

end Sys2Proof.Machine

namespace Sys2Proof

open Sys2Proof.Machine

/-- Settles O13: each operation's events, by its law on the block, have the stated tally. -/
theorem internalOperationsAppendTheStatedEvents : Obligations.InternalOperationsAppendTheStatedEvents := by
  intro i s sets bytes hi
  change AppendsEvents i s sets bytes
  rcases hi with ⟨v, rfl, rfl, rfl⟩ | ⟨v, rfl, rfl, rfl⟩ | ⟨o, rfl, rfl, rfl⟩ | ⟨v, rfl, rfl, rfl⟩ |
    ⟨v, rfl, rfl, rfl⟩ | ⟨x, y, w, h, rfl, rfl, rfl⟩
  · exact (Tally.byte _ v).appendsEvents rfl (s.sendByte_block v)
  · exact (Tally.word _ v).appendsEvents rfl (s.sendWord_block v)
  · exact (Tally.command _ o).appendsEvents rfl (s.sendCommand_block o)
  · exact (Tally.dataByte _ v).appendsEvents rfl (s.sendDataByte_block v)
  · exact (Tally.dataWord _ v).appendsEvents rfl (s.sendDataWord_block v)
  · exact (Tally.window _ x y w h).appendsEvents rfl (s.setWindow_block x y w h)

end Sys2Proof
end

section
/-! The framing issued alone (41_framing.md R111 to R114): the block's side from the law on the block, the wire's from
the law on the elements sent. -/

namespace Sys2Proof.Machine

/-- An operation issued alone: the registers as it returns, the pin trace and the block by its law on the block, from
every state; the wire, the frame trace and the panel by what it sends when no byte is half sent. -/
theorem State.issue_of_block_sent {s : State} {f : State → State} {rg : Regs} {ln : Lines} {es : List Event}
    {sent : List Elem}
    (hblock : (f s).blockPart = State.blockPart { s with regs := rg, lines := ln, pinLog := es.reverse ++ s.pinLog })
    (hsent : s.wire.n = 0 → Sent s (f s) sent) :
    (f s).regs = rg ∧ (s.issue f).pinTrace = s.pinTrace ++ es ∧
    s.issue f = { s with
      regs := Regs.noValue, lines := ln, pinLog := (s.issue f).pinLog, wire := (s.issue f).wire
      frameLog := (s.issue f).frameLog, panel := (s.issue f).panel } ∧
    (s.wire.n = 0 → (s.issue f).wire.n = 0 ∧ (s.issue f).frameTrace = s.frameTrace ++ sent ∧
      (s.issue f).panel = s.panel.takeAll sent) := by
  obtain ⟨hregs, htrace, hrest⟩ := State.issue_of_block hblock
  exact ⟨hregs, htrace, hrest, fun hn => ⟨(hsent hn).wire_n, (hsent hn).frameTrace, (hsent hn).panel⟩⟩

end Sys2Proof.Machine

namespace Sys2Proof

open Sys2Proof.Machine

/-- Settles O9: the byte goes out at the command level, and the second write of DC leaves it at the data level. -/
theorem sendCommandFramesOneByte : Obligations.SendCommandFramesOneByte := by
  intro s o
  exact ⟨_, rfl, State.issue_of_block_sent (s.sendCommand_block o) (s.sendCommand_sent o)⟩

/-- Settles O10: the one write of DC comes before the byte, and DC stays. -/
theorem sendDataByteFramesOneByte : Obligations.SendDataByteFramesOneByte := by
  intro s v
  exact ⟨_, rfl, State.issue_of_block_sent (s.sendDataByte_block v) (s.sendDataByte_sent v)⟩

/-- Settles O11: the one write of DC comes before both bytes; bit 0 of the low byte, which SDA keeps, is bit 0 of the
word. -/
theorem sendDataWordFramesOneWord : Obligations.SendDataWordFramesOneWord := by
  intro s v
  have hblock := s.sendDataWord_block v
  rw [loByte_bit0] at hblock
  exact ⟨_, rfl, State.issue_of_block_sent hblock (s.sendDataWord_sent v)⟩

/-- Settles O12: what the word and the two bytes do (R113, R112) is the same but for the second byte's write of DC. -/
theorem dataWordIsTwoDataBytesOnTheWire : Obligations.DataWordIsTwoDataBytesOnTheWire := by
  intro s v hn
  obtain ⟨t, ht, -, tpins, tblock, twire⟩ := sendDataWordFramesOneWord s v
  obtain ⟨u, hu, -, upins, ublock, uwire⟩ := sendDataByteFramesOneByte s (v.extractLsb' 8 8)
  obtain ⟨r, hr, -, rpins, rblock, rwire⟩ := sendDataByteFramesOneByte u (v.extractLsb' 0 8)
  obtain ⟨-, tframes, tpanel⟩ := twire hn
  obtain ⟨un, uframes, upanel⟩ := uwire hn
  obtain ⟨-, rframes, rpanel⟩ := rwire un
  have uparams : u.params = s.params := (congrArg State.params ublock :)
  have hbit : (v.extractLsb' 0 8).getLsbD 0 = v.getLsbD 0 := loByte_bit0 v
  refine ⟨t, u, r, ht, hu, hr, ?_, ?_, ?_, s.pinTrace ++ dataByteEvents s.params (v.extractLsb' 8 8),
    byteEvents s.params.policy (v.extractLsb' 0 8), ?_, ?_, rfl⟩
  · rw [rframes, uframes, tframes, List.append_assoc]; rfl
  · rw [rpanel, upanel, tpanel]; rfl
  · have lines {a b : State} (h : a = b) : a.lines = b.lines := congrArg State.lines h
    rw [lines rblock, lines ublock, lines tblock, uparams, hbit]
  · exact tpins.trans (List.append_assoc _ _ _).symm
  · rw [rpins, upins, uparams]; rfl

end Sys2Proof
end

section
/-! The addressing window issued alone (42_window_fill.md R120). -/

namespace Sys2Proof

open Sys2Proof.Machine

/-- Settles O14: the block's side from every state, the eleven frames when no byte is half sent; bit 0 of RAMWR, the
last byte sent, is what SDA keeps. -/
theorem setWindowSendsElevenFrames : Obligations.SetWindowSendsElevenFrames := by
  intro s x y w h
  obtain ⟨hregs, htrace, hblock, hwire⟩ :=
    State.issue_of_block_sent (s.setWindow_block x y w h) (s.setWindow_sent x y w h)
  refine ⟨_, rfl, hregs, htrace, hblock, fun hn => ?_⟩
  obtain ⟨hidle, hframes, hpanel⟩ := hwire hn
  exact ⟨hidle, hframes, hpanel, fun hhears => hpanel.trans (Panel.takeAll_window hhears x y w h)⟩

end Sys2Proof
end

section
/-! The raw fill (42_window_fill.md R122 to R130): what a valid `fill_rect` sends, the two requests that are one
`fill_rect`, and what the panel has painted after it. -/

namespace Sys2Proof.Machine

/-! ### The frames of a fill -/

theorem fillElems_length (x y w h c : Word) : (fillElems x y w h c).length = 11 + 2 * (w.toNat * h.toNat) := by
  rw [fillElems, elems_append, List.length_append, streamFrames_length, List.length_replicate]
  rfl

/-- A stream of color words has no command frame. -/
theorem filter_isCommand_streamFrames (ws : List Word) : (elems (streamFrames ws)).filter Elem.isCommand = [] := by
  induction ws with
  | nil => rfl
  | cons c ws ih => rw [streamFrames_cons, elems_append, List.filter_append, ih]; rfl

/-- The commands of a fill are those of its window. -/
theorem filter_isCommand_fillElems (x y w h c : Word) : (fillElems x y w h c).filter Elem.isCommand =
    [.frame (cmdFrame 0x2A), .frame (cmdFrame 0x2B), .frame (cmdFrame 0x2C)] := by
  rw [fillElems, elems_append, List.filter_append, filter_isCommand_streamFrames]
  rfl

theorem endCoord_one (x : Word) : endCoord x 1 = x := BitVec.add_sub_cancel x 1

/-- A fill of one pixel is thirteen frames (42_window_fill.md R127). -/
theorem fillElems_pixel (x y c : Word) : fillElems x y 1 1 c =
    elems ([cmdFrame 0x2A] ++ wordFrames x ++ wordFrames x ++ [cmdFrame 0x2B] ++ wordFrames y ++ wordFrames y ++
      [cmdFrame 0x2C] ++ wordFrames c) := by
  rw [fillElems, windowFrames, endCoord_one, endCoord_one]
  rfl

/-! ### The requests -/

/-- A valid `fill_rect` is admitted once READY, sends the frames of the rectangle and adds its events. -/
theorem exec_fillRect_valid {s : State} {x y w h : Word} (c : Word) (hs : s.Safe) (hr : s.ready = true)
    (hv : validRect x y w h = true) : ∃ t : State, exec (.fillRect x y w h c) s = .next t ∧
      Sent s t (fillElems x y w h c) ∧
      Pinned s t (windowEvents s.params x y w h ++
        streamEvents s.params s.yieldPoints (List.replicate (w.toNat * h.toNat) c)) (w.toNat * h.toNat - 1) := by
  obtain ⟨hidle, hn, -⟩ := hs
  exact ⟨_, State.hostRequest_admitted hidle hr _, (s.fillRect_sent x y w h c hn hv).setRegs _,
    (s.fillRect_pinned x y w h c hn hv).setRegs _⟩

/-- `draw_pixel` inside the panel is the `fill_rect` of one pixel (42_window_fill.md R126). -/
theorem exec_drawPixel_onPanel {x y : Word} (c : Word) (h : onPanel x y = true) (s : State) :
    exec (.drawPixel x y c) s = exec (.fillRect x y 1 1 c) s := by
  have hrun : State.drawPixel x y c = State.fillRect x y 1 1 c := by
    funext s
    rw [State.drawPixel, if_pos h, State.operation_fillRect]
  exact congrArg (s.hostRequest true) hrun

/-- `clear` is the `fill_rect` of the whole panel (42_window_fill.md R128). -/
theorem exec_clear (c : Word) (s : State) : exec (.clear c) s = exec (.fillRect 0 0 240 240 c) s := by
  have hrun : State.clear c = State.fillRect 0 0 240 240 c := by
    funext s
    rw [State.clear, State.operation_fillRect]
  exact congrArg (s.hostRequest true) hrun

/-! ### What a fill paints -/

/-- A column and a row of a window are a place of it, counted row by row. -/
theorem place_lt {w h col row : Nat} (hcol : col < w) (hrow : row < h) : row * w + col < w * h :=
  calc row * w + col < row * w + w := Nat.add_lt_add_left hcol _
    _ = (row + 1) * w := (Nat.succ_mul row w).symm
    _ ≤ h * w := Nat.mul_le_mul_right w hrow
    _ = w * h := Nat.mul_comm h w

/-- A ready receiver that takes a valid fill: the rectangle holds the color, every byte of FB outside it is as before,
and of the other registers only the window and the cursor change (42_window_fill.md R125). -/
theorem Panel.takeAll_fill {p : Panel} (hr : p.ready = true) {x y w h : Word} (hv : validRect x y w h = true)
    (c : Word) :
    let q := p.takeAll (fillElems x y w h c)
    (∀ px py : Nat, x.toNat ≤ px → px < x.toNat + w.toNat → y.toNat ≤ py → py < y.toNat + h.toNat →
      fbRead px py q.fb = some c) ∧
    (∀ a : Nat, (∀ px py : Nat, x.toNat ≤ px → px < x.toNat + w.toNat → y.toNat ≤ py → py < y.toNat + h.toNat →
      outsideElement a px py) → Memory.read a q.fb = Memory.read a p.fb) ∧
    q = { p with fb := q.fb, xs := some x, xe := some (endCoord x w), ys := some y, ye := some (endCoord y h),
                 px := q.px, py := q.py, mode := some .exhausted } := by
  obtain ⟨hw, -, hx, -⟩ := (validRect_iff x y w h).mp hv
  have hlen : (List.replicate (w.toNat * h.toNat) c).length = w.toNat * h.toNat := List.length_replicate
  obtain ⟨hfb, -, -, -⟩ := Panel.takeAll_filled hr hv hlen
  have hrest := Panel.takeAll_filled_rest hr hv hlen
  rw [← fillElems] at hfb hrest
  refine ⟨fun px py h1 h2 h3 h4 => ?_, fun a ha => ?_, hrest⟩
  · have hplace : (py - y.toNat) * w.toNat + (px - x.toNat) < w.toNat * h.toNat :=
      place_lt (by omega) (by omega)
    rw [hfb, fbRead_filled hw hx _ hlen p.fb h1 h2 h3 h4, List.getElem?_replicate, if_pos hplace]
  · rw [hfb]
    refine read_paint_outside _ 0 p.fb fun j _ hj => ?_
    rw [hlen, Nat.zero_add] at hj
    obtain ⟨hcol, hrow⟩ := place_inside hw hj
    exact ha _ _ (Nat.le_add_right _ _) (Nat.add_lt_add_left hcol _) (Nat.le_add_right _ _)
      (Nat.add_lt_add_left hrow _)

end Sys2Proof.Machine

namespace Sys2Proof

open Sys2Proof.Machine

/-- Settles O15: the fill's frames and events are counted, and the lines come back to rest. -/
theorem fillRectStreamsTheColor : Obligations.FillRectStreamsTheColor := by
  intro s x y w h c hs hr hw hh hx hy
  obtain ⟨t, he, hsent, hpins⟩ := exec_fillRect_valid c hs hr ((validRect_iff x y w h).mpr ⟨hw, hh, hx, hy⟩)
  exact ⟨t, he, hpins.pinTrace, hsent.frameTrace, hsent.panel, fillElems_length x y w h c,
    filter_isCommand_fillElems x y w h c, hsent.rest (hs.rest hr),
    hsent.sda_lvl.trans (sdaAfter_fill x y w h c _ (Nat.mul_pos hw hh))⟩

/-- Settles O17: the panel takes the fill's frames and no others. -/
theorem fillRectPaintsItsRectangle : Obligations.FillRectPaintsItsRectangle := by
  intro s x y w h c hs hr hp hw hh hx hy
  have hv : validRect x y w h = true := (validRect_iff x y w h).mpr ⟨hw, hh, hx, hy⟩
  obtain ⟨t, he, hsent, -⟩ := exec_fillRect_valid c hs hr hv
  have hpaint := Panel.takeAll_fill hp hv c
  rw [← hsent.panel] at hpaint
  exact ⟨t, he, hpaint⟩

/-- Settles O18: the two requests are one, and its window begins and ends at the pixel. -/
theorem drawPixelIsAOnePixelFill : Obligations.DrawPixelIsAOnePixelFill := by
  intro s x y c hs hr hx hy
  have hon : onPanel x y = true := (onPanel_iff x y).mpr ⟨hx, hy⟩
  obtain ⟨t, he, hsent, -⟩ := exec_fillRect_valid c hs hr (validRect_pixel hon)
  exact ⟨t, (exec_drawPixel_onPanel c hon s).trans he, he, fillElems_pixel x y c ▸ hsent.frameTrace⟩

/-- Settles O19: the two requests are one, and every element of FB is in its rectangle. -/
theorem clearFillsThePanel : Obligations.ClearFillsThePanel := by
  intro s c hs hr
  have hv : validRect 0 0 240 240 = true := by decide
  obtain ⟨t, he, hsent, -⟩ := exec_fillRect_valid c hs hr hv
  refine ⟨t, (exec_clear c s).trans he, he, hsent.frameTrace, fun hp px py hpx hpy => ?_⟩
  obtain ⟨hcolor, -, -⟩ := Panel.takeAll_fill hp hv c
  rw [hsent.panel]
  exact hcolor px py (Nat.zero_le _) (by simpa using hpx) (Nat.zero_le _) (by simpa using hpy)

end Sys2Proof
end

section
/-! What is off the panel is dropped without an event (60_exceptions.md R192). -/

namespace Sys2Proof.Machine

/-- A drawing request that writes nothing but working registers leaves the state as it was, without register values. -/
theorem State.hostRequest_dropped {s : State} (hs : s.Drawable) {run : State → State}
    (hrun : s.issue run = { s with regs := Regs.noValue }) :
    s.hostRequest true run = .next { s with regs := Regs.noValue } :=
  (State.hostRequest_admitted hs.1 hs.2 run).trans (congrArg Host.Outcome.next hrun)

theorem State.drawPixel_dropped (s : State) (x y c : Word) (h : onPanel x y = false) : s.drawPixel x y c = s := by
  simp [State.drawPixel, h]

/-- A character whose box does not fit: past the bottom edge the text ends before it, past the right edge it is passed
over, and a control code draws nothing anyway (43_text.md R141). -/
theorem State.drawText_singleton_dropped (x0 fg bg : Word) (ch : Byte) (ti : Nat) {cx cy : BitVec 32}
    (h : pastEdge cx = true ∨ pastEdge cy = true) (s : State) :
    s.issue (State.drawText x0 fg bg [ch] ti (cx, cy)) = { s with regs := Regs.noValue } := by
  rw [State.issue, State.drawText]
  split
  · rfl
  split
  · rfl
  split
  · rfl
  · rename_i hcy
    rw [if_pos (h.resolve_right hcy)]
    rfl

/-- `draw_string` issued from outside is the loop over its text (43_text.md R141), which begins with its working
registers written. -/
theorem State.issue_drawString (s : State) (x y : Word) (text : List Byte) (fg bg : Word) :
    ∃ (f : Regs → Regs) (q : List Position), s.issue (State.drawString x y text fg bg) =
      (((s.setRegs f).setSeq q).issue (State.drawText x fg bg text 0 (zext32 x, zext32 y))).setSeq s.seq :=
  ⟨fun r => { r with
      x0 := some x, cx := some (zext32 x), cy := some (zext32 y)
      tlen := some (BitVec.ofNat 16 text.length), ti := some 0 },
    ⟨.drawString, 3⟩ :: s.seq, rfl⟩

/-- A text of one character whose box does not fit writes working registers only. -/
theorem State.issue_drawString_singleton_dropped {x y : Word} (ch : Byte) (fg bg : Word)
    (h : 240 < x.toNat + 8 ∨ 240 < y.toNat + 8) (s : State) :
    s.issue (State.drawString x y [ch] fg bg) = { s with regs := Regs.noValue } := by
  have hedge : pastEdge (zext32 x) = true ∨ pastEdge (zext32 y) = true := by
    rwa [pastEdge_iff, pastEdge_iff, zext32_toNat, zext32_toNat]
  obtain ⟨f, q, heq⟩ := s.issue_drawString x y [ch] fg bg
  rw [heq, State.drawText_singleton_dropped x fg bg ch 0 hedge]
  rfl

end Sys2Proof.Machine

namespace Sys2Proof

open Sys2Proof.Machine

/-- Settles O16: the check of each operation fails, and what is left of it writes working registers only. -/
theorem outOfRangeCoordinatesAreDropped : Obligations.OutOfRangeCoordinatesAreDropped := by
  intro s hs
  refine ⟨fun x y c h => ?_, fun x y w h c hbad => ?_, fun x y ch fg bg h => ?_⟩
  · have hoff : onPanel x y = false := by
      rw [Bool.eq_false_iff, Ne, onPanel_iff]; omega
    exact State.hostRequest_dropped hs (congrArg _ (s.drawPixel_dropped x y c hoff))
  · have hinvalid : validRect x y w h = false := by
      rw [Bool.eq_false_iff, Ne, validRect_iff]; omega
    exact State.hostRequest_dropped hs (congrArg _ (s.fillRect_dropped x y w h c hinvalid))
  · exact State.hostRequest_dropped hs (State.issue_drawString_singleton_dropped ch fg bg h s)

end Sys2Proof
end

section
/-! One glyph (43_text.md R135 to R138): what `draw_char` sends, and what the panel makes of it, its box fitting or
not. -/

namespace Sys2Proof.Machine

/-! ### The request -/

/-- `draw_char` of a printable character is admitted once READY, sends its window and its glyph and adds their
events. -/
theorem exec_drawChar_printable {s : State} (x y : Word) {ch : Byte} (fg bg : Word) (hs : s.Safe) (hr : s.ready = true)
    (hc : printable ch = true) : ∃ t : State, exec (.drawChar x y ch fg bg) s = .next t ∧
      Sent s t (charElems (s.glyphRead ch) x y fg bg) ∧
      Pinned s t (windowEvents s.params x y 8 8 ++
        streamEvents s.params s.yieldPoints (glyphWords (s.glyphRead ch) fg bg)) 63 := by
  obtain ⟨hidle, hn, -⟩ := hs
  exact ⟨_, State.hostRequest_admitted hidle hr _, (s.drawChar_sent x y ch fg bg hn hc).setRegs _,
    (s.drawChar_pinned x y ch fg bg hn hc).setRegs _⟩

/-- A character that is not printable writes working registers only. -/
theorem State.issue_drawChar_dropped (x y : Word) {ch : Byte} (fg bg : Word) (hc : printable ch = false) (s : State) :
    s.issue (State.drawChar x y ch fg bg) = { s with regs := Regs.noValue } := by
  simp only [State.issue, State.drawChar, hc]
  rfl

/-! ### The box of a glyph -/

theorem endCoord_eight (x : Word) : endCoord x 8 = x + 7 := add_sub_assoc x 8 1

/-- A range of eight that ends inside the panel, and not before its start by wrapping, fits. -/
theorem fits_of_endCoord_eight {x : Word} (h : x.toNat ≤ (endCoord x 8).toNat) (hin : (endCoord x 8).toNat < 240) :
    x.toNat + 8 ≤ 240 := by
  have hx := x.isLt
  have hend : (endCoord x 8).toNat = (x.toNat + 7) % 65536 := by rw [endCoord_eight]; exact BitVec.toNat_add x 7
  omega

/-- The window a receiver has after the frames of an addressing window is the one they name. -/
theorem Panel.windowOk_takeAll_window {p : Panel} (hp : p.hears = true) (x y w h : Word) :
    (p.takeAll (elems (windowFrames x y w h))).windowOk = decide (x.toNat ≤ (endCoord x w).toNat ∧
      (endCoord x w).toNat < 240 ∧ y.toNat ≤ (endCoord y h).toNat ∧ (endCoord y h).toNat < 240) := by
  rw [Panel.takeAll_window hp]
  rfl

/-- A glyph whose box does not fit stops a ready receiver at its first color word (45_wire_commands.md R181). -/
theorem Panel.takeAll_char_outside {p : Panel} (hr : p.ready = true) {x y : Word}
    (hout : 240 < x.toNat + 8 ∨ 240 < y.toNat + 8) (g : Nat → Byte) (fg bg : Word) :
    p.takeAll (charElems g x y fg bg) = Panel.halted (.fault .panelWindow) := by
  obtain ⟨hears, hformat⟩ : p.hears = true ∧ p.formatOk = true := by simpa only [Panel.ready, Bool.and_eq_true] using hr
  obtain ⟨hstop, hheld, howed, -⟩ := p.hears_iff.mp hears
  have hwindow : (p.takeAll (elems (windowFrames x y 8 8))).windowOk = false := by
    rw [Panel.windowOk_takeAll_window hears, decide_eq_false_iff_not]
    rintro ⟨hx, hxin, hy, hyin⟩
    have := fits_of_endCoord_eight hx hxin
    have := fits_of_endCoord_eight hy hyin
    omega
  obtain ⟨c, cs, hwords⟩ := List.exists_cons_of_length_eq_add_one (glyphWords_length g fg bg)
  rw [charElems, hwords, elems_append, streamFrames_cons, elems_append, Panel.takeAll_append, Panel.takeAll_append]
  rw [Panel.takeAll_window hears] at hwindow ⊢
  rw [Panel.takeAll_badWindow (p := ((p.caset x (endCoord x 8)).raset y (endCoord y 8)).ramwr) hstop hheld howed rfl
    hformat hwindow c]
  exact Panel.takeAll_stopped (by simp [Panel.halted]) _

/-- A box that fits is a valid rectangle, and the glyph's words fill it. -/
theorem validRect_box {x y : Word} (hx : x.toNat + 8 ≤ 240) (hy : y.toNat + 8 ≤ 240) : validRect x y 8 8 = true :=
  (validRect_iff x y 8 8).mpr ⟨by decide, by decide, hx, hy⟩

/-- Beyond FB a glyph cell changes the window, the cursor and the mode (43_text.md R138). -/
theorem Panel.takeAll_char_rest {p : Panel} (hr : p.ready = true) {x y : Word} (hx : x.toNat + 8 ≤ 240)
    (hy : y.toNat + 8 ≤ 240) (g : Nat → Byte) (fg bg : Word) :
    let q := p.takeAll (charElems g x y fg bg)
    q = { p with fb := q.fb, xs := some x, xe := some (x + 7), ys := some y, ye := some (y + 7), px := q.px, py := q.py,
                 mode := some .exhausted } := by
  have hrest := Panel.takeAll_filled_rest hr (validRect_box hx hy) (glyphWords_length g fg bg)
  rwa [endCoord_eight, endCoord_eight, ← charElems] at hrest

end Sys2Proof.Machine

namespace Sys2Proof

open Sys2Proof.Machine

/-- Settles O20: the glyph's words and frames are counted, and the lines come back to rest. -/
theorem drawCharStreamsItsGlyph : Obligations.DrawCharStreamsItsGlyph := by
  intro s x y ch fg bg hs hr hmin hmax
  obtain ⟨t, he, hsent, hpins⟩ := exec_drawChar_printable x y fg bg hs hr ((printable_iff ch).mpr ⟨hmin, hmax⟩)
  exact ⟨t, he, hpins.pinTrace, hsent.frameTrace, hsent.panel, glyphWords_length _ fg bg, charElems_length _ x y fg bg,
    glyphWords_getElem _ fg bg, hsent.rest (hs.rest hr)⟩

/-- Settles O22: the panel takes the glyph's frames and no others. -/
theorem drawCharPaintsItsCell : Obligations.DrawCharPaintsItsCell := by
  intro s x y ch fg bg hs hr hp hmin hmax hx hy
  obtain ⟨t, he, hsent, -⟩ := exec_drawChar_printable x y fg bg hs hr ((printable_iff ch).mpr ⟨hmin, hmax⟩)
  obtain ⟨hshows, houtside, -⟩ := Panel.takeAll_char hp hx hy (s.glyphRead ch) fg bg
  have hrest := Panel.takeAll_char_rest hp hx hy (s.glyphRead ch) fg bg
  rw [← hsent.panel] at hshows houtside hrest
  exact ⟨t, he, hshows, houtside, hrest⟩

/-- Settles O23: the block sends the glyph as ever, and the receiver stops at the first of its color words. -/
theorem drawCharOutsideThePanelStopsThePanel : Obligations.DrawCharOutsideThePanelStopsThePanel := by
  intro s x y ch fg bg hs hr hp hmin hmax hout
  obtain ⟨t, he, hsent, -⟩ := exec_drawChar_printable x y fg bg hs hr ((printable_iff ch).mpr ⟨hmin, hmax⟩)
  exact ⟨t, he, hsent.frameTrace, hsent.panel.trans (Panel.takeAll_char_outside hp hout _ fg bg),
    hsent.rest (hs.rest hr), hsent.ready.trans hr⟩

end Sys2Proof
end

section
/-! The text layout (43_text.md R139 to R149): the cells `draw_string` sends, what a character that is not printable
does to them, and what the cells leave in FB. -/

namespace Sys2Proof.Machine

/-! ### The request -/

/-- `draw_string` is admitted once READY, sends the cells of its layout and adds the events of its characters. -/
theorem exec_drawString_sent {s : State} (x y : Word) {text : List Byte} (fg bg : Word) (hs : s.Safe)
    (hr : s.ready = true) (ht : text.length < 65536) : ∃ (t : State) (places : Nat),
      exec (.drawString x y text fg bg) s = .next t ∧
      Sent s t (textElems s fg bg (textCells x.toNat text x.toNat y.toNat)) ∧
      Pinned s t (textEvents s fg bg x.toNat text s.yieldPoints x.toNat y.toNat) places := by
  obtain ⟨hidle, hn, -⟩ := hs
  obtain ⟨places, hpins⟩ := s.drawString_pinned x y text fg bg hn ht
  exact ⟨_, places, State.hostRequest_admitted hidle hr _, (s.drawString_sent x y text fg bg hn ht).setRegs _,
    hpins.setRegs _⟩

/-! ### Layout -/

theorem textElems_length (s : State) (fg bg : Word) (cells : List TextCell) :
    (textElems s fg bg cells).length = 139 * cells.length := by
  simp only [textElems, List.length_flatMap, charElems_length, List.map_const', List.sum_replicate, smul_eq_mul,
    Nat.mul_comm]

/-- A character that is not printable gives no cell, and the cursor goes on (43_text.md R143, R144). -/
theorem textCells_unprintable {c : Byte} (hc : c.toNat < 32 ∨ 126 < c.toNat) (hlf : c ≠ 10) (hcr : c ≠ 13) {cy : Nat}
    (hy : cy + 8 ≤ 240) (x0 cx : Nat) (rest : List Byte) : textCells x0 (c :: rest) cx cy =
      if 240 < cx + 17 then textCells x0 rest x0 (cy + 10) else textCells x0 rest (cx + 9) cy := by
  rw [textCells, if_neg hlf, if_neg hcr, if_neg (by omega), if_neg (by omega)]
  rfl

/-- A text of one printable character whose box fits is one cell. -/
theorem textCells_singleton {d : Byte} (hmin : 32 ≤ d.toNat) (hmax : d.toNat ≤ 126) {cx cy : Nat} (hx : cx + 8 ≤ 240)
    (hy : cy + 8 ≤ 240) (x0 : Nat) : textCells x0 [d] cx cy = [⟨cx, cy, d⟩] := by
  have hlf : d ≠ 10 := by rintro rfl; exact absurd hmin (by decide)
  have hcr : d ≠ 13 := by rintro rfl; exact absurd hmin (by decide)
  rw [textCells, if_neg hlf, if_neg hcr, if_neg (by omega), if_pos ⟨hx, hmin, hmax⟩]
  simp only [textCells, ite_self, List.append_nil]

theorem textElems_singleton (s : State) (fg bg : Word) (k : TextCell) : textElems s fg bg [k] =
    charElems (s.glyphRead k.ch) (BitVec.ofNat 16 k.x) (BitVec.ofNat 16 k.y) fg bg :=
  List.flatMap_singleton _ _

/-- A text that begins with a character that is not printable sends the cells of the rest, the cursor having gone on. -/
theorem exec_drawString_unprintable {s : State} (x : Word) {y : Word} {c : Byte} {rest : List Byte} (fg bg : Word)
    (hs : s.Safe) (hr : s.ready = true) (hlen : rest.length < 65535) (hc : c.toNat < 32 ∨ 126 < c.toNat) (hlf : c ≠ 10)
    (hcr : c ≠ 13) (hy : y.toNat + 8 ≤ 240) : ∃ t : State, exec (.drawString x y (c :: rest) fg bg) s = .next t ∧
      t.frameTrace = s.frameTrace ++ textElems s fg bg (if 240 < x.toNat + 17
        then textCells x.toNat rest x.toNat (y.toNat + 10) else textCells x.toNat rest (x.toNat + 9) y.toNat) := by
  obtain ⟨t, -, he, hsent, -⟩ := exec_drawString_sent x y fg bg hs hr (text := c :: rest) (Nat.succ_lt_succ hlen)
  exact ⟨t, he, textCells_unprintable hc hlf hcr hy _ _ rest ▸ hsent.frameTrace⟩

/-! ### What the cells leave in FB -/

/-- The box of the cell fits. -/
def TextCell.Fits (k : TextCell) : Prop := k.x + 8 ≤ 240 ∧ k.y + 8 ≤ 240

theorem fits_of_mem_textCells {x0 cx cy : Nat} {text : List Byte} {k : TextCell}
    (hk : k ∈ textCells x0 text cx cy) : k.Fits := by
  obtain ⟨hx, hy, -⟩ := textCells_fit x0 text cx cy k hk
  exact ⟨hx, hy⟩

/-- From `p` to `q` the cells have been painted, with the glyphs and colors given: each cell shows its glyph unless a
later one covers it, the elements no cell covers and the bytes outside the cells are as before, and the panel, ready
again, differs beyond FB in its window, cursor and mode only. -/
structure Panel.Painted (glyph : Byte → Nat → Byte) (fg bg : Word) (p q : Panel) (cells : List TextCell) : Prop where
  shows : ∀ (before after : List TextCell) (k : TextCell), cells = before ++ k :: after →
    ∀ r c : Nat, r < 8 → c < 8 → (∀ l ∈ after, ¬ l.covers (k.x + c) (k.y + r)) →
    fbRead (k.x + c) (k.y + r) q.fb = some (if (glyph k.ch r).getLsbD c then fg else bg)
  uncovered : ∀ px py : Nat, px < 240 → (∀ k ∈ cells, ¬ k.covers px py) → fbRead px py q.fb = fbRead px py p.fb
  outside : ∀ a : Nat, (∀ k ∈ cells, ∀ r c : Nat, r < 8 → c < 8 → outsideElement a (k.x + c) (k.y + r)) →
    Memory.read a q.fb = Memory.read a p.fb
  ready : q.ready = true
  rest : q = { p with fb := q.fb, xs := q.xs, xe := q.xe, ys := q.ys, ye := q.ye, px := q.px, py := q.py,
                      mode := q.mode }

namespace Panel.Painted

variable {glyph : Byte → Nat → Byte} {fg bg : Word} {p q r : Panel} {k : TextCell} {cells : List TextCell}

theorem nil (hr : p.ready = true) : Painted glyph fg bg p p [] where
  shows before after k h := by simp at h
  uncovered _ _ _ _ := rfl
  outside _ _ := rfl
  ready := hr
  rest := rfl

/-- One cell, painted by the frames of its character. -/
theorem singleton (hr : p.ready = true) (hk : k.Fits) : Painted glyph fg bg p
    (p.takeAll (charElems (glyph k.ch) (BitVec.ofNat 16 k.x) (BitVec.ofNat 16 k.y) fg bg)) [k] := by
  obtain ⟨hx, hy⟩ := hk
  have ex : (BitVec.ofNat 16 k.x).toNat = k.x := ofNat16_toNat (by omega)
  have ey : (BitVec.ofNat 16 k.y).toNat = k.y := ofNat16_toNat (by omega)
  have hx' : (BitVec.ofNat 16 k.x).toNat + 8 ≤ 240 := by rw [ex]; exact hx
  have hy' : (BitVec.ofNat 16 k.y).toNat + 8 ≤ 240 := by rw [ey]; exact hy
  obtain ⟨hshows, houtside, -, -, hready, huncovered⟩ := Panel.takeAll_char hr hx' hy' (glyph k.ch) fg bg
  have hrest := Panel.takeAll_char_rest hr hx' hy' (glyph k.ch) fg bg
  rw [ex, ey] at hshows houtside huncovered
  refine ⟨fun before after l hl r c hr hc _ => ?_, fun px py hpx hno => ?_, fun a ha => ?_, hready, ?_⟩
  · cases before with
    | nil =>
      obtain ⟨rfl, -⟩ := List.cons.inj hl
      exact hshows r c hr hc
    | cons b before => simp at hl
  · exact huncovered px py hpx (hno k List.mem_cons_self)
  · exact houtside a (ha k List.mem_cons_self)
  · exact hrest.trans (by rw [hrest])

/-- One cell and then the later ones, which may cover it. -/
theorem cons (hk : k.Fits) (h : Painted glyph fg bg p q [k]) (g : Painted glyph fg bg q r cells) :
    Painted glyph fg bg p r (k :: cells) where
  shows before after l hl row col hrow hcol hafter := by
    cases before with
    | nil =>
      obtain ⟨rfl, rfl⟩ := List.cons.inj hl
      rw [g.uncovered _ _ (by have := hk.1; omega) hafter]
      exact h.shows [] [] k rfl row col hrow hcol (by simp)
    | cons b before => exact g.shows before after l (List.cons.inj hl).2 row col hrow hcol hafter
  uncovered px py hpx hno := by
    obtain ⟨hno1, hno2⟩ := List.forall_mem_cons.mp hno
    exact (g.uncovered px py hpx hno2).trans (h.uncovered px py hpx (List.forall_mem_singleton.mpr hno1))
  outside a ha := by
    obtain ⟨ha1, ha2⟩ := List.forall_mem_cons.mp ha
    exact (g.outside a ha2).trans (h.outside a (List.forall_mem_singleton.mpr ha1))
  ready := g.ready
  rest := g.rest.trans (by rw [h.rest])

/-- A ready receiver paints the cells of a text whose boxes fit, one after another. -/
theorem takeAll_textElems (s : State) (fg bg : Word) : ∀ (cells : List TextCell) {p : Panel}, p.ready = true →
    (∀ k ∈ cells, k.Fits) → Painted s.glyphRead fg bg p (p.takeAll (textElems s fg bg cells)) cells
  | [], _, hr, _ => nil hr
  | k :: cells, p, hr, hfit => by
    obtain ⟨hk, hcells⟩ := List.forall_mem_cons.mp hfit
    have hfirst : Painted s.glyphRead fg bg p _ [k] := singleton hr hk
    have hlater := takeAll_textElems s fg bg cells hfirst.ready hcells
    rw [← Panel.takeAll_append] at hlater
    exact hfirst.cons hk hlater

end Panel.Painted

end Sys2Proof.Machine

namespace Sys2Proof

open Sys2Proof.Machine

/-- Settles O21: `draw_char` writes registers only; in a text the character adds no cell and moves the cursor on, so
a printable one after it has its cell there. -/
theorem unprintableCharactersAreDropped : Obligations.UnprintableCharactersAreDropped := by
  refine ⟨fun s x y ch fg bg hd hc => ?_, fun _ x _ _ _ fg bg => exec_drawString_unprintable x fg bg,
    fun s x y c d fg bg hs hr hc hlf hcr hmin hmax hx hy => ?_⟩
  · have hno : printable ch = false := by
      rw [Bool.eq_false_iff, Ne, printable_iff]
      omega
    exact State.hostRequest_dropped hd (s.issue_drawChar_dropped x y fg bg hno)
  · obtain ⟨t, he, hframes⟩ := exec_drawString_unprintable x fg bg hs hr (rest := [d]) (by simp) hc hlf hcr hy
    have hcolumn : BitVec.ofNat 16 (x.toNat + 9) = x + 9 := by simp [BitVec.ofNat_add]
    rw [if_neg (by omega), textCells_singleton hmin hmax (by omega) hy, textElems_singleton, hcolumn,
      BitVec.ofNat_toNat, BitVec.setWidth_eq] at hframes
    exact ⟨t, he, hframes⟩

/-- Settles O24: the frames and the events are those of the layout, each cell counts 139 frames, and the lines come back
to rest. -/
theorem drawStringSendsItsCells : Obligations.DrawStringSendsItsCells := by
  intro s x y text fg bg hs hr ht
  obtain ⟨t, _, he, hsent, hpins⟩ := exec_drawString_sent x y fg bg hs hr ht
  exact ⟨t, he, hpins.pinTrace, hsent.frameTrace, hsent.panel, textElems_length s fg bg _,
    textCells_fit x.toNat text x.toNat y.toNat, hsent.rest (hs.rest hr)⟩

/-- Settles O25: every cell of the layout fits, so the panel paints them in their order. -/
theorem drawStringPaintsItsCells : Obligations.DrawStringPaintsItsCells := by
  intro s x y text fg bg hs hr hp ht
  obtain ⟨t, -, he, hsent, -⟩ := exec_drawString_sent x y fg bg hs hr ht
  obtain ⟨hshows, -, houtside, hready, hrest⟩ :=
    Panel.Painted.takeAll_textElems s fg bg _ hp fun _ => fits_of_mem_textCells
  rw [← hsent.panel] at hshows houtside hready hrest
  exact ⟨t, he, hshows, houtside, hready, hrest⟩

end Sys2Proof
end

section
/-! The initialisation sequencer (44_init.md R150 to R166): what an admitted `init` answers with and without `cfg_ok`,
and how long its waits are. -/

namespace Sys2Proof.Machine

/-- An idle block that is not READY admits `init` (60_exceptions.md R196). -/
theorem exec_init_admitted {s : State} (h : s.Startable) : exec .init s = .next (s.issue State.initialise) :=
  State.hostRequest_admitted h.1 h.2 State.initialise

/-- A drawing request is refused while READY is 0 (60_exceptions.md R196). -/
theorem exec_drawing_refused {i : Instr} {s : State} (hi : hostIssued i = true) (hne : i ≠ .init)
    (hr : s.ready = false) : exec i s = .refused .notAdmitted := by
  obtain ⟨run, hexec, -, -⟩ := exec_drawing_closed s hi hne
  exact hexec.trans (State.hostRequest_refused (.inr (by simp [hr])) run)

/-- A failed `init` writes STATUS and READY and takes the environment's answer (44_init.md R151, 60_exceptions.md
R191). -/
theorem State.issue_initialise_failed {s : State} (hfail : s.cfgOk = false) : s.issue State.initialise =
    { s with regs := Regs.noValue, ready := false, status := some .configFail, cfgAnswers := s.cfgAnswers.tail
             cfgAsked := s.cfgAsked + 1 } :=
  congrArg (State.setRegs fun _ => Regs.noValue) (s.initialise_failed hfail)

/-- Of the block, sending elements changes only what its operations write. -/
theorem Sent.eq_block {s t : State} {es : List Elem} (h : Sent s t es) : t = { s with
    lines := t.lines, regs := t.regs, seq := t.seq, pinLog := t.pinLog, wire := t.wire, frameLog := t.frameLog
    panel := t.panel, yieldPoints := t.yieldPoints } := by
  rw [← h.params, ← h.ready, ← h.status, ← h.glyphRom, ← h.inbox, ← h.cfgAnswers, ← h.cfgAsked]

/-- The state of a successful `init` after its steps 1 and 2 (44_init.md R151, R152). -/
def State.pulsed (s : State) : State := (s.cfgRead.setReady false).configureLines.hwResetPulse

/-- A successful `init` sends steps 3 to 10 from the pulsed state; then READY, STATUS and the registers are written. -/
theorem State.issue_initialise_ok {s : State} (hok : s.cfgOk = true) (hs : s.lines.sck.lvl ≠ some false)
    (hr : s.lines.rst.lvl ≠ some s.params.lvlRstActive) : ∃ u : State,
    s.issue State.initialise = { u with regs := Regs.noValue, seq := s.seq, ready := true, status := some .ok } ∧
    Sent s.pulsed u ((initElems s.params).drop 4 ++ initClearElems s.params) ∧
    Pinned s.pulsed u (initCommandEvents s.params ++ initClearEvents s.params s.yieldPoints)
      (initClearPlaces s.params) := by
  obtain ⟨u, hsent, hpins, -, hu⟩ := State.initialise_ok s hok hs hr
  exact ⟨u, congrArg (State.setRegs fun _ => Regs.noValue) hu, hsent, hpins⟩

section
variable {s : State} (hs : s.lines.sck.lvl ≠ some false) (hr : s.lines.rst.lvl ≠ some s.params.lvlRstActive)
include hs hr

/-- Steps 1 and 2 of `init` leave the lines as those of an initialised block. -/
theorem State.pulsed_initialised : s.pulsed.Initialised :=
  State.configurePulse_initialised (s.cfgRead.setReady false) hs hr

/-- The panel takes the reset pulse (44_init.md R152). -/
theorem State.pulsed_panel : s.pulsed.panel = s.panel.takeAll ((initElems s.params).take 4) := by
  rw [State.pulsed, State.configurePulse_eq (s.cfgRead.setReady false) hs hr]
  rfl

/-- Steps 1 and 2 add the events of the configuration and the pulse; in `initEvents` the commands' events follow. -/
theorem State.pulsed_pinTrace_commands :
    s.pulsed.pinTrace ++ initCommandEvents s.params = s.pinTrace ++ initEvents s.params := by
  rw [State.pulsed, State.configurePulse_eq (s.cfgRead.setReady false) hs hr]
  simp [State.pinTrace, initEvents, initCommandEvents]

/-- Of the block, steps 1 and 2 change the lines, READY, the traces, the wire, the panel and the environment's
answers. -/
theorem State.pulsed_eq_block : s.pulsed = { s with
    lines := s.pulsed.lines, ready := false, pinLog := s.pulsed.pinLog, wire := s.pulsed.wire
    frameLog := s.pulsed.frameLog, panel := s.pulsed.panel, cfgAnswers := s.cfgAnswers.tail
    cfgAsked := s.cfgAsked + 1 } := by
  rw [State.pulsed, State.configurePulse_eq (s.cfgRead.setReady false) hs hr]
  rfl

end

/-- Without the clear the last byte of `init` is 0x29, whose bit 0 is 1 (70_reset_and_hazards.md R216). -/
theorem sdaAfter_init_of_none {p : Params} (h : p.initClear = none) (d : Option Level) :
    sdaAfter ((initElems p).drop 4 ++ initClearElems p) d = some true := by
  rw [initClearElems, h]
  rfl

/-- With the clear the last byte of `init` is the low byte of the color (70_reset_and_hazards.md R216). -/
theorem sdaAfter_init_of_some {p : Params} {c : Word} (h : p.initClear = some c) (d : Option Level) :
    sdaAfter ((initElems p).drop 4 ++ initClearElems p) d = some (c.getLsbD 0) := by
  rw [initClearElems, h, sdaAfter_append]
  exact sdaAfter_fill 0 0 240 240 c _ (by decide)

theorem wait_notMem_elems (fs : List Frame) (n : Nat) : .wait n ∉ elems fs := by simp [elems]

/-- The clear waits nowhere: all its elements are frames (44_init.md R163). -/
theorem wait_notMem_initClearElems (p : Params) (n : Nat) : .wait n ∉ initClearElems p := by
  unfold initClearElems
  split
  · exact List.not_mem_nil
  · exact wait_notMem_elems _ n

/-- The waits of `init` before and after the one that follows SLPOUT are shorter than 255 (44_init.md R154). -/
theorem wait_lt_slpout {p : Params} (h : p.waitsOk = true) {n : Nat}
    (hn : .wait n ∈ (initElems p).take 6 ++ (initElems p).drop 8) : n < 255 := by
  obtain ⟨-, hshort, hlong⟩ : 0 < p.tShort ∧ p.tShort < p.tLong ∧ p.tLong < 255 := of_decide_eq_true h
  have hvalues : n = 10 ∨ n = 120 ∨ n = 150 ∨ n = p.tShort ∨ n = p.tLong := by simpa [initElems] using hn
  omega

end Sys2Proof.Machine

namespace Sys2Proof

open Sys2Proof.Machine

/-- Settles O26: the failed `init` writes STATUS alone, and READY stays 0, on which drawing is refused. -/
theorem initReportsConfigurationFailure : Obligations.InitReportsConfigurationFailure := by
  intro s hstart hfail
  have hexec := exec_init_admitted hstart
  rw [State.issue_initialise_failed hfail] at hexec
  exact ⟨_, hexec, rfl, fun i hi hne => exec_drawing_refused hi hne rfl⟩

/-- Settles O27: steps 1 and 2 are in closed form, and what steps 3 to 10 send follows them at the pins, at the wire and
at the panel. -/
theorem initRunsTheTenSteps : Obligations.InitRunsTheTenSteps := by
  intro s hsafe hnot hok
  obtain ⟨hseq, hbytes, hrest⟩ := s.safe_iff.mp hsafe
  have hexec := exec_init_admitted ⟨hseq, hnot⟩
  have hframes := exec_init_frameTrace hbytes.sck hrest.rst hexec
  obtain ⟨u, hu, hsent, hpins⟩ := State.issue_initialise_ok hok hbytes.sck hrest.rst
  rw [if_pos hok] at hframes
  rw [hu] at hexec hframes
  refine ⟨_, hexec, ?_, hframes, ?_, hsent.initialised (State.pulsed_initialised hbytes.sck hrest.rst),
    fun hnone => hsent.sda_lvl.trans (sdaAfter_init_of_none hnone _),
    fun c hsome => hsent.sda_lvl.trans (sdaAfter_init_of_some hsome _), ?_⟩
  · calc u.pinTrace
        = s.pulsed.pinTrace ++ initCommandEvents s.params ++ initClearEvents s.params s.yieldPoints := by
          rw [hpins.pinTrace, List.append_assoc]
      _ = _ := by rw [State.pulsed_pinTrace_commands hbytes.sck hrest.rst, List.append_assoc]
  · calc u.panel
        = s.panel.takeAll ((initElems s.params).take 4 ++
            ((initElems s.params).drop 4 ++ initClearElems s.params)) := by
          rw [hsent.panel, State.pulsed_panel hbytes.sck hrest.rst, ← Panel.takeAll_append]
      _ = _ := by rw [← List.append_assoc, List.take_append_drop]
  · have hblock := hsent.eq_block
    rw [State.pulsed_eq_block hbytes.sck hrest.rst] at hblock
    exact congrArg
      (fun r : State => { r with regs := Regs.noValue, seq := s.seq, ready := true, status := some .ok }) hblock

/-- Settles O29: T_SHORT and T_LONG are below 255 by their range, the other waits by their values, and the clear has
none. -/
theorem sleepOutWaitIsStrictlyTheLongest : Obligations.SleepOutWaitIsStrictlyTheLongest := by
  intro s hsafe hnot hok hwaits
  obtain ⟨hseq, hbytes, hrest⟩ := s.safe_iff.mp hsafe
  have hexec := exec_init_admitted ⟨hseq, hnot⟩
  have hframes := exec_init_frameTrace hbytes.sck hrest.rst hexec
  rw [if_pos hok] at hframes
  refine ⟨_, _, hexec, hframes, (initElems s.params).take 6,
    (initElems s.params).drop 8 ++ initClearElems s.params, rfl, fun n hn => ?_⟩
  rw [← List.append_assoc, List.mem_append] at hn
  exact wait_lt_slpout hwaits (hn.resolve_right (wait_notMem_initClearElems s.params n))

end Sys2Proof
end

section
/-! What the receiver makes of one element of the frame trace (45_wire_commands.md R170, R171, R184 to R186), and what a
wire command or a step then answers. -/

namespace Sys2Proof.Machine

/-! ### One element at a receiver that has not stopped -/

section
variable {p : Panel} (hs : p.stop = none)
include hs

theorem Panel.take_eq_receive (e : Elem) : p.take e = p.receive e := by simp only [Panel.take, hs]

/-- Before the first HwReset every frame is refused (45_wire_commands.md R170). -/
theorem Panel.take_frame_of_mode_none (hm : p.mode = none) (f : Frame) :
    p.take (.frame f) = Panel.halted (.refused .panelNotInitialised) := by
  rw [Panel.take_eq_receive hs, Panel.receive, Panel.frame, hm]

/-- A frame that comes too early (45_wire_commands.md R184, R186; log 25). -/
theorem Panel.take_frame_early (hm : p.mode ≠ none) (h : p.held = true ∨ 0 < p.owed) (f : Frame) :
    p.take (.frame f) = Panel.halted (.fault .panelTiming) := by
  obtain ⟨m, hm⟩ := Option.ne_none_iff_exists'.mp hm
  rw [Panel.take_eq_receive hs, Panel.receive, Panel.frame, hm]
  exact if_pos h

section
variable (hh : p.held = false) (ho : p.owed = 0) {m : RxMode} (hm : p.mode = some m)
include hh ho hm

theorem Panel.take_commandFrame (b : Byte) : p.take (.frame ⟨.command, b⟩) = p.command m b := by
  rw [Panel.take_eq_receive hs, Panel.receive, Panel.frame, hm]
  exact if_neg (by simp [hh, ho])

theorem Panel.take_dataFrame (b : Byte) : p.take (.frame ⟨.data, b⟩) = p.data m b := by
  rw [Panel.take_eq_receive hs, Panel.receive, Panel.frame, hm]
  exact if_neg (by simp [hh, ho])

end

theorem Panel.take_hwReset : p.take .hwReset = p.resetPulse := Panel.take_eq_receive hs _

theorem Panel.take_hwRelease_early (h : 0 < p.holdOwed) :
    p.take .hwRelease = Panel.halted (.fault .panelTiming) := by
  rw [Panel.take_eq_receive hs, Panel.receive, Panel.release, if_pos h]

theorem Panel.take_hwRelease (h : p.holdOwed = 0) :
    p.take .hwRelease = { p with held := false, owed := max p.owed 120 } := by
  rw [Panel.take_eq_receive hs, Panel.receive, Panel.release, if_neg (by omega)]
  rfl

theorem Panel.take_wait (n : Nat) :
    p.take (.wait n) = { p with holdOwed := p.holdOwed - n, owed := p.owed - n } := Panel.take_eq_receive hs _

end

/-- An opcode outside the ten names no command (30_encoding.md R75, R82). -/
theorem wireOpOf_of_notMem_tenOpcodes {b : Byte} (h : b ∉ tenOpcodes) : wireOpOf b = none := by
  refine Option.eq_none_iff_forall_not_mem.mpr fun op hop => h ?_
  rw [← wireOpcode_of_wireOpOf hop]
  exact wireOpcode_mem_tenOpcodes op

/-- A receiver that takes commands stops on an opcode outside the ten (45_wire_commands.md R171). -/
theorem Panel.take_unknownOpcode {p : Panel} (h : p.hears = true) {b : Byte} (hb : b ∉ tenOpcodes) :
    p.take (.frame ⟨.command, b⟩) = Panel.halted (.refused (.unknownOpcode b)) := by
  obtain ⟨hs, hh, ho, hm⟩ := p.hears_iff.mp h
  have hnone := wireOpOf_of_notMem_tenOpcodes hb
  rcases hm with hm | hm | hm <;> simp only [Panel.take_commandFrame hs hh ho hm, Panel.command, hnone]

/-- What comes after the element that stops the receiver does not matter. -/
theorem Panel.takeAll_of_take_halted {p : Panel} {e : Elem} {r : Stop} (h : p.take e = Panel.halted r)
    (es : List Elem) : p.takeAll (e :: es) = Panel.halted r := by
  rw [Panel.takeAll_cons, h]
  exact Panel.takeAll_stopped (by simp [Panel.halted]) es

/-! ### The answer of a step that takes a bare element -/

/-- The receiver stops: the step ends with that fault or refusal (log 9). -/
theorem step_of_element_halted {s : State} {e : Elem} {rest : List Input} {r : Stop}
    (hinbox : s.inbox = .element e :: rest) (h : s.panel.take e = Panel.halted r) : step s = r.outcome := by
  rw [step_of_element hinbox]
  simp only [State.atReceiver, Panel.takeAll_of_take_halted h]
  cases r <;> rfl

/-- The receiver does not stop: the element is taken and nothing else changes. -/
theorem step_of_element_taken {s : State} {e : Elem} {rest : List Input} {q : Panel}
    (hinbox : s.inbox = .element e :: rest) (h : s.panel.take e = q) (hq : q.stop = none) :
    step s = .next { s with inbox := rest, panel := q } := by
  subst h
  rw [step_of_element hinbox]
  exact State.atReceiver_of_stop_none hq

/-! ### The answer of a wire command -/

/-- The receiver comes to `q` and does not stop. -/
theorem State.wireCommand_of_takeAll {s : State} {op : WireOp} {bs : List Byte} {q : Panel}
    (h : s.panel.takeAll (elems (commandFrames op bs)) = q) (hq : q.stop = none) :
    s.wireCommand op bs = .next { s with panel := q } := by
  subst h
  exact s.wireCommand_next op bs hq

theorem Panel.begin_stop (op : WireOp) (p : Panel) : (p.begin op).stop = p.stop := by cases op <;> rfl

/-- The command frame alone, at a receiver that takes commands. -/
theorem State.wireCommand_noOperand {s : State} (h : s.panel.hears = true) (op : WireOp) :
    s.wireCommand op [] = .next { s with panel := s.panel.begin op } :=
  s.wireCommand_begin op h ((Panel.begin_stop op s.panel).trans (s.panel.hears_iff.mp h).1)

end Sys2Proof.Machine
end

section
/-! The requests of the host pass the receiver (45_wire_commands.md R189): a drawing request leaves a ready receiver
ready, and `init` makes one ready that has not stopped. -/

namespace Sys2Proof.Machine

theorem Panel.ready_iff (p : Panel) : p.ready = true ↔ p.hears = true ∧ p.formatOk = true := by
  rw [Panel.ready, Bool.and_eq_true]

theorem Panel.stop_owed_of_ready {p : Panel} (hr : p.ready = true) : p.stop = none ∧ p.owed = 0 := by
  obtain ⟨hs, -, ho, -⟩ := p.hears_iff.mp (p.ready_iff.mp hr).1
  exact ⟨hs, ho⟩

theorem Panel.ready_takeAll_fill {p : Panel} (hr : p.ready = true) {x y w h : Word} (hv : validRect x y w h = true)
    (c : Word) : (p.takeAll (fillElems x y w h c)).ready = true := by
  obtain ⟨-, -, -, hready⟩ := Panel.takeAll_filled hr hv (List.length_replicate (a := c))
  exact hready

/-- What the host owes a `draw_char` is that a printable character fits (43_text.md R137). -/
theorem fits_of_hostKeeps_drawChar {x y : Word} {ch : Byte} {fg bg : Word}
    (h : hostKeeps (.drawChar x y ch fg bg) = true) (hc : printable ch = true) :
    x.toNat + 8 ≤ 240 ∧ y.toNat + 8 ≤ 240 := by
  simpa [hostKeeps, hc] using h

/-- The frames of a drawing request leave a ready receiver ready, if the host keeps what it owes. -/
theorem Panel.ready_takeAll_requestElems {p : Panel} (hr : p.ready = true) (s : State) {i : Instr}
    (hk : hostKeeps i = true) : (p.takeAll (requestElems s i)).ready = true := by
  cases i with
  | clear c => exact Panel.ready_takeAll_fill hr (by decide) c
  | drawPixel x y c =>
    rw [requestElems]
    split
    · next h => exact Panel.ready_takeAll_fill hr (validRect_pixel h) c
    · exact hr
  | fillRect x y w h c =>
    rw [requestElems]
    split
    · next hv => exact Panel.ready_takeAll_fill hr hv c
    · exact hr
  | drawChar x y ch fg bg =>
    rw [requestElems]
    split
    · next hc =>
      obtain ⟨hx, hy⟩ := fits_of_hostKeeps_drawChar hk hc
      obtain ⟨-, -, -, -, hready, -⟩ := Panel.takeAll_char hr hx hy (s.glyphRead ch) fg bg
      exact hready
    · exact hr
  | drawString x y text fg bg =>
    exact (Panel.Painted.takeAll_textElems s fg bg _ hr fun _ => fits_of_mem_textCells).ready
  | _ => exact hr

/-- The ten steps of `init` make a receiver ready that owes no more than the reset pulse waits (log 15, log 26). -/
theorem Panel.ready_takeAll_init {p : Panel} (hs : p.stop = none) (ho : p.owed ≤ 130) (q : Params) :
    (p.takeAll (initElems q ++ initClearElems q)).ready = true := by
  have hready : Panel.initialised.ready = true := rfl
  rw [Panel.takeAll_append, Panel.takeAll_init hs ho, initClearElems]
  split
  · exact hready
  · exact Panel.ready_takeAll_fill hready (by decide) _

/-- What an admitted `init` does to the panel and READY: the ten steps, or nothing at the panel and READY stays 0. -/
theorem exec_init_panel {s t : State} (hsafe : s.Safe) (h : exec .init s = .next t) :
    t.panel = s.panel.takeAll (initElems s.params ++ initClearElems s.params) ∨
      t.panel = s.panel ∧ t.ready = false := by
  obtain ⟨ht, -, hnot⟩ := State.hostRequest_cases h
  cases hok : s.cfgOk with
  | true =>
    obtain ⟨u, hu, -, -, hpanel, -⟩ := initRunsTheTenSteps s hsafe hnot hok
    obtain rfl : t = u := Host.Outcome.next.inj (h.symm.trans hu)
    exact .inl hpanel
  | false =>
    obtain rfl : t = _ := ht.trans (State.issue_initialise_failed hok)
    exact .inr ⟨rfl, rfl⟩

end Sys2Proof.Machine

namespace Sys2Proof

open Sys2Proof.Machine

/-- Settles O53: `init` makes the receiver ready or leaves it alone, and a drawing request, admitted once READY, finds
it ready and leaves it so. -/
theorem hostRequestsPassTheReceiver : Obligations.HostRequestsPassTheReceiver := by
  intro i s t hi hk hw hsafe hs ho hr h
  have of_ready (hready : t.panel.ready = true) :
      t.panel.stop = none ∧ t.panel.owed ≤ 130 ∧ (t.ready = true → t.panel.ready = true) := by
    obtain ⟨hstop, howed⟩ := Panel.stop_owed_of_ready hready
    exact ⟨hstop, by omega, fun _ => hready⟩
  by_cases hinit : i = .init
  · subst hinit
    rcases exec_init_panel hsafe h with hpanel | ⟨hpanel, hnot⟩
    · exact of_ready (hpanel ▸ Panel.ready_takeAll_init hs ho s.params)
    · rw [hpanel, hnot]
      exact ⟨hs, ho, fun hfalse => absurd hfalse Bool.false_ne_true⟩
  · obtain ⟨-, hbytes, -⟩ := s.safe_iff.mp hsafe
    obtain ⟨-, hready, -, -, hsent⟩ := exec_drawing_sent hi hinit hw hbytes.wire_n h
    exact of_ready (hsent.panel ▸ Panel.ready_takeAll_requestElems (hr hready) s hk)

end Sys2Proof
end

section
/-! A pixel stream (45_wire_commands.md R179 to R185): what RAMWR with color words paints, and where it stops. -/

namespace Sys2Proof.Machine

/-- At a receiver that takes commands RAMWR begins, and the frames of its words follow. -/
theorem Panel.takeAll_ramwr {p : Panel} (h : p.hears = true) (ws : List Word) :
    p.takeAll (elems (commandFrames .ramwr (streamBytes ws))) = p.ramwr.takeAll (elems (streamFrames ws)) := by
  rw [commandFrames_ramwr, Panel.takeAll_cons]
  exact congrArg _ (Panel.take_command h .ramwr)

/-- A stream from the window's origin, no longer than the window, does not stop the receiver, and the window is
exhausted exactly when it is full (45_wire_commands.md R180). -/
theorem Panel.At.stream_mode {p : Panel} {x y w h : Nat} (a : p.At x y w h 0) {ws : List Word}
    (hlen : ws.length ≤ w * h) :
    (p.takeAll (elems (streamFrames ws))).stop = none ∧ (p.takeAll (elems (streamFrames ws))).mode =
      if ws.length = w * h then some .exhausted else some (.pixel none) := by
  obtain ⟨-, hmore, hfull⟩ := a.stream ws (by omega)
  split
  · obtain ⟨hs, -, -, hm, -⟩ := hfull (by omega)
    exact ⟨hs, hm⟩
  · have a' := hmore (by omega)
    exact ⟨a'.stop, a'.mode⟩

/-- The first data frame after the window is full (45_wire_commands.md R185). -/
theorem Panel.At.overrun {p : Panel} {x y w h : Nat} (a : p.At x y w h 0) {ws : List Word}
    (hlen : w * h < ws.length) :
    p.takeAll (elems (streamFrames ws)) = Panel.halted (.fault .panelOverrun) := by
  have hfit : (ws.take (w * h)).length = w * h := List.length_take_of_le hlen.le
  obtain ⟨-, -, hfull⟩ := a.stream (ws.take (w * h)) (by omega)
  obtain ⟨hs, hh, ho, hm, -⟩ := hfull (by omega)
  have hsplit : streamFrames ws = streamFrames (ws.take (w * h)) ++
      (wordFrames ws[w * h] ++ streamFrames (ws.drop (w * h + 1))) := by
    rw [← streamFrames_cons, ← List.drop_eq_getElem_cons hlen, streamFrames, streamFrames, streamFrames,
      ← List.flatMap_append, List.take_append_drop]
  rw [hsplit, elems_append, Panel.takeAll_append]
  exact Panel.takeAll_of_take_halted (Panel.take_dataFrame hs hh ho hm _) _

/-- Pixel data in a format that is not the initialised one are refused (45_wire_commands.md R180). -/
theorem exec_ramwr_badFormat {s : State} (h : s.panel.hears = true) (hf : s.panel.formatOk = false) (c : Word)
    (ws : List Word) : exec (.ramwr (c :: ws)) s = .refused .panelNotInitialised :=
  s.wireCommand_stop .ramwr _ _ (Panel.takeAll_badFormat h hf c ws)

end Sys2Proof.Machine

namespace Sys2Proof

open Sys2Proof.Machine

/-- Settles O38: RAMWR puts the receiver at the window's first place, and the stream paints from there. -/
theorem ramwrPaintsItsStream : Obligations.RamwrPaintsItsStream := by
  intro s ws xs xe ys ye hr hxs hxe hys hye hx hxin hy hyin hlen
  have a := Panel.At.ramwr hr hxs hxe hys hye hx hxin hy hyin
  obtain ⟨hfb, -, -⟩ := a.stream ws (by omega)
  obtain ⟨hstop, hmode⟩ := a.stream_mode hlen
  have hrest := a.rest ws (by omega)
  have htake := Panel.takeAll_ramwr (s.panel.ready_iff.mp hr).1 ws
  refine ⟨_, State.wireCommand_of_takeAll htake hstop, fun j hj => ?_, fun a ha => ?_, hmode, ?_⟩
  · rw [hfb]
    simpa only [Nat.zero_add] using fbRead_paint_at (Nat.succ_pos _) (by omega) ws 0 j _ hj
  · rw [hfb]
    exact read_paint_outside ws 0 _ fun j _ hj => ha j (by omega)
  · exact congrArg (fun q : Panel => { s with panel := q }) hrest

/-- Settles O39: the first data frame meets the format, the first word the window, and the word after the last place an
exhausted receiver. -/
theorem ramwrStopsOnBadFormatWindowOrLength : Obligations.RamwrStopsOnBadFormatWindowOrLength := by
  intro s c ws h
  obtain ⟨hs, hh, ho, -⟩ := s.panel.hears_iff.mp h
  refine ⟨fun hf => exec_ramwr_badFormat h hf c ws, fun hf hw => ?_,
    fun hf xs xe ys ye hxs hxe hys hye hx hxin hy hyin hlen => ?_⟩
  · refine s.wireCommand_stop .ramwr _ (.fault .panelWindow) ?_
    rw [Panel.takeAll_ramwr h, streamFrames_cons, elems_append, Panel.takeAll_append,
      Panel.takeAll_badWindow (p := s.panel.ramwr) hs hh ho rfl hf hw c]
    exact Panel.takeAll_stopped (by simp [Panel.halted]) _
  · have a := Panel.At.ramwr (s.panel.ready_iff.mpr ⟨h, hf⟩) hxs hxe hys hye hx hxin hy hyin
    exact s.wireCommand_stop .ramwr _ (.fault .panelOverrun) ((Panel.takeAll_ramwr h _).trans (a.overrun hlen))

end Sys2Proof
end

section
/-! A wire command acts at the receiver alone (log 7). -/

namespace Sys2Proof.Machine

/-- What is encoded at the wire port is a wire command with its operand bytes. -/
theorem exec_of_encode_wire {i : Instr} {codes : List (BitVec 9)} (h : encode i = .wire codes) :
    ∃ (op : WireOp) (bs : List Byte), ∀ s : State, exec i s = s.wireCommand op bs := by
  cases i with
  | swreset => exact ⟨.swreset, _, fun _ => rfl⟩
  | slpout => exact ⟨.slpout, _, fun _ => rfl⟩
  | noron => exact ⟨.noron, _, fun _ => rfl⟩
  | invon => exact ⟨.invon, _, fun _ => rfl⟩
  | dispon => exact ⟨.dispon, _, fun _ => rfl⟩
  | caset xs xe => exact ⟨.caset, _, fun _ => rfl⟩
  | raset ys ye => exact ⟨.raset, _, fun _ => rfl⟩
  | ramwr ws => exact ⟨.ramwr, _, fun _ => rfl⟩
  | madctl m => exact ⟨.madctl, _, fun _ => rfl⟩
  | colmod m => exact ⟨.colmod, _, fun _ => rfl⟩
  | _ => simp [encode] at h

end Sys2Proof.Machine

namespace Sys2Proof

open Sys2Proof.Machine

/-- Settles O42: a wire command goes on with another panel alone, and its first frame is refused before the first
HwReset. -/
theorem wireCommandsLeaveTheBlockAlone : Obligations.WireCommandsLeaveTheBlockAlone := by
  rintro i s ⟨codes, henc⟩
  obtain ⟨op, bs, hexec⟩ := exec_of_encode_wire henc
  rw [hexec]
  refine ⟨fun t h => ?_, fun hs hm => ?_⟩
  · obtain ⟨rfl, hstop⟩ := State.wireCommand_cases h
    exact ⟨rfl, hstop⟩
  · exact s.wireCommand_stop op bs _ (Panel.takeAll_of_take_halted (Panel.take_frame_of_mode_none hs hm _) _)

end Sys2Proof
end

section
/-! The ten wire commands, each alone at a receiver that takes commands (45_wire_commands.md R172 to R183). -/

namespace Sys2Proof

open Sys2Proof.Machine Laws.RoundTrip

/-- Settles O32: the registers that SWRESET does not clear are those of a receiver that takes commands. -/
theorem swresetClearsTheRegisters : Obligations.SwresetClearsTheRegisters := by
  refine ⟨decode_wirePacket .swreset [], fun s h => ?_⟩
  obtain ⟨hs, hh, -, -⟩ := s.panel.hears_iff.mp h
  have hbegin : s.panel.begin .swreset = { Panel.powerOn with
      mode := some .idle, fb := s.panel.fb, holdOwed := s.panel.holdOwed, owed := 150 } := by
    simp only [Panel.begin, Panel.swreset, Panel.powerOn, hs, hh, Config.tSwreset]
  exact hbegin ▸ State.wireCommand_noOperand h .swreset

/-- Settles O33: the command frame performs the rule. -/
theorem slpoutWakesThePanel : Obligations.SlpoutWakesThePanel :=
  ⟨decode_wirePacket .slpout [], fun _ h => State.wireCommand_noOperand h .slpout⟩

/-- Settles O34: the command frame of each performs its rule. -/
theorem noronInvonDisponTurnOn : Obligations.NoronInvonDisponTurnOn :=
  ⟨decode_wirePacket .noron [], decode_wirePacket .invon [], decode_wirePacket .dispon [], fun _ h =>
    ⟨State.wireCommand_noOperand h .noron, State.wireCommand_noOperand h .invon,
      State.wireCommand_noOperand h .dispon⟩⟩

/-- Settles O35: the fourth operand byte performs the rule. -/
theorem casetSetsTheColumns : Obligations.CasetSetsTheColumns :=
  ⟨fun b1 b2 b3 b4 => decode_wirePacket .caset [b1, b2, b3, b4], fun s xs xe h =>
    State.wireCommand_of_takeAll (Panel.takeAll_caset h xs xe) (s.panel.hears_iff.mp h).1⟩

/-- Settles O36: the fourth operand byte performs the rule. -/
theorem rasetSetsTheRows : Obligations.RasetSetsTheRows :=
  ⟨fun b1 b2 b3 b4 => decode_wirePacket .raset [b1, b2, b3, b4], fun s ys ye h =>
    State.wireCommand_of_takeAll (Panel.takeAll_raset h ys ye) (s.panel.hears_iff.mp h).1⟩

/-- Settles O37: the command frame performs the rule, and no data frame follows. -/
theorem ramwrStartsAtTheWindowsOrigin : Obligations.RamwrStartsAtTheWindowsOrigin :=
  ⟨decode_wirePacket .ramwr [], fun _ h => State.wireCommand_noOperand h .ramwr⟩

/-- Settles O40: the receiver takes commands again, but its format is the initialised one only with 0x00. -/
theorem madctlRecordsItsOperand : Obligations.MadctlRecordsItsOperand := by
  refine ⟨fun m => decode_wirePacket .madctl [m], fun s m h => ?_⟩
  obtain ⟨hs, hh, ho, -⟩ := s.panel.hears_iff.mp h
  refine ⟨_, State.wireCommand_of_takeAll (Panel.takeAll_madctl h m) hs, rfl, fun hm => ?_⟩
  exact exec_ramwr_badFormat ((Panel.hears_iff _).mpr ⟨hs, hh, ho, .inl rfl⟩)
    (decide_eq_false fun hformat => hm (Option.some.inj hformat.2))

/-- Settles O41: the receiver takes commands again, but its format is the initialised one only with 0x55. -/
theorem colmodRecordsItsOperand : Obligations.ColmodRecordsItsOperand := by
  refine ⟨fun m => decode_wirePacket .colmod [m], fun s m h => ?_⟩
  obtain ⟨hs, hh, ho, -⟩ := s.panel.hears_iff.mp h
  refine ⟨_, State.wireCommand_of_takeAll (Panel.takeAll_colmod h m) hs, rfl, fun hm => ?_⟩
  exact exec_ramwr_badFormat ((Panel.hears_iff _).mpr ⟨hs, hh, ho, .inl rfl⟩)
    (decide_eq_false fun hformat => hm (Option.some.inj hformat.1))

end Sys2Proof
end

section
/-! Bare elements at the receiver: what stops it, the reset markers, and the mandatory waits (45_wire_commands.md R170,
R171, R184 to R186). -/

namespace Sys2Proof.Machine

/-- The elements that bring the receiver to owe a wait, the waits, and the element that must wait for them. -/
theorem Panel.takeAll_trigger {p q : Panel} {es : List Elem} (h : p.takeAll es = q) (ws fs : List Elem) :
    p.takeAll (es ++ ws ++ fs) = q.takeAll (ws ++ fs) := by
  rw [List.append_assoc, Panel.takeAll_append, h]

/-- After the shortest hold the boot wait is owed and nothing else (45_wire_commands.md R186). -/
theorem Panel.takeAll_shortestHold {p : Panel} (hs : p.stop = none) (ho : p.owed = 0) :
    p.takeAll [.hwReset, .wait 10, .hwRelease] = { Panel.powerOn with mode := some .idle, owed := 120 } := by
  rw [Panel.takeAll_cons, Panel.take_hwReset hs, Panel.resetPulse, ho]
  rfl

/-- A command frame after some waits is taken exactly when they add up to what is owed (45_wire_commands.md R186). -/
theorem Panel.stop_takeAll_waits_command {p : Panel} (hs : p.stop = none) (hh : p.held = false)
    (hm : p.mode = some .idle) (ns : List Nat) (op : WireOp) :
    (p.takeAll (ns.map Elem.wait ++ [.frame ⟨.command, wireOpcode op⟩])).stop =
      if ns.sum < p.owed then some (.fault .panelTiming) else none := by
  rw [Panel.takeAll_append, Panel.takeAll_waits ns p hs, Panel.takeAll_cons, Panel.takeAll_nil,
    Panel.take_command_owed (by exact hs) (by exact hh) (by exact hm)]
  simp only [Nat.sub_pos_iff_lt]

/-- HwRelease after some waits is taken exactly when they add up to the hold (45_wire_commands.md R186). -/
theorem Panel.stop_takeAll_waits_release {p : Panel} (hs : p.stop = none) (ns : List Nat) :
    (p.takeAll (ns.map Elem.wait ++ [.hwRelease])).stop =
      if ns.sum < p.holdOwed then some (.fault .panelTiming) else none := by
  rw [Panel.takeAll_append, Panel.takeAll_waits ns p hs, Panel.takeAll_cons, Panel.takeAll_nil]
  split
  · next h => rw [Panel.take_hwRelease_early (by exact hs) (by exact Nat.sub_pos_of_lt h)]; rfl
  · next h => rw [Panel.take_hwRelease (by exact hs) (by exact Nat.sub_eq_zero_of_le (Nat.le_of_not_lt h))]; exact hs

end Sys2Proof.Machine

namespace Sys2Proof

open Sys2Proof.Machine

/-- Settles O43: the frame stops the receiver, and the step ends with what has stopped it. -/
theorem receiverStopsOnUndefinedFrames : Obligations.ReceiverStopsOnUndefinedFrames := by
  intro s k b rest hs hinbox
  refine ⟨fun hm => step_of_element_halted hinbox (Panel.take_frame_of_mode_none hs hm _),
    fun hm hearly => step_of_element_halted hinbox (Panel.take_frame_early hs hm hearly _), fun hh ho => ⟨?_, ?_⟩⟩
  · rintro rfl
    exact ⟨fun _ _ hm => step_of_element_halted hinbox (Panel.take_commandFrame hs hh ho hm b),
      fun _ hm => step_of_element_halted hinbox (Panel.take_commandFrame hs hh ho hm b),
      fun hears hb => step_of_element_halted hinbox (Panel.take_unknownOpcode hears hb)⟩
  · rintro rfl
    exact ⟨fun hm => step_of_element_halted hinbox (Panel.take_dataFrame hs hh ho hm b),
      fun hm => step_of_element_halted hinbox (Panel.take_dataFrame hs hh ho hm b)⟩

/-- Settles O44: each marker and each wait has one rule. -/
theorem resetMarkersActOnTheReceiver : Obligations.ResetMarkersActOnTheReceiver := by
  intro s rest hs
  exact ⟨fun hinbox => step_of_element_taken hinbox (Panel.take_hwReset hs) rfl,
    fun hinbox h => step_of_element_halted hinbox (Panel.take_hwRelease_early hs h),
    fun hinbox h => step_of_element_taken hinbox (Panel.take_hwRelease hs h) hs,
    fun n hinbox => step_of_element_taken hinbox (Panel.take_wait hs n) hs⟩

/-- Settles O45: each trigger leaves its minimum owed, against which the waits add up. -/
theorem mandatoryWaitsAreSums : Obligations.MandatoryWaitsAreSums := by
  intro p ns op h
  obtain ⟨hs, hh, ho, -⟩ := p.hears_iff.mp h
  refine ⟨?_, ?_, ?_, ?_⟩
  · rw [Panel.takeAll_trigger (es := [.hwReset]) (Panel.take_hwReset hs)]
    exact Panel.stop_takeAll_waits_release (p := p.resetPulse) rfl ns
  · rw [Panel.takeAll_trigger (Panel.takeAll_shortestHold hs ho)]
    exact Panel.stop_takeAll_waits_command rfl rfl rfl ns op
  · rw [Panel.takeAll_trigger (es := [.frame ⟨.command, 0x01⟩]) (Panel.take_command h .swreset)]
    exact Panel.stop_takeAll_waits_command (p := p.swreset) hs hh rfl ns op
  · rw [Panel.takeAll_trigger (es := [.frame ⟨.command, 0x11⟩]) (Panel.take_command h .slpout)]
    exact Panel.stop_takeAll_waits_command (p := p.slpout) hs hh rfl ns op

end Sys2Proof
end

section
/-! Admission (60_exceptions.md R196): a host request stands before one value of READY, 0 for `init` and 1 for drawing. -/

namespace Sys2Proof.Machine

/-- Every host request runs under admission, which wants READY = 0 for `init` and READY = 1 for a drawing request
(spec decisions D17, D29). -/
theorem exec_eq_hostRequest {i : Instr} (hi : hostIssued i = true) (s : State) :
    ∃ run : State → State, exec i s = s.hostRequest (decide (i ≠ .init)) run := by
  by_cases hinit : i = .init
  · subst hinit
    exact ⟨State.initialise, rfl⟩
  · obtain ⟨run, hexec, -, -⟩ := exec_drawing_closed s hi hinit
    exact ⟨run, by rw [hexec, decide_eq_true hinit]⟩

end Sys2Proof.Machine

namespace Sys2Proof

open Sys2Proof.Machine

/-- Settles O30: an operation in progress, and READY at the value the request does not want, each fail admission. -/
theorem requestsAreAdmittedOnlyWhenDue : Obligations.RequestsAreAdmittedOnlyWhenDue := by
  intro i s hi hnot
  obtain ⟨run, hexec⟩ := exec_eq_hostRequest hi s
  refine hexec.trans (State.hostRequest_refused ?_ run)
  rcases hnot with hbusy | ⟨rfl, hready⟩ | ⟨hne, hnotReady⟩
  · exact .inl hbusy
  · exact .inr (by simp [hready])
  · exact .inr (by simp [hne, hnotReady])

end Sys2Proof
end

section
/-! The panel after a successful `init` (70_reset_and_hazards.md R216): what step 9 leaves, and what the clear of step 10
changes of it. -/

namespace Sys2Proof.Machine

/-- The clear at a ready receiver: the window is the whole panel, exhausted, every element holds the color, and of the
other registers only the cursor changes (44_init.md R163). -/
theorem Panel.takeAll_clear {p : Panel} (hr : p.ready = true) (c : Word) :
    let r := p.takeAll (fillElems 0 0 240 240 c)
    (∀ px py : Nat, px < 240 → py < 240 → fbRead px py r.fb = some c) ∧
    r = { p with fb := r.fb, xs := some 0, xe := some 239, ys := some 0, ye := some 239, px := r.px, py := r.py
                 mode := some .exhausted } := by
  have hend : endCoord 0 240 = 239 := by decide
  obtain ⟨hcolor, -, hrest⟩ := Panel.takeAll_fill hr (show validRect 0 0 240 240 = true by decide) c
  rw [hend] at hrest
  exact ⟨fun px py hpx hpy => hcolor px py (Nat.zero_le _) (by simpa using hpx) (Nat.zero_le _) (by simpa using hpy),
    hrest⟩

/-- With or without the clear, step 10 keeps the six registers that the commands before it write. -/
theorem Panel.takeAll_initClear_registers {p : Panel} (hr : p.ready = true) (q : Params) :
    let r := p.takeAll (initClearElems q)
    r.sleep = p.sleep ∧ r.colmod = p.colmod ∧ r.madctl = p.madctl ∧ r.inv = p.inv ∧ r.norm = p.norm ∧
    r.disp = p.disp := by
  rw [initClearElems]
  split
  · exact ⟨rfl, rfl, rfl, rfl, rfl, rfl⟩
  · next c _ =>
    obtain ⟨-, hrest⟩ := Panel.takeAll_clear hr c
    rw [hrest]
    exact ⟨rfl, rfl, rfl, rfl, rfl, rfl⟩

end Sys2Proof.Machine

namespace Sys2Proof

open Sys2Proof.Machine

/-- Settles O28: step 9 leaves the panel initialised, and of that panel step 10 changes nothing, or fills it. -/
theorem initLeavesThePanelInitialised : Obligations.InitLeavesThePanelInitialised := by
  intro s hsafe hnot hok hs ho
  obtain ⟨t, hexec, -, -, hpanel, -⟩ := initRunsTheTenSteps s hsafe hnot hok
  have hready : t.panel.ready = true := hpanel ▸ Panel.ready_takeAll_init hs ho s.params
  rw [Panel.takeAll_append, Panel.takeAll_init hs ho] at hpanel
  have hinitialised : Panel.initialised.ready = true := rfl
  obtain ⟨hsleep, hcolmod, hmadctl, hinv, hnorm, hdisp⟩ :=
    Panel.takeAll_initClear_registers hinitialised s.params
  rw [← hpanel] at hsleep hcolmod hmadctl hinv hnorm hdisp
  refine ⟨t, hexec, hready, hsleep, hcolmod, hmadctl, hinv, hnorm, hdisp, fun hnone => ?_, fun c hsome => ?_⟩
  · rw [initClearElems, hnone] at hpanel
    rw [hpanel]
    exact ⟨rfl, rfl, rfl, rfl, rfl, rfl⟩
  · obtain ⟨hcolor, hrest⟩ := Panel.takeAll_clear hinitialised c
    rw [initClearElems, hsome] at hpanel
    rw [← hpanel] at hcolor hrest
    exact ⟨congrArg Panel.mode hrest, congrArg Panel.xs hrest, congrArg Panel.xe hrest, congrArg Panel.ys hrest,
      congrArg Panel.ye hrest, hcolor⟩

end Sys2Proof
end
